-- ==== Sys2Proof/Word.lean ====
section
/-! DEFINITION. The word types of the engine: FMT values, 96-bit instruction records, register fields
(spec 00_scope.md R6 to R8, R10; 30_encoding.md R80). -/

namespace Sys2Proof

/-- One floating-point datum as its bit pattern (R10). A word is wide enough for binary64; a binary32
datum stands in bits 31..0 and the bits above are 0 (log entry 12). -/
abbrev Word := BitVec 64

/-- One 96-bit instruction record (R80). -/
abbrev Record := BitVec 96

/-- An 8-bit register field of a record (R80, R91). -/
abbrev RegIdx := BitVec 8

/-- The floating-point format of every value, the configuration parameter FMT (R6, D14). -/
inductive Fmt where
  | binary32
  | binary64
  deriving DecidableEq, Repr

end Sys2Proof
end

