-- ==== Sys2Proof/Syntax.lean ====
section
/-! DEFINITION. The instruction set as syntax: the closed set of six opcodes (spec 00_scope.md R2, 30_encoding.md R84),
one constructor per row of spec/opcode_table.json, and the names the engine uses for them. -/

namespace Sys2Proof

/-- The six opcodes, in the order the spec lists them (R84). -/
inductive Opcode where
  | add
  | sub
  | mul
  | div
  | load
  | store
  deriving DecidableEq, Repr

/-- The four functional-unit classes, in arbitration order (R13, R26, R119). -/
inductive UnitClass where
  | addSub
  | mulDiv
  | load
  | store
  deriving DecidableEq, Repr

/-- The register fields of a record, in the order in which an issuing instruction's are checked (R111). -/
inductive RegField where
  | rd
  | rs1
  | rs2
  deriving DecidableEq, Repr

/-- A decoded instruction (R90). -/
inductive Instr where
  /-- `ADD rd, rs1, rs2` (R143). -/
  | add (rd rs1 rs2 : RegIdx)
  /-- `SUB rd, rs1, rs2` (R144). -/
  | sub (rd rs1 rs2 : RegIdx)
  /-- `MUL rd, rs1, rs2` (R145). -/
  | mul (rd rs1 rs2 : RegIdx)
  /-- `DIV rd, rs1, rs2` (R146). -/
  | div (rd rs1 rs2 : RegIdx)
  /-- `LOAD rd, #imm`: the immediate is an FMT bit pattern (R160). -/
  | load (rd : RegIdx) (imm : Word)
  /-- `STORE rd, rs1` (R161). -/
  | store (rd rs1 : RegIdx)
  deriving DecidableEq, Repr

/-- Why a record is illegal (R86): detail 1, an opcode number of 6 or more; detail 2, a nonzero reserved field. -/
inductive IllegalReason where
  | unknownOpcode
  | reservedNonzero
  deriving DecidableEq, Repr

/-- What decoding a record gives: one of the six instructions, or `Invalid` (R87, R90). -/
inductive Decoded where
  | instr (i : Instr)
  | invalid (why : IllegalReason)
  deriving DecidableEq, Repr

end Sys2Proof
end

