-- ==== Sys2Proof/Config.lean ====
section
/-! DEFINITION. What an implementation fixes: the configuration parameters of spec 00_scope.md R6, in the widths of the
host registers that hold them (10_state.md R39), and the one free value, the NaN an arithmetic operation returns
(41_arithmetic.md R141). Their legal ranges are checked by reset (70_reset_and_hazards.md R201), not by these types. -/

namespace Sys2Proof.Config

/-- `CFG_LAT[op]`, one 8-bit latency per opcode (R6, R39). -/
structure Latencies where
  add   : BitVec 8
  sub   : BitVec 8
  mul   : BitVec 8
  div   : BitVec 8
  load  : BitVec 8
  store : BitVec 8
  deriving DecidableEq, Repr

/-- `CFG_NSTA[cls]`, one 9-bit station count per class (R6, R39). -/
structure StationCounts where
  addSub : BitVec 9
  mulDiv : BitVec 9
  load   : BitVec 9
  store  : BitVec 9
  deriving DecidableEq, Repr

/-- The configuration (R6). The spec takes it as a parameter of the step relation that nothing in a run writes; the
model carries it in State so that one step is a function of State (log entry 2). -/
structure Params where
  /-- `FMT`, a parameter without a host register (log entry 3). -/
  fmt     : Fmt
  /-- `LAT[op]`. -/
  lat     : Latencies
  /-- `NSTA[cls]`. -/
  nsta    : StationCounts
  /-- `NREGS`. -/
  nregs   : BitVec 9
  /-- `N`, the host register `CFG_PROG_LEN`. -/
  progLen : BitVec 17
  /-- `INIT[i]`. -/
  init    : Vector Word 256
  /-- `RNAME[i]`; register i has the name at position i of this list, and `R<i>` where the list ends before (R96).
  Only the assembler reads it (R22). -/
  names   : List String
  deriving DecidableEq, Repr

/-- FREE VALUE (R141, D15, log entry 7). The bit pattern from which `nan_result(op, a, b)` takes its sign and payload:
no body, so nothing can be proved of it but that it depends on the format, the opcode and the operands alone. -/
opaque nanPattern : Fmt → Opcode → Word → Word → Word

end Sys2Proof.Config
end

