-- ==== Sys2Proof/WellFormed.lean ====
section
/-! DEFINITION. Well-formed instructions: those that some record encodes. Register fields take every 8-bit value
(spec 30_encoding.md R88: they are not compared with NREGS before issue); a LOAD's immediate is FLEN bits wide (R91). -/

namespace Sys2Proof

/-- The immediate of a LOAD fits the format: under binary32 record bits 95:64 are reserved zero (R83). -/
def immFits (fmt : Fmt) (imm : Word) : Bool :=
  match fmt with
  | .binary32 => decide (imm.toNat < 2 ^ 32)
  | .binary64 => true

/-- An instruction that the encoding of format `fmt` can hold. -/
def Instr.wf (fmt : Fmt) (i : Instr) : Bool :=
  match i with
  | .add _ _ _ => true
  | .sub _ _ _ => true
  | .mul _ _ _ => true
  | .div _ _ _ => true
  | .load _ imm => immFits fmt imm
  | .store _ _ => true

end Sys2Proof
end

