-- ==== Sys2Proof/Decode.lean ====
section
/-! DEFINITION. Records and instructions: the opcode map, the match and mask table, the total decoder and the encoder
(spec 30_encoding.md). -/

namespace Sys2Proof

/-- `FLEN`, the width of a value of format `fmt` (R6). -/
def Fmt.flen (fmt : Fmt) : Nat :=
  match fmt with
  | .binary32 => 32
  | .binary64 => 64

/-- The bits `[FLEN-1:0]` of a word, the rest 0 (R10, R39, R91). -/
def lowFlen (fmt : Fmt) (w : Word) : Word :=
  match fmt with
  | .binary32 => w &&& 0xFFFFFFFF#64
  | .binary64 => w

/-- The opcode number of the `op` field, also the 3-bit code of `RS_CTL` (R84). -/
def Opcode.code (op : Opcode) : BitVec 8 :=
  match op with
  | .add => 0x00#8
  | .sub => 0x01#8
  | .mul => 0x02#8
  | .div => 0x03#8
  | .load => 0x04#8
  | .store => 0x05#8

/-- `class(op)` (R11, R84, R104). -/
def Opcode.unit (op : Opcode) : UnitClass :=
  match op with
  | .add => .addSub
  | .sub => .addSub
  | .mul => .mulDiv
  | .div => .mulDiv
  | .load => .load
  | .store => .store

/-- The opcode of an instruction, `I.op` of R101. -/
def Instr.op (i : Instr) : Opcode :=
  match i with
  | .add _ _ _ => .add
  | .sub _ _ _ => .sub
  | .mul _ _ _ => .mul
  | .div _ _ _ => .div
  | .load _ _ => .load
  | .store _ _ => .store

/-- The destination register field, `I.rd` of R101. -/
def Instr.rd (i : Instr) : RegIdx :=
  match i with
  | .add rd _ _ => rd
  | .sub rd _ _ => rd
  | .mul rd _ _ => rd
  | .div rd _ _ => rd
  | .load rd _ => rd
  | .store rd _ => rd

/-- The source registers of an instruction, first and second (R81 to R83): two for format R, one for S, none for I. -/
def Instr.sources (i : Instr) : List RegIdx :=
  match i with
  | .add _ rs1 rs2 => [rs1, rs2]
  | .sub _ rs1 rs2 => [rs1, rs2]
  | .mul _ rs1 rs2 => [rs1, rs2]
  | .div _ rs1 rs2 => [rs1, rs2]
  | .load _ _ => []
  | .store _ rs1 => [rs1]

/-! ### Field layout (R80) -/

/-- `op = w[7:0]`. -/
def opField (w : Record) : BitVec 8 := w.extractLsb' 0 8

/-- `rd = w[15:8]`. -/
def rdField (w : Record) : RegIdx := w.extractLsb' 8 8

/-- `rs1 = w[23:16]`. -/
def rs1Field (w : Record) : RegIdx := w.extractLsb' 16 8

/-- `rs2 = w[31:24]`. -/
def rs2Field (w : Record) : RegIdx := w.extractLsb' 24 8

/-- `imm = w[95:32]`. -/
def immField (w : Record) : Word := w.extractLsb' 32 64

/-- A record from its five fields, the most significant first (R80). -/
def recordOf (imm : Word) (rs2 rs1 rd : RegIdx) (op : BitVec 8) : Record :=
  imm ++ rs2 ++ rs1 ++ rd ++ op

/-! ### Decoding (R90) -/

/-- The decoder of R90, total on every bit pattern. The last arm is the case the first test has already taken. -/
def decode (fmt : Fmt) (w : Record) : Decoded :=
  let op := (opField w).toNat
  if 6 ≤ op then .invalid .unknownOpcode
  else if op ≤ 3 ∧ immField w ≠ 0 then .invalid .reservedNonzero
  else if op = 5 ∧ (rs2Field w ≠ 0 ∨ immField w ≠ 0) then .invalid .reservedNonzero
  else if op = 4 ∧ (rs1Field w ≠ 0 ∨ rs2Field w ≠ 0) then .invalid .reservedNonzero
  else if op = 4 ∧ immFits fmt (immField w) = false then .invalid .reservedNonzero
  else match op with
    | 0 => .instr (.add (rdField w) (rs1Field w) (rs2Field w))
    | 1 => .instr (.sub (rdField w) (rs1Field w) (rs2Field w))
    | 2 => .instr (.mul (rdField w) (rs1Field w) (rs2Field w))
    | 3 => .instr (.div (rdField w) (rs1Field w) (rs2Field w))
    | 4 => .instr (.load (rdField w) (lowFlen fmt (immField w)))
    | 5 => .instr (.store (rdField w) (rs1Field w))
    | _ => .invalid .unknownOpcode

/-- The record of a well-formed instruction, written from the formats R, I and S (R81 to R84). -/
def encode (i : Instr) : Record :=
  match i with
  | .add rd rs1 rs2 => recordOf 0#64 rs2 rs1 rd 0x00#8
  | .sub rd rs1 rs2 => recordOf 0#64 rs2 rs1 rd 0x01#8
  | .mul rd rs1 rs2 => recordOf 0#64 rs2 rs1 rd 0x02#8
  | .div rd rs1 rs2 => recordOf 0#64 rs2 rs1 rd 0x03#8
  | .load rd imm => recordOf imm 0#8 0#8 rd 0x04#8
  | .store rd rs1 => recordOf 0#64 0#8 rs1 rd 0x05#8

/-! ### The match and mask table (R85) -/

/-- `match(X)` of R85. -/
def rowMatch (op : Opcode) : Record :=
  match op with
  | .add => 0x000000000000000000000000#96
  | .sub => 0x000000000000000000000001#96
  | .mul => 0x000000000000000000000002#96
  | .div => 0x000000000000000000000003#96
  | .load => 0x000000000000000000000004#96
  | .store => 0x000000000000000000000005#96

/-- `mask(X)` of R85; with binary32 the row of LOAD differs. -/
def rowMask (fmt : Fmt) (op : Opcode) : Record :=
  match op with
  | .add => 0xFFFFFFFFFFFFFFFF000000FF#96
  | .sub => 0xFFFFFFFFFFFFFFFF000000FF#96
  | .mul => 0xFFFFFFFFFFFFFFFF000000FF#96
  | .div => 0xFFFFFFFFFFFFFFFF000000FF#96
  | .load =>
    match fmt with
    | .binary32 => 0xFFFFFFFF00000000FFFF00FF#96
    | .binary64 => 0x0000000000000000FFFF00FF#96
  | .store => 0xFFFFFFFFFFFFFFFFFF0000FF#96

/-- Record `w` is instruction X by the table: `record AND mask(X) = match(X)` (R85). -/
def rowAccepts (fmt : Fmt) (op : Opcode) (w : Record) : Bool :=
  w &&& rowMask fmt op == rowMatch op

/-- The instruction the decoder reads from a table row's word: the low `nbits` bits of `w` as one record, the bits
above them 0. A record is one 96-bit element of the program store (R61, R80), so no byte order enters. The format
is the default, binary64 (R6), for which spec/opcode_table.json gives its masks. -/
def decodeTableWord (nbits w : Nat) : Option Instr :=
  match decode .binary64 (BitVec.ofNat 96 (w % 2 ^ nbits)) with
  | .instr i => some i
  | .invalid _ => none

end Sys2Proof
end

