-- ==== Sys2Proof/Machine/Float.lean ====
section
/-! DEFINITION. The four IEEE 754 operations of format FMT on bit patterns (spec 41_arithmetic.md R140, R141): the exact
result rounded once, ties to even, subnormals kept, no flags; a NaN result is `nan_result`. What R140, R145 and R146
take from IEEE 754 itself is PRESUMED (log entry 16).

A finite value is a whole number of UNITS, one unit being the smallest positive subnormal of the format (2^-149 or
2^-1074). The MAGNITUDE of a pattern is the pattern without its sign bit; magnitudes of finite values rise with the
values they stand for, and the magnitude of infinity follows the largest finite one. -/

namespace Sys2Proof.Machine

/-- Bits of the fraction field. -/
def fracBits (fmt : Fmt) : Nat :=
  match fmt with
  | .binary32 => 23
  | .binary64 => 52

/-- The magnitude of infinity: exponent field all ones, fraction 0. -/
def infMag (fmt : Fmt) : Nat :=
  match fmt with
  | .binary32 => 0x7F800000
  | .binary64 => 0x7FF0000000000000

/-- The base-two logarithm of the number of units in 1.0. -/
def oneExp (fmt : Fmt) : Nat :=
  match fmt with
  | .binary32 => 149
  | .binary64 => 1074

/-- The magnitude of a pattern, the bits `[FLEN-2:0]`. -/
def magOf (fmt : Fmt) (w : Word) : Nat :=
  w.toNat % 2 ^ (fmt.flen - 1)

/-- The sign, bit FLEN-1 (R64); true is negative. -/
def isNeg (fmt : Fmt) (w : Word) : Bool :=
  w.toNat.testBit (fmt.flen - 1)

/-- The pattern of FLEN bits with this sign and magnitude. -/
def packFp (fmt : Fmt) (neg : Bool) (mag : Nat) : Word :=
  BitVec.ofNat 64 ((if neg then 2 ^ (fmt.flen - 1) else 0) + mag)

/-- The pattern is a NaN: exponent all ones, fraction not 0. -/
def isNaN (fmt : Fmt) (w : Word) : Bool :=
  decide (infMag fmt < magOf fmt w)

/-- The pattern is an infinity. -/
def isInf (fmt : Fmt) (w : Word) : Bool :=
  decide (magOf fmt w = infMag fmt)

/-- The pattern is +0 or -0. -/
def isZero (fmt : Fmt) (w : Word) : Bool :=
  decide (magOf fmt w = 0)

/-- The units that a magnitude stands for: a subnormal's are its fraction, a normal's its significand shifted by its
exponent field less one. At `infMag` this is the power of two that follows the largest finite value. -/
def magUnits (fmt : Fmt) (mag : Nat) : Nat :=
  let e := mag / 2 ^ fracBits fmt
  let f := mag % 2 ^ fracBits fmt
  if e = 0 then f else (2 ^ fracBits fmt + f) * 2 ^ (e - 1)

/-- The exact value of a finite pattern, in units. -/
def valueUnits (fmt : Fmt) (w : Word) : Int :=
  if isNeg fmt w then - (magUnits fmt (magOf fmt w) : Int) else (magUnits fmt (magOf fmt w) : Int)

/-- `n / d` to the nearest whole number, ties to even. -/
def divNearestEven (n d : Nat) : Nat :=
  let q := n / d
  let r := n % d
  if d < 2 * r then q + 1
  else if 2 * r = d ∧ q % 2 = 1 then q + 1
  else q

/-- The magnitude nearest to `num / den` units, ties to even; too large a value gives infinity (R140). With `k` the
exponent at which the quotient fills the significand, `k * 2^fracBits + m` is the magnitude of `m * 2^k` units, also
where rounding carries `m` into the next binade. -/
def roundMag (fmt : Fmt) (num den : Nat) : Nat :=
  let k := Nat.log2 (num / den) - fracBits fmt
  min (k * 2 ^ fracBits fmt + divNearestEven num (den * 2 ^ k)) (infMag fmt)

/-- The sum of two patterns; `none` where IEEE 754 makes it a NaN. An exact zero sum is +0, but (-0) + (-0) = -0. -/
def ieeeAdd (fmt : Fmt) (a b : Word) : Option Word :=
  if isNaN fmt a || isNaN fmt b then none
  else if isInf fmt a then
    if isInf fmt b && (isNeg fmt a != isNeg fmt b) then none else some (packFp fmt (isNeg fmt a) (infMag fmt))
  else if isInf fmt b then some (packFp fmt (isNeg fmt b) (infMag fmt))
  else
    let z := valueUnits fmt a + valueUnits fmt b
    if z = 0 then some (packFp fmt (isNeg fmt a && isNeg fmt b) 0)
    else some (packFp fmt (decide (z < 0)) (roundMag fmt z.natAbs 1))

/-- The pattern with its sign bit flipped. -/
def negFp (fmt : Fmt) (w : Word) : Word :=
  packFp fmt (!isNeg fmt w) (magOf fmt w)

/-- The first operand minus the second (R144). -/
def ieeeSub (fmt : Fmt) (a b : Word) : Option Word :=
  ieeeAdd fmt a (negFp fmt b)

/-- The product; a zero or infinite product has the XOR of the signs (R145). -/
def ieeeMul (fmt : Fmt) (a b : Word) : Option Word :=
  let neg := isNeg fmt a != isNeg fmt b
  if isNaN fmt a || isNaN fmt b then none
  else if isInf fmt a || isInf fmt b then
    if isZero fmt a || isZero fmt b then none else some (packFp fmt neg (infMag fmt))
  else some (packFp fmt neg
    (roundMag fmt (magUnits fmt (magOf fmt a) * magUnits fmt (magOf fmt b)) (2 ^ oneExp fmt)))

/-- The quotient, the first operand over the second: a finite nonzero value or an infinity over a zero is an infinity,
a finite value over an infinity is a zero, signs by XOR (R146). -/
def ieeeDiv (fmt : Fmt) (a b : Word) : Option Word :=
  let neg := isNeg fmt a != isNeg fmt b
  if isNaN fmt a || isNaN fmt b then none
  else if isInf fmt a then
    if isInf fmt b then none else some (packFp fmt neg (infMag fmt))
  else if isInf fmt b then some (packFp fmt neg 0)
  else if isZero fmt b then
    if isZero fmt a then none else some (packFp fmt neg (infMag fmt))
  else some (packFp fmt neg
    (roundMag fmt (magUnits fmt (magOf fmt a) * 2 ^ oneExp fmt) (magUnits fmt (magOf fmt b))))

/-- `w` is a NaN pattern of FLEN bits. -/
def isNaNPattern (fmt : Fmt) (w : Word) : Bool :=
  lowFlen fmt w == w && isNaN fmt w

/-- `nan_result(op, a, b)` (R141): some NaN of the format that depends on its arguments alone. It is the free value
`Config.nanPattern` wherever that is a NaN pattern; where it is not, a NaN stands in for it, so that the result is
always a NaN and still every function into NaNs is possible (log entry 7). -/
def nanResult (fmt : Fmt) (op : Opcode) (a b : Word) : Word :=
  if isNaNPattern fmt (Config.nanPattern fmt op a b) then Config.nanPattern fmt op a b
  else packFp fmt false (infMag fmt + 1)

/-- `fadd(a, b)` (R11, R140, R141). -/
def fadd (fmt : Fmt) (a b : Word) : Word := (ieeeAdd fmt a b).getD (nanResult fmt .add a b)

/-- `fsub(a, b)`. -/
def fsub (fmt : Fmt) (a b : Word) : Word := (ieeeSub fmt a b).getD (nanResult fmt .sub a b)

/-- `fmul(a, b)`. -/
def fmul (fmt : Fmt) (a b : Word) : Word := (ieeeMul fmt a b).getD (nanResult fmt .mul a b)

/-- `fdiv(a, b)`. -/
def fdiv (fmt : Fmt) (a b : Word) : Word := (ieeeDiv fmt a b).getD (nanResult fmt .div a b)

end Sys2Proof.Machine
end

