-- ==== Sys2Proof/Machine/Components.lean ====
section
/-! DEFINITION. The parts the engine's state is made of, as plain data: operand slots, registers, reservation stations,
instruction status entries, the run state and the input ports (spec 10_state.md, 60_exceptions.md). -/

namespace Sys2Proof.Machine

/-- An operand slot (R10). A tag is a station id. `empty` is a free station's slot, and the second slot of every Load
and Store station (R27, R28). -/
inductive Slot where
  | empty
  | resolved (v : Word)
  | pending (tag : Nat)
  deriving DecidableEq, Repr

/-- One register with its alias-table entry (R22): the committed value and the pending producer's tag. -/
structure Reg where
  val : Word
  tag : Option Nat
  deriving DecidableEq, Repr

/-- One reservation station (R27). -/
structure Station where
  busy    : Bool
  op      : Option Opcode
  /-- The index of the owning instruction. -/
  inst    : Option Nat
  j       : Slot
  k       : Slot
  lat     : BitVec 8
  elapsed : BitVec 8
  deriving DecidableEq, Repr

/-- One entry of the instruction status table (R33). -/
structure ItEntry where
  issue    : Option Nat
  complete : Option Nat
  wb       : Option Nat
  station  : Option Nat
  deriving DecidableEq, Repr

/-- The fatal errors with the information each one records (R170 to R174). -/
inductive EngineError where
  /-- Code 1: the index of the illegal record and why it is illegal (R171). -/
  | invalidInstruction (index : Nat) (why : IllegalReason)
  /-- Code 2: the instruction index, the failing field and the register number found there (R172). -/
  | unknownRegister (index : Nat) (field : RegField) (reg : RegIdx)
  /-- Code 3: an internal invariant does not hold (R174); no state a run reaches raises it (log entry 13). -/
  | invariantViolation
  /-- Code 4: the host register number of the first failing configuration register (R173). -/
  | configError (register : Nat)
  deriving DecidableEq, Repr

/-- `RUN` (R35). -/
inductive RunState where
  | run
  | done
  | fault (e : EngineError)
  deriving DecidableEq, Repr

/-- The input ports (R37), as they stand at the next rising edge of `clk` (log entry 1). -/
structure Pins where
  rst       : Bool
  progWe    : Bool
  progAddr  : BitVec 16
  progWdata : Record
  hostAddr  : BitVec 20
  hostWe    : Bool
  hostWdata : Word
  deriving DecidableEq, Repr

/-- The program store's listed records: (instruction index, record) pairs, indices strictly rising, no record equal to
what an unlisted index reads as (R61, log entry 6). -/
abbrev ProgStore := List (Nat × Record)

end Sys2Proof.Machine
end

