-- ==== Sys2Proof/Machine/Store.lean ====
section
/-! DEFINITION. The program store, the only memory of the engine: 65536 records of 96 bits indexed by instruction index
(spec 20_memory.md R61 to R63, 10_state.md R37), kept as a sorted list of the records that differ from the blank one. -/

namespace Sys2Proof.Machine

/-- What an index nothing has written reads as. Power-on contents are unspecified (R203); zero is a DESIGN CHOICE
(log entry 6). -/
def blankRecord : Record := 0#96

/-- `ProgRead(n)` (R11, R62): the record at index n; no side effect. -/
def progRead (p : ProgStore) (n : Nat) : Record :=
  match p with
  | [] => blankRecord
  | (m, q) :: rest => if m = n then q else progRead rest n

/-- The host's write of one record (R37, R61), keeping the listed form: the blank record removes the entry. -/
def progWrite (p : ProgStore) (n : Nat) (r : Record) : ProgStore :=
  match p with
  | [] => if r = blankRecord then [] else [(n, r)]
  | (m, q) :: rest =>
    if m < n then (m, q) :: progWrite rest n r
    else if m = n then (if r = blankRecord then rest else (n, r) :: rest)
    else if r = blankRecord then (m, q) :: rest
    else (n, r) :: (m, q) :: rest

/-- The canonical form: indices strictly rising and below 2^16, no listed record equal to the blank one. -/
abbrev progWf (p : ProgStore) : Prop :=
  p.Pairwise (fun a b => a.1 < b.1) ∧ ∀ e ∈ p, e.1 < 65536 ∧ e.2 ≠ blankRecord

end Sys2Proof.Machine
end

