-- ==== Sys2Proof/Machine/Reset.lean ====
section
/-! DEFINITION. Reset: the reset value of every state element and the pre-run validation
(spec 70_reset_and_hazards.md R200, R201; 10_state.md R26, R28, R50; 60_exceptions.md R171, R173, R178). -/

namespace Sys2Proof.Machine

open Sys2Proof.Config

/-- `LAT[op]` (R6). -/
def latOf (cfg : Params) (op : Opcode) : BitVec 8 :=
  match op with
  | .add => cfg.lat.add
  | .sub => cfg.lat.sub
  | .mul => cfg.lat.mul
  | .div => cfg.lat.div
  | .load => cfg.lat.load
  | .store => cfg.lat.store

/-- `NSTA[cls]` (R6). -/
def nstaOf (cfg : Params) (cls : UnitClass) : Nat :=
  match cls with
  | .addSub => cfg.nsta.addSub.toNat
  | .mulDiv => cfg.nsta.mulDiv.toNat
  | .load => cfg.nsta.load.toNat
  | .store => cfg.nsta.store.toNat

/-- `NS`, the number of stations (R7). -/
def stationCount (cfg : Params) : Nat :=
  nstaOf cfg .addSub + nstaOf cfg .mulDiv + nstaOf cfg .load + nstaOf cfg .store

/-- The class of station s, fixed by its id: contiguous per class in the order AddSub, MulDiv, Load, Store (R26). -/
def classOf (cfg : Params) (s : Nat) : UnitClass :=
  if s < nstaOf cfg .addSub then .addSub
  else if s < nstaOf cfg .addSub + nstaOf cfg .mulDiv then .mulDiv
  else if s < nstaOf cfg .addSub + nstaOf cfg .mulDiv + nstaOf cfg .load then .load
  else .store

/-- `INIT[i]`, the field `[FLEN-1:0]` of `CFG_INIT[i]` (R6, R39); there are 256 such registers. Beyond them, where only an
illegal NREGS reaches, it is 0: DESIGN CHOICE (log entry 27). -/
def initVal (cfg : Params) (i : Nat) : Word :=
  lowFlen cfg.fmt (cfg.init.getD i 0#64)

/-- The fields of a free station (R28). -/
def freeStation : Station :=
  { busy := false, op := none, inst := none, j := .empty, k := .empty, lat := 0#8, elapsed := 0#8 }

/-- An instruction status entry with nothing set (R33). -/
def blankEntry : ItEntry :=
  { issue := none, complete := none, wb := none, station := none }

/-- `REG[i] <- (val := INIT[i], tag := none)` for i < NREGS (R200). -/
def initRegs (cfg : Params) : List Reg :=
  (List.range cfg.nregs.toNat).map fun i => { val := initVal cfg i, tag := none }

/-- `RS[s] <- free` for s < NS (R200). -/
def initStations (cfg : Params) : List Station :=
  List.replicate (stationCount cfg) freeStation

/-- `IT[n]` with every field unset for n < N (R200). -/
def initTable (cfg : Params) : List ItEntry :=
  List.replicate cfg.progLen.toNat blankEntry

/-- Each checked configuration register: its host register number and whether its value is in range (R6, R39), in
ascending number. `CFG_INIT` takes every value. -/
def configChecks (cfg : Params) : List (Nat × Bool) :=
  [ (0x10, decide (1 ≤ cfg.lat.add.toNat)),
    (0x11, decide (1 ≤ cfg.lat.sub.toNat)),
    (0x12, decide (1 ≤ cfg.lat.mul.toNat)),
    (0x13, decide (1 ≤ cfg.lat.div.toNat)),
    (0x14, decide (1 ≤ cfg.lat.load.toNat)),
    (0x15, decide (1 ≤ cfg.lat.store.toNat)),
    (0x18, decide (1 ≤ cfg.nsta.addSub.toNat)),
    (0x19, decide (1 ≤ cfg.nsta.mulDiv.toNat)),
    (0x1A, decide (1 ≤ cfg.nsta.load.toNat)),
    (0x1B, decide (1 ≤ cfg.nsta.store.toNat)),
    (0x1C, decide (1 ≤ cfg.nregs.toNat ∧ cfg.nregs.toNat ≤ 256)),
    (0x1D, decide (cfg.progLen.toNat ≤ 65535)) ]

/-- The first failing configuration register: the single ranges in ascending number, then `NS ≤ 256`, which is recorded
as `CFG_NSTA[3]` (R173, R201). -/
def firstConfigError (cfg : Params) : Option Nat :=
  match (configChecks cfg).find? (fun c => !c.2) with
  | some c => some c.1
  | none => if 256 < stationCount cfg then some 0x1B else none

/-- The lowest-numbered illegal record among `PROG[0..N-1]` and why it is illegal (R171). -/
def firstIllegal (cfg : Params) (prog : ProgStore) : Option (Nat × IllegalReason) :=
  (List.range cfg.progLen.toNat).findSome? fun n =>
    match decode cfg.fmt (progRead prog n) with
    | .invalid why => some (n, why)
    | .instr _ => none

/-- `validate(cfg, prog)`, the reset value of `RUN` (R178, R201). -/
def validate (cfg : Params) (prog : ProgStore) : RunState :=
  match firstConfigError cfg with
  | some register => .fault (.configError register)
  | none =>
    match firstIllegal cfg prog with
    | some (n, why) => .fault (.invalidInstruction n why)
    | none => if cfg.progLen.toNat = 0 then .done else .run

/-- What the configuration registers hold at power-on, which the spec leaves unspecified (R203): the spec's example
configuration EC (95_test_vectors.md, section 0) and no program. DESIGN CHOICE (log entries 3, 4, 5). -/
def powerOnConfig : Params :=
  { fmt := .binary64
    lat := { add := 2#8, sub := 2#8, mul := 3#8, div := 4#8, load := 1#8, store := 1#8 }
    nsta := { addSub := 2#9, mulDiv := 2#9, load := 2#9, store := 2#9 }
    nregs := 8#9
    progLen := 0#17
    init := ((Vector.replicate 256 0#64).set 0 0x4018000000000000#64).set 2 0x400C000000000000#64
    names := [] }

/-- Input ports at rest: reset released, no write. DESIGN CHOICE (log entry 18). -/
def idlePins : Pins :=
  { rst := false, progWe := false, progAddr := 0#16, progWdata := 0#96,
    hostAddr := 0#20, hostWe := false, hostWdata := 0#64 }

end Sys2Proof.Machine
end

