-- ==== Sys2Proof/Machine/State.lean ====
section
/-! DEFINITION. The engine's whole state as plain data (spec 10_state.md), its reset value, and why a step can stop. -/

namespace Sys2Proof.Machine

open Sys2Proof.Config

/-- Everything the spec gives the machine: the configuration and program the host loaded (R6, R61), the cycle state of
R20 to R35, and the input ports (R37). -/
structure State where
  /-- The configuration registers and parameters (R6, R39). -/
  cfg      : Params
  /-- The program store (R61). -/
  prog     : ProgStore
  /-- `CYCLE` (R20). -/
  cycle    : Nat
  /-- `CURSOR` (R21). -/
  cursor   : Nat
  /-- `REG`, the register file with its alias table (R22). -/
  regs     : List Reg
  /-- `RS`, the reservation stations by id (R26, R27). -/
  stations : List Station
  /-- `CDB_Q`, the result-bus latch (R31). -/
  cdbQ     : Option Nat
  /-- `IT`, the instruction status table (R33). -/
  table    : List ItEntry
  /-- `RUN` (R35). -/
  run      : RunState
  /-- The input ports (R37). -/
  pins     : Pins
  deriving DecidableEq, Repr

/-- Why a step stops with a fault: never. Every error the spec names is a state, `RUN = FAULT(code, info)`, in which
later clock edges change nothing (R103, R176), so this type has no constructor (log entry 21). -/
inductive Fault where
  deriving DecidableEq, Repr

/-- Why a step is refused. -/
inductive Refusal where
  /-- Raised by an arm of `exec` whose instruction has no meaning yet. No arm raises it: all six have theirs. Safe: the
  model would stop where the hardware goes on. -/
  | notModelled (mnemonic : String)
  deriving DecidableEq, Repr

/-- `init(cfg, prog)` (R200): the state that reset leaves, for the configuration and program loaded then. -/
def State.init (cfg : Params) (prog : ProgStore) (pins : Pins) : State :=
  { cfg := cfg
    prog := prog
    cycle := 1
    cursor := 0
    regs := initRegs cfg
    stations := initStations cfg
    cdbQ := none
    table := initTable cfg
    run := validate cfg prog
    pins := pins }

/-- The machine right after reset: `init` of the power-on configuration and of an empty program store, reset released
and no port write (R50, log entries 4, 5, 6, 18). No program is loaded, so `RUN = DONE` (R129). -/
def State.reset : State := State.init powerOnConfig [] idlePins

end Sys2Proof.Machine
end

