-- ==== Sys2Proof/Machine/Ops.lean ====
section
/-! DEFINITION. The named operations over registers, stations, the status table and RUN (spec 10_state.md R23,
40_engine_cycle.md §2 to §5, 60_exceptions.md R176). Raising a fatal error is the engine's only "exception entry";
there is no return from one (R179): only reset leaves FAULT. -/

namespace Sys2Proof.Machine

open Sys2Proof.Config

/-! ### Fatal errors -/

/-- `raise E(info)` (R176): `RUN <- FAULT(code(E), info)`, nothing else. -/
def raiseError (s : State) (e : EngineError) : State :=
  { s with run := .fault e }

/-! ### Slots -/

/-- The slot waits for a broadcast. -/
def Slot.isPending (x : Slot) : Bool :=
  match x with
  | .empty => false
  | .resolved _ => false
  | .pending _ => true

/-- `onBroadcast` on one slot: `Pending(w)` becomes `Resolved(v)`, every other slot stays (R122). -/
def Slot.receive (w : Nat) (v : Word) (x : Slot) : Slot :=
  match x with
  | .empty => .empty
  | .resolved u => .resolved u
  | .pending t => if t = w then .resolved v else .pending t

/-! ### Register file and alias table -/

/-- `capture(r)` (R107): the register's value if it has no tag, else its tag. A register the file does not hold gives
`Empty`: issue raises before it captures such a one (R111, log entry 15). -/
def capture (regs : List Reg) (r : RegIdx) : Slot :=
  match regs[r.toNat]? with
  | none => .empty
  | some reg =>
    match reg.tag with
    | none => .resolved reg.val
    | some t => .pending t

/-- `rename(rd, t)` (R108): the tag is overwritten, whatever stood there; the value stays. -/
def renameReg (regs : List Reg) (rd : RegIdx) (t : Nat) : List Reg :=
  regs.modify rd.toNat fun reg => { reg with tag := some t }

/-- `resolve(w, v)` (R121): every register still tagged `w` takes the value and loses the tag. -/
def resolveRegs (regs : List Reg) (w : Nat) (v : Word) : List Reg :=
  regs.map fun reg => if reg.tag = some w then { val := v, tag := none } else reg

/-! ### Reservation stations -/

/-- A busy station without a `Pending` slot is execution-ready (R115). -/
def Station.ready (st : Station) : Bool :=
  st.busy && !st.j.isPending && !st.k.isPending

/-- `complete(s)` (R116). -/
def Station.isComplete (st : Station) : Bool :=
  st.busy && st.elapsed == st.lat

/-- `tick(s)` (R113): one more elapsed cycle, saturating at the latency. -/
def Station.tick (st : Station) : Station :=
  { st with elapsed := BitVec.ofNat 8 (min (st.elapsed.toNat + 1) st.lat.toNat) }

/-- `onBroadcast` on one station: a busy one takes the value in every slot that waits for `w` (R122). -/
def Station.receive (w : Nat) (v : Word) (st : Station) : Station :=
  if st.busy then { st with j := st.j.receive w v, k := st.k.receive w v } else st

/-- `onBroadcast(w, v)` against every pool (R122). -/
def broadcast (stations : List Station) (w : Nat) (v : Word) : List Station :=
  stations.map (Station.receive w v)

/-- `release(w)` (R124): the free values of R28. -/
def releaseStation (stations : List Station) (w : Nat) : List Station :=
  stations.set w freeStation

/-- `allocate(cls)` (R105): the smallest id of the class whose station is not busy. -/
def allocate (cfg : Params) (stations : List Station) (cls : UnitClass) : Option Nat :=
  (List.range stations.length).find? fun s =>
    classOf cfg s == cls && (stations[s]?.any fun st => !st.busy)

/-- `arbitrate()` (R101, R119): the smallest id of a complete station. -/
def arbitrate (stations : List Station) : Option Nat :=
  stations.findIdx? Station.isComplete

/-! ### Instruction status table -/

/-- The issue stamp (R108): the cycle and the station. -/
def stampIssue (table : List ItEntry) (n c t : Nat) : List ItEntry :=
  table.modify n fun e => { e with issue := some c, station := some t }

/-- The write-back stamp, if still unset (R123). -/
def stampWb (table : List ItEntry) (n c : Nat) : List ItEntry :=
  table.modify n fun e => if e.wb = none then { e with wb := some c } else e

end Sys2Proof.Machine
end

