-- ==== Sys2Proof/Machine/Operands.lean ====
section
/-! DEFINITION. Operand forms and the issue commit all six instructions share: which register fields a record uses and in
which order they are checked (spec 40_engine_cycle.md R111), the station an issuing instruction fills, and the state
after its issue (R108, R109, 60_exceptions.md R172). -/

namespace Sys2Proof.Machine

open Sys2Proof.Config

/-- The first used register field that names a register at or above NREGS, in the order given (R111). -/
def firstUnknown (nregs : Nat) (fields : List (RegField × RegIdx)) : Option (RegField × RegIdx) :=
  fields.find? fun f => decide (nregs ≤ f.2.toNat)

/-- The fields of format R: `rd`, `rs1`, `rs2` (R81). -/
def fieldsR (rd rs1 rs2 : RegIdx) : List (RegField × RegIdx) :=
  [(.rd, rd), (.rs1, rs1), (.rs2, rs2)]

/-- The fields of format I: `rd` (R83). -/
def fieldsI (rd : RegIdx) : List (RegField × RegIdx) :=
  [(.rd, rd)]

/-- The fields of format S: `rd`, `rs1` (R82). -/
def fieldsS (rd rs1 : RegIdx) : List (RegField × RegIdx) :=
  [(.rd, rd), (.rs1, rs1)]

/-- The station that an issuing instruction fills (R101, R108). -/
def issuedStation (cfg : Params) (op : Opcode) (n : Nat) (j k : Slot) : Station :=
  { busy := true, op := some op, inst := some n, j := j, k := k, lat := latOf cfg op, elapsed := 0#8 }

/-- The issue commit of R108 into station `t`: the station is filled with the operands already captured, then the
destination is renamed, the instruction stamped and the cursor advanced. -/
def commitIssue (op : Opcode) (rd : RegIdx) (j k : Slot) (t : Nat) (s : State) : State :=
  { s with
    stations := s.stations.set t (issuedStation s.cfg op s.cursor j k)
    regs := renameReg s.regs rd t
    table := stampIssue s.table s.cursor s.cycle t
    cursor := s.cursor + 1 }

/-- Phase 2 for the instruction at the cursor: no free station of its class leaves everything as it is (R109); with a
station, an unknown register raises (R111); otherwise the instruction issues (R108). -/
def issueInto (op : Opcode) (fields : List (RegField × RegIdx)) (rd : RegIdx) (j k : Slot) (s : State) :
    Host.Outcome State Fault Refusal :=
  match allocate s.cfg s.stations op.unit with
  | none => .next s
  | some t =>
    match firstUnknown s.cfg.nregs.toNat fields with
    | some (field, r) => .next (raiseError s (.unknownRegister s.cursor field r))
    | none => .next (commitIssue op rd j k t s)

end Sys2Proof.Machine
end

