-- ==== Sys2Proof/Machine/Arithmetic.lean ====
section
/-! DEFINITION. ADD, SUB, MUL and DIV (spec 41_arithmetic.md R142 to R146). Each instruction has two halves: what it does
when it issues (`exec…`, on the state phase 1 has left), and what `compute` returns for its station at write-back
(`compute…`, R125). -/

namespace Sys2Proof.Machine

/-- ADD at issue (R143): `j <- capture(rs1)`, `k <- capture(rs2)`. -/
def execAdd (rd rs1 rs2 : RegIdx) (s : State) : Host.Outcome State Fault Refusal :=
  issueInto .add (fieldsR rd rs1 rs2) rd (capture s.regs rs1) (capture s.regs rs2) s

/-- ADD at write-back (R143): `fadd(a, b)`. -/
def computeAdd (fmt : Fmt) (a b : Word) : Word := fadd fmt a b

/-- SUB at issue (R144). -/
def execSub (rd rs1 rs2 : RegIdx) (s : State) : Host.Outcome State Fault Refusal :=
  issueInto .sub (fieldsR rd rs1 rs2) rd (capture s.regs rs1) (capture s.regs rs2) s

/-- SUB at write-back (R144): `fsub(a, b)`. -/
def computeSub (fmt : Fmt) (a b : Word) : Word := fsub fmt a b

/-- MUL at issue (R145). -/
def execMul (rd rs1 rs2 : RegIdx) (s : State) : Host.Outcome State Fault Refusal :=
  issueInto .mul (fieldsR rd rs1 rs2) rd (capture s.regs rs1) (capture s.regs rs2) s

/-- MUL at write-back (R145): `fmul(a, b)`. -/
def computeMul (fmt : Fmt) (a b : Word) : Word := fmul fmt a b

/-- DIV at issue (R146). -/
def execDiv (rd rs1 rs2 : RegIdx) (s : State) : Host.Outcome State Fault Refusal :=
  issueInto .div (fieldsR rd rs1 rs2) rd (capture s.regs rs1) (capture s.regs rs2) s

/-- DIV at write-back (R146): `fdiv(a, b)`; division by zero is data, not an error. -/
def computeDiv (fmt : Fmt) (a b : Word) : Word := fdiv fmt a b

end Sys2Proof.Machine
end

