-- ==== Sys2Proof/Machine/LoadStore.lean ====
section
/-! DEFINITION. LOAD and STORE (spec 42_load_store.md R160 to R162): they form no address and touch no memory. As in
Arithmetic.lean, one half at issue and one at write-back. -/

namespace Sys2Proof.Machine

/-- LOAD at issue (R160): `j <- Resolved(imm)`, `k <- Empty`; no register is read. -/
def execLoad (rd : RegIdx) (imm : Word) (s : State) : Host.Outcome State Fault Refusal :=
  issueInto .load (fieldsI rd) rd (.resolved imm) .empty s

/-- LOAD at write-back (R160): the immediate bit pattern, unchanged, NaN payloads included. -/
def computeLoad (a : Word) : Word := a

/-- STORE at issue (R161): `j <- capture(rs1)`, `k <- Empty`; `rd` is renamed like any destination. -/
def execStore (rd rs1 : RegIdx) (s : State) : Host.Outcome State Fault Refusal :=
  issueInto .store (fieldsS rd rs1) rd (capture s.regs rs1) .empty s

/-- STORE at write-back (R161): the captured value, unchanged. -/
def computeStore (a : Word) : Word := a

end Sys2Proof.Machine
end

