-- ==== Sys2Proof/Machine/Flags.lean ====
section
/-! DEFINITION. The engine has no flags, condition codes or predicates, and no instruction sets or reads one (spec
10_state.md R36, 41_arithmetic.md R141). What a run shows instead are the level outputs `done` and `fault` (R37, R180)
and the derived states of stations and instructions (R30, R34). -/

namespace Sys2Proof.Machine

/-- The output `done`: 1 iff `RUN = DONE` (R37). -/
def doneOut (s : State) : Bool :=
  match s.run with
  | .run => false
  | .done => true
  | .fault _ => false

/-- The output `fault`: 1 iff `RUN = FAULT` (R37). -/
def faultOut (s : State) : Bool :=
  match s.run with
  | .run => false
  | .done => false
  | .fault _ => true

/-- The states of a station (R30). -/
inductive StationPhase where
  | free
  | waitingOperands
  | executing
  | completed
  deriving DecidableEq, Repr

/-- The state of a station, derived from its fields (R30). -/
def Station.phase (st : Station) : StationPhase :=
  if !st.busy then .free
  else if !st.ready then .waitingOperands
  else if st.elapsed = st.lat then .completed
  else .executing

/-- The states of an instruction (R34). -/
inductive InstrPhase where
  | waiting
  | issued
  | executing
  | completed
  | writtenBack
  deriving DecidableEq, Repr

/-- The state of instruction `n`, derived from its status entry and its station (R34). -/
def instrPhase (s : State) (n : Nat) : InstrPhase :=
  match s.table[n]? with
  | none => .waiting
  | some e =>
    if e.wb ≠ none then .writtenBack
    else if e.complete ≠ none then .completed
    else if e.issue = none then .waiting
    else
      match e.station.bind fun t => s.stations[t]? with
      | none => .issued
      | some st => if st.ready then .executing else .issued

/-- Every instruction has a set write-back cycle, the end of the run (R128). -/
def allWrittenBack (table : List ItEntry) : Bool :=
  table.all fun e => e.wb.isSome

end Sys2Proof.Machine
end

