-- ==== Sys2Proof/Machine/Execute.lean ====
section
/-! DEFINITION. Phases 3 and 4 (spec 40_engine_cycle.md R101, R113 to R120, R128): the execute and complete scan, the
arbitration for the next cycle's bus, the cycle counter and the end of the run. -/

namespace Sys2Proof.Machine

/-- `eligible(s)` (R101, R114): at the start of the cycle, with stations `before` and winner `w`, station `s` was busy
with no `Pending` slot, and it is not the station that wrote back in phase 1. -/
def eligible (before : List Station) (w : Option Nat) (s : Nat) : Bool :=
  (before[s]?.any Station.ready) && w != some s

/-- The ticks of phase 3: every eligible station counts one cycle (R113, R114). -/
def tickStations (before : List Station) (w : Option Nat) (stations : List Station) : List Station :=
  stations.mapIdx fun s st => if eligible before w s then st.tick else st

/-- A tick of this phase has brought a station owned by instruction `n` to its latency; `after` are the stations with
their ticks done (R117). -/
def completesNow (before : List Station) (w : Option Nat) (after : List Station) (n : Nat) : Bool :=
  (List.range after.length).any fun s =>
    eligible before w s && (after[s]?.any fun st => st.inst == some n && st.elapsed == st.lat)

/-- The completion stamps of phase 3, each set at most once (R117). -/
def stampComplete (before : List Station) (w : Option Nat) (after : List Station) (c : Nat)
    (table : List ItEntry) : List ItEntry :=
  table.mapIdx fun n e =>
    if e.complete = none ∧ completesNow before w after n = true then { e with complete := some c } else e

/-- Phase 3, with `s0` the state at the start of the cycle: ticks, completion stamps, then the arbitration over the
counters as ticked (R118). -/
def executePhase (s0 s : State) : State :=
  let after := tickStations s0.stations s0.cdbQ s.stations
  { s with
    stations := after
    table := stampComplete s0.stations s0.cdbQ after s0.cycle s.table
    cdbQ := arbitrate after }

/-- Phase 4 (R20, R128): the counter advances, and the run is DONE when every instruction has written back. -/
def advancePhase (s : State) : State :=
  { s with
    cycle := s.cycle + 1
    run := if allWrittenBack s.table then .done else s.run }

end Sys2Proof.Machine
end

