-- ==== Sys2Proof/Machine/WriteBack.lean ====
section
/-! DEFINITION. Phase 1, write-back (spec 40_engine_cycle.md R101, R121 to R127): the winner latched in `CDB_Q` is
computed once and broadcast to every register and every station together. -/

namespace Sys2Proof.Machine

/-- The value in a slot, if it holds one. -/
def Slot.value (x : Slot) : Option Word :=
  match x with
  | .empty => none
  | .resolved v => some v
  | .pending _ => none

/-- `compute(s)` (R125): the opcode's function of the resolved operands, `j` alone for LOAD and STORE. `none` where the
spec's `compute` has no operands to work on, in no state that a run reaches (R29, R116; log entry 13). -/
def computeStation (fmt : Fmt) (st : Station) : Option Word :=
  match st.op with
  | none => none
  | some .add => st.j.value.bind fun a => st.k.value.map fun b => computeAdd fmt a b
  | some .sub => st.j.value.bind fun a => st.k.value.map fun b => computeSub fmt a b
  | some .mul => st.j.value.bind fun a => st.k.value.map fun b => computeMul fmt a b
  | some .div => st.j.value.bind fun a => st.k.value.map fun b => computeDiv fmt a b
  | some .load => st.j.value.map fun a => computeLoad a
  | some .store => st.j.value.map fun a => computeStore a

/-- The write-back stamp of a station's owning instruction (R123). -/
def stampOwner (table : List ItEntry) (inst : Option Nat) (c : Nat) : List ItEntry :=
  match inst with
  | none => table
  | some n => stampWb table n c

/-- The broadcast of value `v` by the winner `w`, whose station is `st`: registers resolved, slots filled, the station
released, the owning instruction stamped, the latch emptied (R101, R126). -/
def commitWriteBack (w : Nat) (st : Station) (v : Word) (s : State) : State :=
  { s with
    regs := resolveRegs s.regs w v
    stations := releaseStation (broadcast s.stations w v) w
    table := stampOwner s.table st.inst s.cycle
    cdbQ := none }

/-- Phase 1. `none` says that the latch names a station whose result cannot be computed, an InvariantViolation (R174,
log entry 13). -/
def writeBack (s : State) : Option State :=
  match s.cdbQ with
  | none => some s
  | some w =>
    match s.stations[w]? with
    | none => none
    | some st => (computeStation s.cfg.fmt st).map fun v => commitWriteBack w st v s

end Sys2Proof.Machine
end

