-- ==== Sys2Proof/Machine/Cycle.lean ====
section
/-! DEFINITION. One cycle of the engine, the cycle function of spec 40_engine_cycle.md R101: write-back, issue,
execute/complete, advance. A fatal error in phase 2 discards the whole cycle and leaves only RUN changed (R111, R177). -/

namespace Sys2Proof.Machine

/-- The instruction at the cursor, as issue reads it (R62, R90, R106). -/
def fetch (s : State) : Decoded :=
  decode s.cfg.fmt (progRead s.prog s.cursor)

/-- Phase 2 on the state that phase 1 left (R106): only the instruction at the cursor is considered. Validation has
refused every illegal record before the run (R201); should one stand at the cursor all the same, which no run reaches,
the same error is raised here (log entry 14). -/
def issuePhase (s : State) : Host.Outcome State Fault Refusal :=
  if s.cursor < s.cfg.progLen.toNat then
    match fetch s with
    | .instr i => exec i s
    | .invalid why => .next (raiseError s (.invalidInstruction s.cursor why))
  else .next s

/-- The end of a cycle that began in `s0`, after phase 2 left `s`: a fatal error keeps nothing of the cycle but itself
(R111); otherwise phases 3 and 4 run. -/
def finishCycle (s0 s : State) : State :=
  match s.run with
  | .fault e => raiseError s0 e
  | .run => advancePhase (executePhase s0 s)
  | .done => advancePhase (executePhase s0 s)

/-- One cycle (R100, R101). -/
def cycle (s : State) : Host.Outcome State Fault Refusal :=
  match writeBack s with
  | none => .next (raiseError s .invariantViolation)
  | some s1 =>
    match issuePhase s1 with
    | .next s2 => .next (finishCycle s s2)
    | .fault f => .fault f
    | .refused r => .refused r

end Sys2Proof.Machine
end

