-- ==== Sys2Proof/Machine/HostPort.lean ====
section
/-! DEFINITION. The host's side (spec 10_state.md R37 to R44): the register map, what a read of each register gives, the
writes that are honoured while `rst = 1`, and the clock edge with `rst = 1` (70_reset_and_hazards.md R200, R202). -/

namespace Sys2Proof.Machine

open Sys2Proof.Config

/-- The host registers (R39). `unused` is every number the map does not define. -/
inductive HostReg where
  | status
  | cycle
  | cursor
  | cdbQ
  | cfgLat (op : Opcode)
  | cfgNsta (cls : UnitClass)
  | cfgNregs
  | cfgProgLen
  | cfgInit (i : BitVec 8)
  | regVal (i : BitVec 8)
  | regTag (i : BitVec 8)
  | rsCtl (s : BitVec 8)
  | rsSlots (s : BitVec 8)
  | rsJval (s : BitVec 8)
  | rsKval (s : BitVec 8)
  | itIssue (n : BitVec 16)
  | itComplete (n : BitVec 16)
  | itWb (n : BitVec 16)
  | itStation (n : BitVec 16)
  | unused
  deriving DecidableEq, Repr

/-- The single registers and the two configuration groups, below 0x20 (R39). -/
def lowHostReg (a : Nat) : HostReg :=
  match a with
  | 0x00 => .status
  | 0x01 => .cycle
  | 0x02 => .cursor
  | 0x03 => .cdbQ
  | 0x10 => .cfgLat .add
  | 0x11 => .cfgLat .sub
  | 0x12 => .cfgLat .mul
  | 0x13 => .cfgLat .div
  | 0x14 => .cfgLat .load
  | 0x15 => .cfgLat .store
  | 0x18 => .cfgNsta .addSub
  | 0x19 => .cfgNsta .mulDiv
  | 0x1A => .cfgNsta .load
  | 0x1B => .cfgNsta .store
  | 0x1C => .cfgNregs
  | 0x1D => .cfgProgLen
  | _ => .unused

/-- The register with this number (R39): an 8-bit index in the blocks of 0x100 numbers, a 16-bit one in those of
0x10000. -/
def hostRegOf (addr : BitVec 20) : HostReg :=
  let a := addr.toNat
  let i := BitVec.ofNat 8 a
  let n := BitVec.ofNat 16 a
  match a / 0x10000 with
  | 0 =>
    match a / 0x100 with
    | 0 => lowHostReg a
    | 1 => .cfgInit i
    | 2 => .regVal i
    | 3 => .regTag i
    | 4 => .rsCtl i
    | 5 => .rsSlots i
    | 6 => .rsJval i
    | 7 => .rsKval i
    | _ => .unused
  | 1 => .itIssue n
  | 2 => .itComplete n
  | 3 => .itWb n
  | 4 => .itStation n
  | _ => .unused

/-! ### Field layouts -/

/-- A natural as a field of `width` bits at bit `lo` of a 64-bit register. -/
def field (v width lo : Nat) : Word :=
  BitVec.ofNat 64 (v % 2 ^ width * 2 ^ lo)

/-- One bit at bit `lo`. -/
def bit (b : Bool) (lo : Nat) : Word :=
  field b.toNat 1 lo

/-- An optional tag: `[8]` set, `[7:0]` the tag, 0 when none (R39). -/
def tagView (t : Option Nat) : Word :=
  match t with
  | none => 0#64
  | some t => bit true 8 ||| field t 8 0

/-- An optional time stamp: `[63]` set, `[62:0]` the cycle (R39). -/
def stampView (c : Option Nat) : Word :=
  match c with
  | none => 0#64
  | some c => bit true 63 ||| field c 63 0

/-- The error code (R170). -/
def errorCode (e : EngineError) : Nat :=
  match e with
  | .invalidInstruction _ _ => 1
  | .unknownRegister _ _ _ => 2
  | .invariantViolation => 3
  | .configError _ => 4

/-- The fault index, `STATUS[31:16]` (R171 to R173). -/
def errorIndex (e : EngineError) : Nat :=
  match e with
  | .invalidInstruction n _ => n
  | .unknownRegister n _ _ => n
  | .invariantViolation => 0
  | .configError register => register

/-- The detail code of an illegal record (R86). -/
def illegalDetail (why : IllegalReason) : Nat :=
  match why with
  | .unknownOpcode => 1
  | .reservedNonzero => 2

/-- The detail code of a register field (R172). -/
def fieldDetail (f : RegField) : Nat :=
  match f with
  | .rd => 1
  | .rs1 => 2
  | .rs2 => 3

/-- The fault detail, `STATUS[39:32]` (R171 to R173). -/
def errorDetail (e : EngineError) : Nat :=
  match e with
  | .invalidInstruction _ why => illegalDetail why
  | .unknownRegister _ f _ => fieldDetail f
  | .invariantViolation => 0
  | .configError _ => 0

/-- The fault register index, `STATUS[47:40]` (R172). -/
def errorReg (e : EngineError) : Nat :=
  match e with
  | .invalidInstruction _ _ => 0
  | .unknownRegister _ _ r => r.toNat
  | .invariantViolation => 0
  | .configError _ => 0

/-- `STATUS` (R39). -/
def statusView (r : RunState) : Word :=
  match r with
  | .run => 0#64
  | .done => field 1 2 0
  | .fault e =>
    field 2 2 0 ||| field (errorCode e) 4 4 ||| field (errorIndex e) 16 16 |||
      field (errorDetail e) 8 32 ||| field (errorReg e) 8 40

/-- The class code of `CFG_NSTA` and `RS_CTL` (R39). -/
def classCode (cls : UnitClass) : Nat :=
  match cls with
  | .addSub => 0
  | .mulDiv => 1
  | .load => 2
  | .store => 3

/-- The op code field of `RS_CTL`: 7 when the station has none (R39). -/
def opView (op : Option Opcode) : Nat :=
  match op with
  | none => 7
  | some op => op.code.toNat

/-- `RS_CTL[s]` (R39). -/
def ctlView (cls : UnitClass) (st : Station) : Word :=
  bit st.busy 0 ||| field (classCode cls) 2 1 ||| field (opView st.op) 3 4 ||| bit st.inst.isSome 7 |||
    field (st.inst.getD 0) 16 8 ||| field st.lat.toNat 8 24 ||| field st.elapsed.toNat 8 32

/-- The kind code of a slot (R39). -/
def slotKind (x : Slot) : Nat :=
  match x with
  | .empty => 0
  | .resolved _ => 1
  | .pending _ => 2

/-- The tag of a slot when `Pending`, else 0 (R39). -/
def slotTag (x : Slot) : Nat :=
  match x with
  | .empty => 0
  | .resolved _ => 0
  | .pending t => t

/-- `RS_SLOTS[s]` (R39). -/
def slotsView (st : Station) : Word :=
  field (slotKind st.j) 2 0 ||| field (slotTag st.j) 8 8 ||| field (slotKind st.k) 2 16 ||| field (slotTag st.k) 8 24

/-- `RS_JVAL[s]` and `RS_KVAL[s]`: the value of a slot when `Resolved`, else 0 (R39). -/
def slotVal (x : Slot) : Word :=
  match x with
  | .empty => 0#64
  | .resolved v => v
  | .pending _ => 0#64

/-! ### Reads -/

/-- The value of a host register in the state after the last committed edge (R38, R39, R41): unused numbers, and
numbers whose index is beyond the configured size, read 0. -/
def hostRegValue (s : State) (r : HostReg) : Word :=
  match r with
  | .status => statusView s.run
  | .cycle => BitVec.ofNat 64 (min s.cycle (2 ^ 64 - 1))
  | .cursor => field s.cursor 16 0
  | .cdbQ => tagView s.cdbQ
  | .cfgLat op => field (latOf s.cfg op).toNat 8 0
  | .cfgNsta cls => field (nstaOf s.cfg cls) 9 0
  | .cfgNregs => field s.cfg.nregs.toNat 9 0
  | .cfgProgLen => field s.cfg.progLen.toNat 17 0
  | .cfgInit i => if i.toNat < s.cfg.nregs.toNat then initVal s.cfg i.toNat else 0#64
  | .regVal i => ((s.regs[i.toNat]?).map fun reg => lowFlen s.cfg.fmt reg.val).getD 0#64
  | .regTag i => ((s.regs[i.toNat]?).map fun reg => tagView reg.tag).getD 0#64
  | .rsCtl i => ((s.stations[i.toNat]?).map fun st => ctlView (classOf s.cfg i.toNat) st).getD 0#64
  | .rsSlots i => ((s.stations[i.toNat]?).map slotsView).getD 0#64
  | .rsJval i => ((s.stations[i.toNat]?).map fun st => lowFlen s.cfg.fmt (slotVal st.j)).getD 0#64
  | .rsKval i => ((s.stations[i.toNat]?).map fun st => lowFlen s.cfg.fmt (slotVal st.k)).getD 0#64
  | .itIssue n => ((s.table[n.toNat]?).map fun e => stampView e.issue).getD 0#64
  | .itComplete n => ((s.table[n.toNat]?).map fun e => stampView e.complete).getD 0#64
  | .itWb n => ((s.table[n.toNat]?).map fun e => stampView e.wb).getD 0#64
  | .itStation n => ((s.table[n.toNat]?).map fun e => tagView e.station).getD 0#64
  | .unused => 0#64

/-- A host read of register number `addr` (R38, R39): no side effect (R68). -/
def hostRead (s : State) (addr : BitVec 20) : Word :=
  hostRegValue s (hostRegOf addr)

/-- The output `host_rdata` (R37). -/
def hostRdata (s : State) : Word :=
  hostRead s s.pins.hostAddr

/-! ### Writes while `rst = 1` -/

/-- `CFG_LAT[op] <- v`. -/
def setLat (lat : Latencies) (op : Opcode) (v : BitVec 8) : Latencies :=
  match op with
  | .add => { lat with add := v }
  | .sub => { lat with sub := v }
  | .mul => { lat with mul := v }
  | .div => { lat with div := v }
  | .load => { lat with load := v }
  | .store => { lat with store := v }

/-- `CFG_NSTA[cls] <- v`. -/
def setNsta (nsta : StationCounts) (cls : UnitClass) (v : BitVec 9) : StationCounts :=
  match cls with
  | .addSub => { nsta with addSub := v }
  | .mulDiv => { nsta with mulDiv := v }
  | .load => { nsta with load := v }
  | .store => { nsta with store := v }

/-- A host write of a register (R38, R39): a CFG register takes its field's bits of the data (log entry 9), every other
one ignores the write. `CFG_INIT` takes all 256 indices, whatever NREGS is at the time (R202, log entry 10). -/
def writeHostReg (cfg : Params) (r : HostReg) (d : Word) : Params :=
  match r with
  | .cfgLat op => { cfg with lat := setLat cfg.lat op (d.extractLsb' 0 8) }
  | .cfgNsta cls => { cfg with nsta := setNsta cfg.nsta cls (d.extractLsb' 0 9) }
  | .cfgNregs => { cfg with nregs := d.extractLsb' 0 9 }
  | .cfgProgLen => { cfg with progLen := d.extractLsb' 0 17 }
  | .cfgInit i => { cfg with init := cfg.init.set i.toNat (lowFlen cfg.fmt d) i.isLt }
  | .status => cfg
  | .cycle => cfg
  | .cursor => cfg
  | .cdbQ => cfg
  | .regVal _ => cfg
  | .regTag _ => cfg
  | .rsCtl _ => cfg
  | .rsSlots _ => cfg
  | .rsJval _ => cfg
  | .rsKval _ => cfg
  | .itIssue _ => cfg
  | .itComplete _ => cfg
  | .itWb _ => cfg
  | .itStation _ => cfg
  | .unused => cfg

/-- The configuration after an edge with `rst = 1` and these input ports (R37, R40). -/
def loadConfig (cfg : Params) (pins : Pins) : Params :=
  if pins.hostWe then writeHostReg cfg (hostRegOf pins.hostAddr) pins.hostWdata else cfg

/-- The program store after an edge with `rst = 1` and these input ports (R37, R61). A write at an index at or above the
current N is kept: the host may write the length last (R202). DEDUCED (log entry 24). -/
def loadProgram (prog : ProgStore) (pins : Pins) : ProgStore :=
  if pins.progWe then progWrite prog pins.progAddr.toNat pins.progWdata else prog

/-- A rising edge with `rst = 1` (R103, R200): the writes at the ports land, and every other element takes its reset
value for the configuration and program as they then stand (log entry 8). -/
def resetEdge (s : State) : State :=
  State.init (loadConfig s.cfg s.pins) (loadProgram s.prog s.pins) s.pins

end Sys2Proof.Machine
end

