-- ==== Sys2Proof/Machine/Step.lean ====
section
/-! DEFINITION. One step of the machine: one rising edge of `clk` (spec 10_state.md R37, 40_engine_cycle.md R100, R103). -/

namespace Sys2Proof.Machine

/-- One rising edge of `clk` with the input ports as they stand (R37): `rst = 1` loads the reset state (R200); otherwise
one cycle runs while `RUN = RUN` (R100), and DONE and FAULT change nothing (R103). -/
def step (s : State) : Host.Outcome State Fault Refusal :=
  if s.pins.rst then .next (resetEdge s)
  else
    match s.run with
    | .run => cycle s
    | .done => .next s
    | .fault _ => .next s

/-- `s` with the low `nbits` bits of `w` as the record that the next step fetches. It stands for the load a host performs
in reset (R202): the record at the cursor, a program long enough to reach it, a status entry for it, reset released and
`RUN = RUN` (log entry 5). -/
def State.withFetchWord (s : State) (nbits w : Nat) : State :=
  { s with
    prog := progWrite s.prog s.cursor (BitVec.ofNat 96 (w % 2 ^ nbits))
    cfg := { s.cfg with progLen := BitVec.ofNat 17 (max s.cfg.progLen.toNat (s.cursor + 1)) }
    table := s.table ++ List.replicate (s.cursor + 1 - s.table.length) blankEntry
    run := .run
    pins := { s.pins with rst := false } }

end Sys2Proof.Machine
end

