-- ==== Sys2Proof/Safety.lean ====
section
/-! DEFINITION. What a good state of the engine is, in the terms the statements use: the invariants of registers,
stations, status table and latch (spec 10_state.md R25, R28, R29, R31, R33), the sequential execution that the
register values are compared with (20_memory.md R70), the work a run still has before it (40_engine_cycle.md R134),
what rounding to nearest even means (41_arithmetic.md R140), states that differ in values alone (00_scope.md R16), and
the host registers by their bits (10_state.md R39). -/

namespace Sys2Proof.Safety

open Sys2Proof.Config
open Sys2Proof.Machine

/-! ### Legal configurations -/

/-- Every parameter is in its range, and the stations fit an 8-bit tag (R6). -/
def LegalConfig (cfg : Params) : Prop :=
  (∀ op, 1 ≤ (latOf cfg op).toNat) ∧ (∀ cls, 1 ≤ nstaOf cfg cls) ∧ stationCount cfg ≤ 256 ∧
    1 ≤ cfg.nregs.toNat ∧ cfg.nregs.toNat ≤ 256 ∧ cfg.progLen.toNat ≤ 65535

/-- Every record of the program is one of the six instructions (R87). -/
def LegalProgram (cfg : Params) (prog : ProgStore) : Prop :=
  ∀ n, n < cfg.progLen.toNat → ∃ i, decode cfg.fmt (progRead prog n) = .instr i

/-! ### Elements by index; an index beyond the end reads as the reset element -/

/-- `RS[t]`. -/
def stationAt (s : State) (t : Nat) : Station := s.stations.getD t freeStation

/-- `IT[n]`. -/
def entryAt (s : State) (n : Nat) : ItEntry := s.table.getD n blankEntry

/-- `REG[i]`. -/
def regAt (s : State) (i : Nat) : Reg := s.regs.getD i { val := 0#64, tag := none }

/-! ### The program -/

/-- Instruction `n` of the program; `none` where its record is illegal. -/
def instrAt (cfg : Params) (prog : ProgStore) (n : Nat) : Option Instr :=
  match decode cfg.fmt (progRead prog n) with
  | .instr i => some i
  | .invalid _ => none

/-- The largest `n < c` with `PROG[n].rd = i` (R25). -/
def lastWriter (cfg : Params) (prog : ProgStore) (c i : Nat) : Option Nat :=
  match c with
  | 0 => none
  | c + 1 =>
    if (instrAt cfg prog c).any (fun x => x.rd.toNat == i) then some c else lastWriter cfg prog c i

/-! ### Coherence: the invariants of R25, R28, R29, R31 and R33 -/

/-- The slot holds an operand: a value or a tag (R29). -/
def Filled (x : Slot) : Prop := x ≠ .empty

/-- The slots of a busy station of instruction `i`: `k` is `Empty` for LOAD and STORE and filled otherwise, `j` is
always filled, and a LOAD's holds a value (R27, R29, R160). -/
def SlotsShaped (i : Instr) (st : Station) : Prop :=
  match i with
  | .add _ _ _ => Filled st.j ∧ Filled st.k
  | .sub _ _ _ => Filled st.j ∧ Filled st.k
  | .mul _ _ _ => Filled st.j ∧ Filled st.k
  | .div _ _ _ => Filled st.j ∧ Filled st.k
  | .load _ imm => st.j = .resolved imm ∧ st.k = .empty
  | .store _ _ => Filled st.j ∧ st.k = .empty

/-- The destination and the sources of an instruction name declared registers (R88, R111). -/
def RegistersDeclared (s : State) (i : Instr) : Prop :=
  i.rd.toNat < s.cfg.nregs.toNat ∧ ∀ r ∈ i.sources, r.toNat < s.cfg.nregs.toNat

/-- What a busy station `t` holds (R26, R27, R29): an issued instruction of its class that names declared registers
and has not written back, with its latency, an elapsed count within it that has only started when no operand is missing, and a completion stamp
exactly when the count is full (R117). -/
def BusyStation (s : State) (t : Nat) (st : Station) : Prop :=
  ∃ n i, st.inst = some n ∧ n < s.cursor ∧ instrAt s.cfg s.prog n = some i ∧
    RegistersDeclared s i ∧ st.op = some i.op ∧ classOf s.cfg t = i.op.unit ∧ st.lat = latOf s.cfg i.op ∧
    SlotsShaped i st ∧
    1 ≤ st.lat.toNat ∧ st.elapsed.toNat ≤ st.lat.toNat ∧ (st.elapsed ≠ 0#8 → st.ready = true) ∧
    (entryAt s n).station = some t ∧ (entryAt s n).wb = none ∧
    ((entryAt s n).complete ≠ none ↔ st.elapsed = st.lat)

/-- A tag that a slot of station `t` waits for names a busy station of an earlier instruction (R29). -/
def WaitsForEarlier (s : State) (st : Station) (x : Slot) : Prop :=
  ∀ u, x = .pending u → u < s.stations.length ∧ (stationAt s u).busy = true ∧
    ∃ m n, (stationAt s u).inst = some m ∧ st.inst = some n ∧ m < n

/-- The order of one entry's time stamps, all of them in the past (R33, R135). -/
def StampsOrdered (c : Nat) (e : ItEntry) : Prop :=
  (∀ a, e.issue = some a → a < c) ∧
  (∀ d, e.complete = some d → d < c ∧ ∃ a, e.issue = some a ∧ a < d) ∧
  (∀ d, e.wb = some d → d < c ∧ ∃ b, e.complete = some b ∧ b < d)

/-- The invariants of the engine that hold between any two cycles (R25, R29, R33, R130). -/
structure Coherent (s : State) : Prop where
  /-- One register per configured index (R22). -/
  regs_length : s.regs.length = s.cfg.nregs.toNat
  /-- One station per configured slot (R7, R26). -/
  stations_length : s.stations.length = stationCount s.cfg
  /-- One status entry per instruction (R33). -/
  table_length : s.table.length = s.cfg.progLen.toNat
  /-- The cursor stays within `0..N` (R21). -/
  cursor_le : s.cursor ≤ s.cfg.progLen.toNat
  /-- A running engine runs a configuration and a program that validation has passed (R201). -/
  validated : s.run = .run → validate s.cfg s.prog = .run
  /-- A running engine has an instruction that has not written back (R128). -/
  unfinished : s.run = .run → allWrittenBack s.table = false
  /-- A done engine has none (R35). -/
  finished : s.run = .done → allWrittenBack s.table = true
  /-- From the first issue to the end some instruction is in flight (R134). -/
  in_flight : s.run = .run → 0 < s.cursor → ∃ t, t < s.stations.length ∧ (stationAt s t).busy = true
  /-- A station that is not busy holds the free values (R28). -/
  free_station : ∀ t, t < s.stations.length → (stationAt s t).busy = false → stationAt s t = freeStation
  /-- A busy station holds an in-flight instruction (R29). -/
  busy_station : ∀ t, t < s.stations.length → (stationAt s t).busy = true → BusyStation s t (stationAt s t)
  /-- Tags in slots name busy stations of earlier instructions (R29). -/
  waits : ∀ t, t < s.stations.length → (stationAt s t).busy = true →
    WaitsForEarlier s (stationAt s t) (stationAt s t).j ∧ WaitsForEarlier s (stationAt s t) (stationAt s t).k
  /-- An issued instruction has an issue stamp and a station, which is still its own until it writes back (R33). -/
  issued_entry : ∀ n, n < s.cursor → (entryAt s n).issue ≠ none ∧ ∃ t, (entryAt s n).station = some t ∧
    ((entryAt s n).wb = none → t < s.stations.length ∧ (stationAt s t).busy = true ∧ (stationAt s t).inst = some n)
  /-- An instruction that has not issued has nothing set (R33). -/
  waiting_entry : ∀ n, s.cursor ≤ n → entryAt s n = blankEntry
  /-- `issue < complete < wb`, all before the cycle about to run (R33, R135). -/
  stamps : ∀ n, n < s.cursor → StampsOrdered s.cycle (entryAt s n)
  /-- A register's tag is the station of its last issued writer, exactly while that writer has not written back (R25). -/
  tags : ∀ i, i < s.regs.length → ∀ t, (regAt s i).tag = some t ↔
    ∃ n, lastWriter s.cfg s.prog s.cursor i = some n ∧ (entryAt s n).wb = none ∧ (entryAt s n).station = some t
  /-- The latch holds the smallest complete station (R31, R118). -/
  latch : s.cdbQ = arbitrate s.stations

/-! ### Values: agreement with sequential execution (R70) -/

/-- Register `r` in a list of register values. -/
def readWord (regs : List Word) (r : RegIdx) : Word := regs.getD r.toNat 0#64

/-- What one instruction computes when it is executed alone on register values (R143 to R146, R160, R161). -/
def seqResult (fmt : Fmt) (i : Instr) (regs : List Word) : Word :=
  match i with
  | .add _ rs1 rs2 => fadd fmt (readWord regs rs1) (readWord regs rs2)
  | .sub _ rs1 rs2 => fsub fmt (readWord regs rs1) (readWord regs rs2)
  | .mul _ rs1 rs2 => fmul fmt (readWord regs rs1) (readWord regs rs2)
  | .div _ rs1 rs2 => fdiv fmt (readWord regs rs1) (readWord regs rs2)
  | .load _ imm => imm
  | .store _ rs1 => readWord regs rs1

/-- The register values that sequential execution of `PROG[0..n-1]` from `INIT` leaves (R70). -/
def seqRegs (cfg : Params) (prog : ProgStore) (n : Nat) : List Word :=
  match n with
  | 0 => (List.range cfg.nregs.toNat).map (initVal cfg)
  | n + 1 =>
    match instrAt cfg prog n with
    | none => seqRegs cfg prog n
    | some i => (seqRegs cfg prog n).set i.rd.toNat (seqResult cfg.fmt i (seqRegs cfg prog n))

/-- A slot that captured register `r` for instruction `n` holds the value that `r` has sequentially before `n`, or waits
for the last writer of `r` before `n` (R70, R107). -/
def SlotFaithful (s : State) (n : Nat) (r : RegIdx) (x : Slot) : Prop :=
  match x with
  | .empty => False
  | .resolved v => v = readWord (seqRegs s.cfg s.prog n) r
  | .pending u => lastWriter s.cfg s.prog n r.toNat ≠ none ∧
      (stationAt s u).inst = lastWriter s.cfg s.prog n r.toNat

/-- The slots of a station that holds instruction `i` at index `n` agree with sequential execution. -/
def SlotsFaithful (s : State) (n : Nat) (i : Instr) (st : Station) : Prop :=
  match i with
  | .add _ rs1 rs2 => SlotFaithful s n rs1 st.j ∧ SlotFaithful s n rs2 st.k
  | .sub _ rs1 rs2 => SlotFaithful s n rs1 st.j ∧ SlotFaithful s n rs2 st.k
  | .mul _ rs1 rs2 => SlotFaithful s n rs1 st.j ∧ SlotFaithful s n rs2 st.k
  | .div _ rs1 rs2 => SlotFaithful s n rs1 st.j ∧ SlotFaithful s n rs2 st.k
  | .load _ imm => st.j = .resolved imm
  | .store _ rs1 => SlotFaithful s n rs1 st.j

/-- Every value the engine holds is the one sequential execution gives (R70): a register without a tag, and every
captured operand. -/
structure Faithful (s : State) : Prop where
  regs : ∀ i, i < s.regs.length → (regAt s i).tag = none →
    (regAt s i).val = (seqRegs s.cfg s.prog s.cursor).getD i 0#64
  slots : ∀ t, t < s.stations.length → (stationAt s t).busy = true → ∀ n i, (stationAt s t).inst = some n →
    instrAt s.cfg s.prog n = some i → SlotsFaithful s n i (stationAt s t)

/-! ### Values of the format (R10) -/

/-- The word is an FLEN-bit pattern. -/
def FitsFmt (fmt : Fmt) (w : Word) : Prop := lowFlen fmt w = w

/-- A slot's value, if it has one, is an FLEN-bit pattern. -/
def SlotFits (fmt : Fmt) (x : Slot) : Prop := ∀ v, x = .resolved v → FitsFmt fmt v

/-- Every value in registers and stations is an FLEN-bit pattern. -/
structure ValuesFit (s : State) : Prop where
  regs : ∀ reg ∈ s.regs, FitsFmt s.cfg.fmt reg.val
  slots : ∀ st ∈ s.stations, SlotFits s.cfg.fmt st.j ∧ SlotFits s.cfg.fmt st.k

/-! ### The work left in a run (R134) -/

/-- The latency of instruction `n`. -/
def latencyAt (cfg : Params) (prog : ProgStore) (n : Nat) : Nat :=
  match instrAt cfg prog n with
  | none => 0
  | some i => (latOf cfg i.op).toNat

/-- The cycles that instruction `n` still has to be charged: its latency and a write-back before it issues, the count
left and a write-back while it is in flight, none once it has written back. -/
def remaining (s : State) (n : Nat) : Nat :=
  if (entryAt s n).wb ≠ none then 0
  else
    match (entryAt s n).station with
    | none => latencyAt s.cfg s.prog n + 1
    | some t => (stationAt s t).lat.toNat - (stationAt s t).elapsed.toNat + 1

/-- The charges of all instructions, and one more for the cycle of the first issue. -/
def workLeft (s : State) : Nat :=
  (if s.cursor = 0 then 1 else 0) + ((List.range s.cfg.progLen.toNat).map (remaining s)).sum

/-- The bound of R134: `1 + Σ (LAT[PROG[n].op] + 1)`. -/
def cycleBound (cfg : Params) (prog : ProgStore) : Nat :=
  1 + ((List.range cfg.progLen.toNat).map fun n => latencyAt cfg prog n + 1).sum

/-! ### Issue -/

/-- `t` is the smallest id of class `cls` whose station is free (R105). -/
def FirstFree (s : State) (cls : UnitClass) (t : Nat) : Prop :=
  t < s.stations.length ∧ classOf s.cfg t = cls ∧ (stationAt s t).busy = false ∧
    ∀ u, u < t → classOf s.cfg u = cls → (stationAt s u).busy = true

/-- `operandJ(I)` on the register file that phase 1 left (R101, R142, R160, R161). -/
def operandJ (regs : List Reg) (i : Instr) : Slot :=
  match i with
  | .add _ rs1 _ => capture regs rs1
  | .sub _ rs1 _ => capture regs rs1
  | .mul _ rs1 _ => capture regs rs1
  | .div _ rs1 _ => capture regs rs1
  | .load _ imm => .resolved imm
  | .store _ rs1 => capture regs rs1

/-- `operandK(I)` (R101, R142, R160, R161). -/
def operandK (regs : List Reg) (i : Instr) : Slot :=
  match i with
  | .add _ _ rs2 => capture regs rs2
  | .sub _ _ rs2 => capture regs rs2
  | .mul _ _ rs2 => capture regs rs2
  | .div _ _ rs2 => capture regs rs2
  | .load _ _ => .empty
  | .store _ _ => .empty

/-- The register fields an instruction uses, in the order they are checked (R111). -/
def usedFields (i : Instr) : List (RegField × RegIdx) :=
  match i with
  | .add rd rs1 rs2 => [(.rd, rd), (.rs1, rs1), (.rs2, rs2)]
  | .sub rd rs1 rs2 => [(.rd, rd), (.rs1, rs1), (.rs2, rs2)]
  | .mul rd rs1 rs2 => [(.rd, rd), (.rs1, rs1), (.rs2, rs2)]
  | .div rd rs1 rs2 => [(.rd, rd), (.rs1, rs1), (.rs2, rs2)]
  | .load rd _ => [(.rd, rd)]
  | .store rd rs1 => [(.rd, rd), (.rs1, rs1)]

/-- The state of R108 after instruction `i`, with operands `j` and `k`, has issued into station `t`. -/
def issuedState (i : Instr) (j k : Slot) (t : Nat) (s : State) : State :=
  { s with
    stations := s.stations.set t
      { busy := true, op := some i.op, inst := some s.cursor, j := j, k := k, lat := latOf s.cfg i.op, elapsed := 0#8 }
    regs := s.regs.modify i.rd.toNat fun reg => { val := reg.val, tag := some t }
    table := s.table.modify s.cursor fun e =>
      { issue := some s.cycle, complete := e.complete, wb := e.wb, station := some t }
    cursor := s.cursor + 1 }

/-! ### Rounding (R140) -/

/-- The distance of the value `num / den` from magnitude `m`, times `den`, in units. Infinity counts as the power of two
after the largest finite value. -/
def roundingError (fmt : Fmt) (num den m : Nat) : Nat :=
  (Int.ofNat (magUnits fmt m * den) - Int.ofNat num).natAbs

/-- `m` is the magnitude nearest to `num / den` units, and of two nearest the even one (R140). -/
def NearestEven (fmt : Fmt) (num den m : Nat) : Prop :=
  m ≤ infMag fmt ∧ ∀ m', m' ≤ infMag fmt →
    roundingError fmt num den m ≤ roundingError fmt num den m' ∧
    (roundingError fmt num den m = roundingError fmt num den m' → m ≠ m' → m % 2 = 0)

/-- The pattern stands for a finite number. -/
def FiniteFp (fmt : Fmt) (w : Word) : Prop := magOf fmt w < infMag fmt

/-- `r` is the FLEN-bit pattern with sign `neg` and the magnitude nearest to `num / den` units. -/
def RoundsTo (fmt : Fmt) (neg : Bool) (num den : Nat) (r : Word) : Prop :=
  ∃ m, NearestEven fmt num den m ∧ r = packFp fmt neg m

/-! ### States that differ in values alone (R16) -/

/-- The slot with its value forgotten. -/
def eraseSlot (x : Slot) : Slot :=
  match x with
  | .empty => .empty
  | .resolved _ => .resolved 0#64
  | .pending t => .pending t

/-- The station with the values of its slots forgotten. -/
def eraseStation (st : Station) : Station :=
  { st with j := eraseSlot st.j, k := eraseSlot st.k }

/-- The state with every floating-point value forgotten: register values, slot values and the initial values. What is
left is the timeline: cycles, stamps, tags, stations, latch, run state. -/
def eraseValues (s : State) : State :=
  { s with
    cfg := { s.cfg with init := Vector.replicate 256 0#64 }
    regs := s.regs.map fun reg => { val := 0#64, tag := reg.tag }
    stations := s.stations.map eraseStation }

/-! ### Host registers, by the bits of R39 -/

/-- The word holds these fields, each a lowest bit, a width and a value cut to that width, and 0 in every bit outside
them (R38). -/
def FieldsAre (w : Word) (fields : List (Nat × Nat × Nat)) : Prop :=
  (∀ lo width v, (lo, width, v) ∈ fields → w.extractLsb' lo width = BitVec.ofNat width v) ∧
  ∀ b, (∀ lo width v, (lo, width, v) ∈ fields → b < lo ∨ lo + width ≤ b) → w.getLsbD b = false

/-- An optional station id: bit 8 says that there is one, bits 7:0 hold it. -/
def IsTag (w : Word) (t : Option Nat) : Prop :=
  (t = none → w = 0#64) ∧ ∀ u, t = some u → FieldsAre w [(8, 1, 1), (0, 8, u)]

/-- An optional cycle number: bit 63 says that there is one, bits 62:0 hold it. -/
def IsStamp (w : Word) (c : Option Nat) : Prop :=
  (c = none → w = 0#64) ∧ ∀ n, c = some n → FieldsAre w [(63, 1, 1), (0, 63, n)]

/-- The value of a slot in the FLEN low bits when `Resolved`, else 0. -/
def IsSlotValue (fmt : Fmt) (w : Word) (x : Slot) : Prop :=
  (∀ v, x = .resolved v → FieldsAre w [(0, fmt.flen, v.toNat)]) ∧ ((∀ v, x ≠ .resolved v) → w = 0#64)

/-- The fields of a slot whose kind stands at bit `lo`: kind 0 `Empty`, 1 `Resolved`, 2 `Pending`, then the tag. -/
def slotFields (lo : Nat) (x : Slot) : List (Nat × Nat × Nat) :=
  match x with
  | .empty => [(lo, 2, 0)]
  | .resolved _ => [(lo, 2, 1)]
  | .pending t => [(lo, 2, 2), (lo + 8, 8, t)]

/-- The op code field of `RS_CTL`: the opcode number of R84, 7 when there is none. -/
def opNumber (op : Option Opcode) : Nat :=
  match op with
  | some .add => 0
  | some .sub => 1
  | some .mul => 2
  | some .div => 3
  | some .load => 4
  | some .store => 5
  | none => 7

/-- The class number of station `t`, by the id ranges of R26. -/
def stationClassNumber (cfg : Params) (t : Nat) : Nat :=
  if t < cfg.nsta.addSub.toNat then 0
  else if t < cfg.nsta.addSub.toNat + cfg.nsta.mulDiv.toNat then 1
  else if t < cfg.nsta.addSub.toNat + cfg.nsta.mulDiv.toNat + cfg.nsta.load.toNat then 2
  else 3

/-- The fields of `STATUS` (R39, R170 to R174, R86). -/
def statusFields (rs : RunState) : List (Nat × Nat × Nat) :=
  match rs with
  | .run => [(0, 2, 0)]
  | .done => [(0, 2, 1)]
  | .fault (.invalidInstruction n .unknownOpcode) => [(0, 2, 2), (4, 4, 1), (16, 16, n), (32, 8, 1)]
  | .fault (.invalidInstruction n .reservedNonzero) => [(0, 2, 2), (4, 4, 1), (16, 16, n), (32, 8, 2)]
  | .fault (.unknownRegister n .rd r) => [(0, 2, 2), (4, 4, 2), (16, 16, n), (32, 8, 1), (40, 8, r.toNat)]
  | .fault (.unknownRegister n .rs1 r) => [(0, 2, 2), (4, 4, 2), (16, 16, n), (32, 8, 2), (40, 8, r.toNat)]
  | .fault (.unknownRegister n .rs2 r) => [(0, 2, 2), (4, 4, 2), (16, 16, n), (32, 8, 3), (40, 8, r.toNat)]
  | .fault .invariantViolation => [(0, 2, 2), (4, 4, 3)]
  | .fault (.configError register) => [(0, 2, 2), (4, 4, 4), (16, 16, register)]

/-- The configuration register with host number `r` holds a value outside its range (R6, R39, R173). -/
def OutOfRange (cfg : Params) (r : Nat) : Prop :=
  (r = 0x10 ∧ cfg.lat.add.toNat = 0) ∨ (r = 0x11 ∧ cfg.lat.sub.toNat = 0) ∨ (r = 0x12 ∧ cfg.lat.mul.toNat = 0) ∨
  (r = 0x13 ∧ cfg.lat.div.toNat = 0) ∨ (r = 0x14 ∧ cfg.lat.load.toNat = 0) ∨ (r = 0x15 ∧ cfg.lat.store.toNat = 0) ∨
  (r = 0x18 ∧ cfg.nsta.addSub.toNat = 0) ∨ (r = 0x19 ∧ cfg.nsta.mulDiv.toNat = 0) ∨
  (r = 0x1A ∧ cfg.nsta.load.toNat = 0) ∨ (r = 0x1B ∧ cfg.nsta.store.toNat = 0) ∨
  (r = 0x1C ∧ (cfg.nregs.toNat = 0 ∨ 256 < cfg.nregs.toNat)) ∨ (r = 0x1D ∧ 65535 < cfg.progLen.toNat)

end Sys2Proof.Safety
end

