-- ==== Sys2Proof/Certificates/Slice0/Obligations.lean ====
section
/-! DEFINITION. The statements for the provers. Each docstring names the rule of spec/ that the statement formalises.
Statements about every state are about states that no run reaches as well; where such states could break one, an
invariant (`Coherent`, stated and kept on its own) is the premise. -/

open Sys2Proof
open Sys2Proof.Config
open Sys2Proof.Machine
open Sys2Proof.Safety

/-! ## Encoding -/

/-- R80 to R84, R90, R91: decoding the record that encodes a well-formed instruction gives it back, with every operand
at every value, in both formats. -/
def Obligations.DecodeOfEncodeIsTheInstruction : Prop :=
  ∀ (fmt : Fmt) (i : Instr), i.wf fmt = true → decode fmt (encode i) = .instr i

/-- R87, R90: a record that decodes is the record of the instruction it decodes to, and that instruction is
well-formed. -/
def Obligations.EncodeOfDecodeIsTheRecord : Prop :=
  ∀ (fmt : Fmt) (w : Record) (i : Instr), decode fmt w = .instr i → encode i = w ∧ i.wf fmt = true

/-- R85: a record is instruction X exactly if `record AND mask(X) = match(X)`. -/
def Obligations.TableRowsAgreeWithDecoder : Prop :=
  ∀ (fmt : Fmt) (op : Opcode) (w : Record),
    w &&& rowMask fmt op = rowMatch op ↔ ∃ i, decode fmt w = .instr i ∧ i.op = op

/-- R86: detail 1 is an opcode number of 6 or more, and wins; detail 2 is a nonzero reserved field of one of the six. -/
def Obligations.IllegalRecordsAndTheirDetail : Prop :=
  ∀ (fmt : Fmt) (w : Record),
    (decode fmt w = .invalid .unknownOpcode ↔ 6 ≤ (opField w).toNat) ∧
    (decode fmt w = .invalid .reservedNonzero ↔
      (opField w).toNat ≤ 3 ∧ immField w ≠ 0 ∨
      (opField w).toNat = 5 ∧ (rs2Field w ≠ 0 ∨ immField w ≠ 0) ∨
      (opField w).toNat = 4 ∧
        (rs1Field w ≠ 0 ∨ rs2Field w ≠ 0 ∨ (fmt = .binary32 ∧ 2 ^ 32 ≤ (immField w).toNat)))

/-- 95_test_vectors.md L2-ENC: one record of every instruction, and two illegal ones. -/
def Obligations.WrittenRecordsDecode : Prop :=
  decode .binary64 0x000000000000000002000000#96 = .instr (.add 0#8 0#8 2#8) ∧
  decode .binary64 0x000000000000000000010301#96 = .instr (.sub 3#8 1#8 0#8) ∧
  decode .binary64 0x000000000000000002040602#96 = .instr (.mul 6#8 4#8 2#8) ∧
  decode .binary64 0x000000000000000002000403#96 = .instr (.div 4#8 0#8 2#8) ∧
  decode .binary64 0x400000000000000000000104#96 = .instr (.load 1#8 0x4000000000000000#64) ∧
  decode .binary64 0x000000000000000000010705#96 = .instr (.store 7#8 1#8) ∧
  decode .binary32 0x000000004000000000000104#96 = .instr (.load 1#8 0x40000000#64) ∧
  decode .binary64 0x000000010000000000000007#96 = .invalid .unknownOpcode ∧
  decode .binary32 0x000000014000000000000104#96 = .invalid .reservedNonzero

/-! ## Reset, configuration, program store -/

/-- R50, R200: an edge with `rst = 1` leaves every element at its reset value, for the configuration and program as
the ports leave them at that edge (that the port writes of the same edge come first is the model's reading, log entry 8;
that they land as they do, log entries 9, 10; what `initVal` is at and above 256, log entry 27). -/
def Obligations.ResetEdgeLeavesResetValues : Prop :=
  ∀ s : State, s.pins.rst = true → ∃ t, step s = .next t ∧
    t.cfg = loadConfig s.cfg s.pins ∧ t.prog = loadProgram s.prog s.pins ∧ t.pins = s.pins ∧
    t.cycle = 1 ∧ t.cursor = 0 ∧ t.cdbQ = none ∧ t.run = validate t.cfg t.prog ∧
    t.regs.length = t.cfg.nregs.toNat ∧
    (∀ i, i < t.regs.length → (regAt t i).val = initVal t.cfg i ∧ (regAt t i).tag = none) ∧
    t.stations.length = stationCount t.cfg ∧
    (∀ u, u < t.stations.length → stationAt t u =
      { busy := false, op := none, inst := none, j := .empty, k := .empty, lat := 0#8, elapsed := 0#8 }) ∧
    t.table.length = t.cfg.progLen.toNat ∧
    (∀ n, n < t.table.length → entryAt t n = { issue := none, complete := none, wb := none, station := none })

/-- R201, R178: validation passes exactly a legal configuration with a legal program, as RUN, or as DONE when the
program is empty; a configuration error comes before an instruction error. -/
def Obligations.ValidationPassesExactlyLegalLoads : Prop :=
  ∀ (cfg : Params) (prog : ProgStore),
    (validate cfg prog = .run ↔ LegalConfig cfg ∧ LegalProgram cfg prog ∧ cfg.progLen.toNat ≠ 0) ∧
    (validate cfg prog = .done ↔ LegalConfig cfg ∧ cfg.progLen.toNat = 0) ∧
    ((∃ register, validate cfg prog = .fault (.configError register)) ↔ ¬ LegalConfig cfg)

/-- R171: the recorded index is that of the lowest-numbered illegal record, with its detail. -/
def Obligations.LowestIllegalRecordIsRecorded : Prop :=
  ∀ (cfg : Params) (prog : ProgStore) (n : Nat) (why : IllegalReason),
    validate cfg prog = .fault (.invalidInstruction n why) ↔
      LegalConfig cfg ∧ n < cfg.progLen.toNat ∧ decode cfg.fmt (progRead prog n) = .invalid why ∧
      ∀ m, m < n → ∃ i, decode cfg.fmt (progRead prog m) = .instr i

/-- R173, R201, R39, R6: ConfigError records the lowest host number, 0x10 to 0x15, 0x18 to 0x1B, 0x1C or 0x1D, whose
register is out of its range; when none is and there are more than 256 stations in all, 0x1B. -/
def Obligations.FirstFailingConfigurationRegister : Prop :=
  ∀ (cfg : Params) (prog : ProgStore) (register : Nat),
    validate cfg prog = .fault (.configError register) ↔
      (OutOfRange cfg register ∧ ∀ r, r < register → ¬ OutOfRange cfg r) ∨
      ((∀ r, ¬ OutOfRange cfg r) ∧ register = 0x1B ∧
        256 < cfg.nsta.addSub.toNat + cfg.nsta.mulDiv.toNat + cfg.nsta.load.toNat + cfg.nsta.store.toNat)

/-- R129: an empty program is DONE at reset, with `CYCLE = 1`, and no cycle runs. -/
def Obligations.EmptyProgramIsDoneAtReset : Prop :=
  ∀ (cfg : Params) (prog : ProgStore) (pins : Pins), LegalConfig cfg → cfg.progLen.toNat = 0 → pins.rst = false →
    (State.init cfg prog pins).run = .done ∧ (State.init cfg prog pins).cycle = 1 ∧
      step (State.init cfg prog pins) = .next (State.init cfg prog pins)

/-- R61, R40, R74: with `rst = 0` no step changes the configuration or any record of the program store. -/
def Obligations.ProgramAndConfigurationAreImmutable : Prop :=
  ∀ s t : State, s.pins.rst = false → step s = .next t →
    t.cfg = s.cfg ∧ t.prog = s.prog ∧ t.pins = s.pins ∧ ∀ n, progRead t.prog n = progRead s.prog n

/-- Every step keeps the canonical form of the program store (the form is the model's own, log entry 6). -/
def Obligations.ProgramStoreStaysCanonical : Prop :=
  ∀ s t : State, progWf s.prog → step s = .next t → progWf t.prog

/-- The program store of the reset state is in canonical form (the model's own, log entry 6). -/
def Obligations.ProgramStoreCanonicalAtReset : Prop := progWf State.reset.prog

/-- R37, R38, R42: with `rst = 0` the host's ports change nothing: two states that differ in the ports alone step to
states that differ in the ports alone. -/
def Obligations.PortsAreIgnoredWhileRunning : Prop :=
  ∀ (s t : State) (p : Pins), s.pins.rst = false → p.rst = false → step s = .next t →
    step { s with pins := p } = .next { t with pins := p }

/-- R37, R38, R39: at an edge with `rst = 1`, a host write of a configuration register puts the bits of its field there and
changes no other part of the configuration; a write of any other number, or no write, changes none. When the write lands,
which bits it takes and that all 256 initial values can be written are the model's reading (log entries 8, 9, 10). -/
def Obligations.ConfigurationWritesLandInReset : Prop :=
  ∀ (s t : State) (a : BitVec 20) (d : Word), s.pins.rst = true → s.pins.hostAddr = a → s.pins.hostWdata = d →
    step s = .next t →
    (s.pins.hostWe = false → t.cfg = s.cfg) ∧
    (s.pins.hostWe = true →
      (a = 0x10#20 → t.cfg = { s.cfg with lat := { s.cfg.lat with add := d.extractLsb' 0 8 } }) ∧
      (a = 0x11#20 → t.cfg = { s.cfg with lat := { s.cfg.lat with sub := d.extractLsb' 0 8 } }) ∧
      (a = 0x12#20 → t.cfg = { s.cfg with lat := { s.cfg.lat with mul := d.extractLsb' 0 8 } }) ∧
      (a = 0x13#20 → t.cfg = { s.cfg with lat := { s.cfg.lat with div := d.extractLsb' 0 8 } }) ∧
      (a = 0x14#20 → t.cfg = { s.cfg with lat := { s.cfg.lat with load := d.extractLsb' 0 8 } }) ∧
      (a = 0x15#20 → t.cfg = { s.cfg with lat := { s.cfg.lat with store := d.extractLsb' 0 8 } }) ∧
      (a = 0x18#20 → t.cfg = { s.cfg with nsta := { s.cfg.nsta with addSub := d.extractLsb' 0 9 } }) ∧
      (a = 0x19#20 → t.cfg = { s.cfg with nsta := { s.cfg.nsta with mulDiv := d.extractLsb' 0 9 } }) ∧
      (a = 0x1A#20 → t.cfg = { s.cfg with nsta := { s.cfg.nsta with load := d.extractLsb' 0 9 } }) ∧
      (a = 0x1B#20 → t.cfg = { s.cfg with nsta := { s.cfg.nsta with store := d.extractLsb' 0 9 } }) ∧
      (a = 0x1C#20 → t.cfg = { s.cfg with nregs := d.extractLsb' 0 9 }) ∧
      (a = 0x1D#20 → t.cfg = { s.cfg with progLen := d.extractLsb' 0 17 }) ∧
      (∀ i, i < 256 → a = BitVec.ofNat 20 (0x100 + i) →
        t.cfg = { s.cfg with init := t.cfg.init } ∧
        FieldsAre (t.cfg.init.getD i 0#64) [(0, s.cfg.fmt.flen, d.toNat)] ∧
        ∀ k, k ≠ i → t.cfg.init.getD k 0#64 = s.cfg.init.getD k 0#64) ∧
      (¬ (0x10 ≤ a.toNat ∧ a.toNat ≤ 0x15) → ¬ (0x18 ≤ a.toNat ∧ a.toNat ≤ 0x1D) →
        ¬ (0x100 ≤ a.toNat ∧ a.toNat ≤ 0x1FF) → t.cfg = s.cfg))

/-- R37: with `rst = 1` the program port writes the addressed record and no other (at the edge itself, log entry 8;
at every index, also one at or above N, log entry 24). -/
def Obligations.ProgramWritesLandInReset : Prop :=
  ∀ (s t : State), s.pins.rst = true → s.pins.progWe = true → progWf s.prog → step s = .next t →
    progRead t.prog s.pins.progAddr.toNat = s.pins.progWdata ∧
    ∀ n, n ≠ s.pins.progAddr.toNat → progRead t.prog n = progRead s.prog n

/-- R37, R39: the outputs `done` and `fault`, and what the host reads of every register of the map, by number and by bit
field, for every index that the engine has an element for. That a cycle number of 2^63 or more is cut in a stamp's field, and the
cursor, a tag, an owner's index or a fault index in its own, is the model's choice (log entry 17), and so is that STATUS
gives index, detail and register 0 with InvariantViolation (log entry 13); a run reaches neither. -/
def Obligations.HostReadsShowTheState : Prop :=
  ∀ s : State,
    (doneOut s = true ↔ s.run = .done) ∧ (faultOut s = true ↔ ∃ e, s.run = .fault e) ∧
    hostRdata s = hostRead s s.pins.hostAddr ∧
    FieldsAre (hostRead s 0x00000#20) (statusFields s.run) ∧
    (hostRead s 0x00001#20).toNat = min s.cycle (2 ^ 64 - 1) ∧
    FieldsAre (hostRead s 0x00002#20) [(0, 16, s.cursor)] ∧
    IsTag (hostRead s 0x00003#20) s.cdbQ ∧
    FieldsAre (hostRead s 0x00010#20) [(0, 8, s.cfg.lat.add.toNat)] ∧
    FieldsAre (hostRead s 0x00011#20) [(0, 8, s.cfg.lat.sub.toNat)] ∧
    FieldsAre (hostRead s 0x00012#20) [(0, 8, s.cfg.lat.mul.toNat)] ∧
    FieldsAre (hostRead s 0x00013#20) [(0, 8, s.cfg.lat.div.toNat)] ∧
    FieldsAre (hostRead s 0x00014#20) [(0, 8, s.cfg.lat.load.toNat)] ∧
    FieldsAre (hostRead s 0x00015#20) [(0, 8, s.cfg.lat.store.toNat)] ∧
    FieldsAre (hostRead s 0x00018#20) [(0, 9, s.cfg.nsta.addSub.toNat)] ∧
    FieldsAre (hostRead s 0x00019#20) [(0, 9, s.cfg.nsta.mulDiv.toNat)] ∧
    FieldsAre (hostRead s 0x0001A#20) [(0, 9, s.cfg.nsta.load.toNat)] ∧
    FieldsAre (hostRead s 0x0001B#20) [(0, 9, s.cfg.nsta.store.toNat)] ∧
    FieldsAre (hostRead s 0x0001C#20) [(0, 9, s.cfg.nregs.toNat)] ∧
    FieldsAre (hostRead s 0x0001D#20) [(0, 17, s.cfg.progLen.toNat)] ∧
    (∀ i, i < 256 → i < s.cfg.nregs.toNat →
      FieldsAre (hostRead s (BitVec.ofNat 20 (0x100 + i))) [(0, s.cfg.fmt.flen, (s.cfg.init.getD i 0#64).toNat)]) ∧
    (∀ i, i < 256 → i < s.regs.length →
      FieldsAre (hostRead s (BitVec.ofNat 20 (0x200 + i))) [(0, s.cfg.fmt.flen, (regAt s i).val.toNat)] ∧
      IsTag (hostRead s (BitVec.ofNat 20 (0x300 + i))) (regAt s i).tag) ∧
    (∀ u, u < 256 → u < s.stations.length →
      FieldsAre (hostRead s (BitVec.ofNat 20 (0x400 + u)))
        [(0, 1, (stationAt s u).busy.toNat), (1, 2, stationClassNumber s.cfg u), (4, 3, opNumber (stationAt s u).op),
          (7, 1, (stationAt s u).inst.isSome.toNat), (8, 16, (stationAt s u).inst.getD 0),
          (24, 8, (stationAt s u).lat.toNat), (32, 8, (stationAt s u).elapsed.toNat)] ∧
      FieldsAre (hostRead s (BitVec.ofNat 20 (0x500 + u)))
        (slotFields 0 (stationAt s u).j ++ slotFields 16 (stationAt s u).k) ∧
      IsSlotValue s.cfg.fmt (hostRead s (BitVec.ofNat 20 (0x600 + u))) (stationAt s u).j ∧
      IsSlotValue s.cfg.fmt (hostRead s (BitVec.ofNat 20 (0x700 + u))) (stationAt s u).k) ∧
    (∀ n, n < 65536 → n < s.table.length →
      IsStamp (hostRead s (BitVec.ofNat 20 (0x10000 + n))) (entryAt s n).issue ∧
      IsStamp (hostRead s (BitVec.ofNat 20 (0x20000 + n))) (entryAt s n).complete ∧
      IsStamp (hostRead s (BitVec.ofNat 20 (0x30000 + n))) (entryAt s n).wb ∧
      IsTag (hostRead s (BitVec.ofNat 20 (0x40000 + n))) (entryAt s n).station)

/-- R38, R39: every number that the map does not define reads 0, and so does every number whose index is at or beyond
NREGS, NS or N: in a coherent state by those sizes themselves, in any state by the lists that hold the elements. -/
def Obligations.UnusedHostNumbersReadZero : Prop :=
  ∀ s : State,
    (∀ a : BitVec 20, (0x04 ≤ a.toNat ∧ a.toNat ≤ 0x0F) ∨ (0x16 ≤ a.toNat ∧ a.toNat ≤ 0x17) ∨
      (0x1E ≤ a.toNat ∧ a.toNat ≤ 0xFF) ∨ (0x800 ≤ a.toNat ∧ a.toNat ≤ 0xFFFF) ∨ 0x50000 ≤ a.toNat →
      hostRead s a = 0#64) ∧
    (∀ i, i < 256 → s.cfg.nregs.toNat ≤ i → hostRead s (BitVec.ofNat 20 (0x100 + i)) = 0#64) ∧
    (∀ i, i < 256 → s.regs.length ≤ i ∨ (Coherent s ∧ s.cfg.nregs.toNat ≤ i) →
      hostRead s (BitVec.ofNat 20 (0x200 + i)) = 0#64 ∧ hostRead s (BitVec.ofNat 20 (0x300 + i)) = 0#64) ∧
    (∀ u, u < 256 → s.stations.length ≤ u ∨ (Coherent s ∧ s.cfg.nsta.addSub.toNat + s.cfg.nsta.mulDiv.toNat +
        s.cfg.nsta.load.toNat + s.cfg.nsta.store.toNat ≤ u) →
      hostRead s (BitVec.ofNat 20 (0x400 + u)) = 0#64 ∧
      hostRead s (BitVec.ofNat 20 (0x500 + u)) = 0#64 ∧ hostRead s (BitVec.ofNat 20 (0x600 + u)) = 0#64 ∧
      hostRead s (BitVec.ofNat 20 (0x700 + u)) = 0#64) ∧
    (∀ n, n < 65536 → s.table.length ≤ n ∨ (Coherent s ∧ s.cfg.progLen.toNat ≤ n) →
      hostRead s (BitVec.ofNat 20 (0x10000 + n)) = 0#64 ∧
      hostRead s (BitVec.ofNat 20 (0x20000 + n)) = 0#64 ∧ hostRead s (BitVec.ofNat 20 (0x30000 + n)) = 0#64 ∧
      hostRead s (BitVec.ofNat 20 (0x40000 + n)) = 0#64)

/-! ## One step -/

/-- R101, R106: when the record at the cursor decodes to instruction `i`, the step is phase 1, then `exec i`, then the
end of the cycle (a step is one clock edge, log entry 1): a fatal error leaves the state at the start of the cycle with
RUN changed, anything else goes through phases 3 and 4. -/
def Obligations.StepRunsTheDecodedInstruction : Prop :=
  ∀ (s s1 s2 : State) (i : Instr), s.pins.rst = false → s.run = .run → writeBack s = some s1 →
    s1.cursor < s1.cfg.progLen.toNat → decode s1.cfg.fmt (progRead s1.prog s1.cursor) = .instr i →
    exec i s1 = .next s2 →
    (∀ e, s2.run = .fault e → step s = .next { s with run := .fault e }) ∧
    ((∀ e, s2.run ≠ .fault e) → step s = .next (advancePhase (executePhase s s2)))

/-- R15, R100, R103, R176: the machine never stops: every state has a next state, also those no run reaches
(the model's choice, log entries 13, 14, 21). -/
def Obligations.EveryStepHasANextState : Prop :=
  ∀ s : State, ∃ t, step s = .next t

/-- R100, R101, R103, R111: in DONE and in FAULT a clock edge changes nothing; `rst = 1` puts the engine in its reset
state; and a running engine either commits all four phases or, at a fatal error of phase 1 or 2, nothing but RUN (what the
reset edge loads: log entry 8; the errors that no run reaches: log entries 13, 14). -/
def Obligations.ClockEdgesAreWholeCycles : Prop :=
  ∀ s t : State, step s = .next t →
    (s.pins.rst = true → t = State.init (loadConfig s.cfg s.pins) (loadProgram s.prog s.pins) s.pins) ∧
    (s.pins.rst = false → s.run ≠ .run → t = s) ∧
    (s.pins.rst = false → s.run = .run →
      (∃ s1 s2, writeBack s = some s1 ∧ issuePhase s1 = .next s2 ∧ (∀ e, s2.run ≠ .fault e) ∧
        t = advancePhase (executePhase s s2) ∧ t.cycle = s.cycle + 1 ∧ ∀ e, t.run ≠ .fault e) ∨
      (∃ e, t = { s with run := .fault e } ∧
        ((writeBack s = none ∧ e = .invariantViolation) ∨
          ∃ s1 s2, writeBack s = some s1 ∧ issuePhase s1 = .next s2 ∧ s2.run = .fault e)))

/-- R21: the cursor advances by exactly one when, and only when, an instruction issues, and never past N. -/
def Obligations.CursorAdvancesWithIssue : Prop :=
  ∀ s t : State, Coherent s → s.pins.rst = false → step s = .next t →
    (t.cursor = s.cursor ∧ ∀ n, (entryAt t n).issue = (entryAt s n).issue) ∨
    (t.cursor = s.cursor + 1 ∧ s.cursor < s.cfg.progLen.toNat ∧ (entryAt s s.cursor).issue = none ∧
      (entryAt t s.cursor).issue = some s.cycle ∧ ∀ n, n ≠ s.cursor → (entryAt t n).issue = (entryAt s n).issue)

/-- R111, R177: a fatal error in a running engine commits nothing of its cycle: only RUN changes. That
this also holds of the errors that no run reaches is the model's choice (log entries 13, 14). -/
def Obligations.FaultingCycleIsDiscarded : Prop :=
  ∀ (s t : State) (e : EngineError), s.pins.rst = false → s.run = .run → step s = .next t → t.run = .fault e →
    t = { s with run := .fault e }

/-- R110, R127: in one cycle at most one instruction issues and at most one writes back. -/
def Obligations.OneIssueAndOneWriteBackPerCycle : Prop :=
  ∀ s t : State, s.pins.rst = false → step s = .next t →
    (∀ n m, (entryAt t n).issue ≠ (entryAt s n).issue → (entryAt t m).issue ≠ (entryAt s m).issue → n = m) ∧
    (∀ n m, (entryAt t n).wb ≠ (entryAt s n).wb → (entryAt t m).wb ≠ (entryAt s m).wb → n = m)

/-- R33: a time stamp or station number, once set, stays until reset. -/
def Obligations.StampsAreSetOnce : Prop :=
  ∀ s t : State, Coherent s → s.pins.rst = false → step s = .next t → ∀ n,
    ((entryAt s n).issue ≠ none → (entryAt t n).issue = (entryAt s n).issue) ∧
    ((entryAt s n).complete ≠ none → (entryAt t n).complete = (entryAt s n).complete) ∧
    ((entryAt s n).wb ≠ none → (entryAt t n).wb = (entryAt s n).wb) ∧
    ((entryAt s n).station ≠ none → (entryAt t n).station = (entryAt s n).station)

/-! ## Issue (phase 2) -/

/-- R142 to R146, R105, R107, R108: ADD and SUB issue into the smallest free AddSub station, MUL and DIV into the
smallest free MulDiv station, with declared registers, both sources captured before the destination is renamed. -/
def Obligations.ArithmeticIssues : Prop :=
  ∀ (s : State) (t : Nat) (rd rs1 rs2 : RegIdx),
    rd.toNat < s.cfg.nregs.toNat → rs1.toNat < s.cfg.nregs.toNat → rs2.toNat < s.cfg.nregs.toNat →
    (FirstFree s .addSub t →
      exec (.add rd rs1 rs2) s =
        .next (issuedState (.add rd rs1 rs2) (capture s.regs rs1) (capture s.regs rs2) t s) ∧
      exec (.sub rd rs1 rs2) s =
        .next (issuedState (.sub rd rs1 rs2) (capture s.regs rs1) (capture s.regs rs2) t s)) ∧
    (FirstFree s .mulDiv t →
      exec (.mul rd rs1 rs2) s =
        .next (issuedState (.mul rd rs1 rs2) (capture s.regs rs1) (capture s.regs rs2) t s) ∧
      exec (.div rd rs1 rs2) s =
        .next (issuedState (.div rd rs1 rs2) (capture s.regs rs1) (capture s.regs rs2) t s))

/-- R160: LOAD issues into the smallest free Load station with its immediate as the resolved operand; it reads no
register. -/
def Obligations.LoadIssues : Prop :=
  ∀ (s : State) (t : Nat) (rd : RegIdx) (imm : Word), FirstFree s .load t → rd.toNat < s.cfg.nregs.toNat →
    exec (.load rd imm) s = .next (issuedState (.load rd imm) (.resolved imm) .empty t s)

/-- R161: STORE issues into the smallest free Store station with its source captured and its destination renamed. -/
def Obligations.StoreIssues : Prop :=
  ∀ (s : State) (t : Nat) (rd rs1 : RegIdx), FirstFree s .store t →
    rd.toNat < s.cfg.nregs.toNat → rs1.toNat < s.cfg.nregs.toNat →
    exec (.store rd rs1) s = .next (issuedState (.store rd rs1) (capture s.regs rs1) .empty t s)

/-- The frame of issue, for all six instructions (R23, R107, R108): every register but the destination is unchanged and
the destination keeps its value; every station but the smallest free one of the class is unchanged; every status entry
but the cursor's is unchanged and that one keeps its completion and write-back stamps; the configuration, the cycle
counter, the latch, the ports and every record of the program store are unchanged. -/
def Obligations.IssueChangesNothingElse : Prop :=
  ∀ (i : Instr) (s t : State), exec i s = .next t →
    (∀ r, r ≠ i.rd.toNat → regAt t r = regAt s r) ∧ (regAt t i.rd.toNat).val = (regAt s i.rd.toNat).val ∧
    t.regs.length = s.regs.length ∧
    (∀ u, ¬ FirstFree s i.op.unit u → stationAt t u = stationAt s u) ∧ t.stations.length = s.stations.length ∧
    (∀ n, n ≠ s.cursor → entryAt t n = entryAt s n) ∧ (entryAt t s.cursor).complete = (entryAt s s.cursor).complete ∧
    (entryAt t s.cursor).wb = (entryAt s s.cursor).wb ∧ t.table.length = s.table.length ∧
    t.cfg = s.cfg ∧ t.cycle = s.cycle ∧ t.cdbQ = s.cdbQ ∧ t.pins = s.pins ∧
    (∀ n, progRead t.prog n = progRead s.prog n)

/-- R109: in a running engine, issue leaves everything as it is exactly when every station of the class is busy; that
is no error. -/
def Obligations.StallIsTheOnlyWait : Prop :=
  ∀ (i : Instr) (s : State), s.run = .run →
    (exec i s = .next s ↔
      ∀ t, t < s.stations.length → classOf s.cfg t = i.op.unit → (stationAt s t).busy = true)

/-- R111, R172: with a free station, the first used field at or above NREGS, in the order rd, rs1, rs2, raises
UnknownRegisterError with the cursor, the field and the register number; only RUN changes. -/
def Obligations.UnknownRegisterIsRaisedAtIssue : Prop :=
  ∀ (i : Instr) (s : State) (t k : Nat) (f : RegField) (r : RegIdx), FirstFree s i.op.unit t →
    (usedFields i)[k]? = some (f, r) → s.cfg.nregs.toNat ≤ r.toNat →
    (∀ (m : Nat) (c : RegField × RegIdx), m < k → (usedFields i)[m]? = some c → c.2.toNat < s.cfg.nregs.toNat) →
    exec i s = .next { s with run := .fault (.unknownRegister s.cursor f r) }

/-- R107: a source register without a tag is captured as its value, one with a tag as that tag. -/
def Obligations.CaptureIsValueOrTag : Prop :=
  ∀ (s : State) (r : RegIdx), r.toNat < s.regs.length →
    ((regAt s r.toNat).tag = none → capture s.regs r = .resolved (regAt s r.toNat).val) ∧
    (∀ t, (regAt s r.toNat).tag = some t → capture s.regs r = .pending t)

/-! ## Write-back (phase 1) -/

/-- R125, R143 to R146, R160, R161: what `compute` returns for a station with resolved operands, per opcode; LOAD and
STORE return the one operand unchanged, whatever the second slot holds. -/
def Obligations.ComputeAppliesTheOpcode : Prop :=
  ∀ (fmt : Fmt) (st : Station) (a : Word), st.j = .resolved a →
    (∀ b, st.k = .resolved b →
      (st.op = some .add → computeStation fmt st = some (fadd fmt a b)) ∧
      (st.op = some .sub → computeStation fmt st = some (fsub fmt a b)) ∧
      (st.op = some .mul → computeStation fmt st = some (fmul fmt a b)) ∧
      (st.op = some .div → computeStation fmt st = some (fdiv fmt a b))) ∧
    (st.op = some .load ∨ st.op = some .store → computeStation fmt st = some a)

/-- R121: the broadcast of `(w, v)` writes every register still tagged `w` and clears its tag; every other register
keeps its value and its tag. -/
def Obligations.BroadcastResolvesTaggedRegisters : Prop :=
  ∀ (s : State) (w : Nat) (st : Station) (v : Word), s.cdbQ = some w → s.stations[w]? = some st →
    computeStation s.cfg.fmt st = some v → ∃ t, writeBack s = some t ∧ t.regs.length = s.regs.length ∧
      ∀ i, i < s.regs.length →
        ((regAt s i).tag = some w → regAt t i = { val := v, tag := none }) ∧
        ((regAt s i).tag ≠ some w → regAt t i = regAt s i)

/-- R122, R124: the broadcast fills every slot of a busy station that waits for `w`, leaves every other slot and every
other field as it was, and the winner becomes a free station. -/
def Obligations.BroadcastFillsWaitingSlots : Prop :=
  ∀ (s : State) (w : Nat) (st : Station) (v : Word), s.cdbQ = some w → s.stations[w]? = some st →
    computeStation s.cfg.fmt st = some v → ∃ t, writeBack s = some t ∧ t.stations.length = s.stations.length ∧
      stationAt t w = { busy := false, op := none, inst := none, j := .empty, k := .empty, lat := 0#8, elapsed := 0#8 } ∧
      ∀ u, u ≠ w →
        ((stationAt s u).busy = false → stationAt t u = stationAt s u) ∧
        ((stationAt s u).busy = true → stationAt t u =
          { stationAt s u with
            j := if (stationAt s u).j = .pending w then .resolved v else (stationAt s u).j
            k := if (stationAt s u).k = .pending w then .resolved v else (stationAt s u).k })

/-- R123: write-back stamps the winner's owning instruction if its stamp is unset, and touches no other entry. -/
def Obligations.WriteBackStampsTheOwner : Prop :=
  ∀ (s : State) (w : Nat) (st : Station) (v : Word), s.cdbQ = some w → s.stations[w]? = some st →
    computeStation s.cfg.fmt st = some v → ∃ t, writeBack s = some t ∧
      (∀ n, st.inst = some n → n < s.table.length → (entryAt s n).wb = none →
        entryAt t n = { entryAt s n with wb := some s.cycle }) ∧
      (∀ n, (st.inst ≠ some n ∨ (entryAt s n).wb ≠ none) → entryAt t n = entryAt s n)

/-- R121, R126, R143 to R146, R160, R161: when the winner's result is `v`, the step answers a next state, and unless its
cycle is discarded every register that had the winner's tag holds `v`, also one that is renamed again in the same
cycle. -/
def Obligations.ResultReachesItsRegisters : Prop :=
  ∀ (s : State) (w : Nat) (st : Station) (v : Word), s.pins.rst = false → s.run = .run → s.cdbQ = some w →
    s.stations[w]? = some st → computeStation s.cfg.fmt st = some v →
    ∃ t, step s = .next t ∧ ((∀ e, t.run ≠ .fault e) →
      ∀ i, i < s.regs.length → (regAt s i).tag = some w → (regAt t i).val = v)

/-! ## Execute, complete, arbitrate (phase 3) -/

/-- R113, R114, R115: in a committed cycle, a station that was ready at its start and did not write back counts one
cycle, up to its latency, and nothing else of it changes; a busy station that waited for an operand does not count. -/
def Obligations.ReadyStationsCountOneCycle : Prop :=
  ∀ s t : State, s.pins.rst = false → s.run = .run → step s = .next t → (∀ e, t.run ≠ .fault e) →
    ∀ u, u < s.stations.length → s.cdbQ ≠ some u → (stationAt s u).busy = true →
      ((stationAt s u).j.isPending = false → (stationAt s u).k.isPending = false →
        stationAt t u = { stationAt s u with
          elapsed := BitVec.ofNat 8 (min ((stationAt s u).elapsed.toNat + 1) (stationAt s u).lat.toNat) }) ∧
      ((stationAt s u).j.isPending = true ∨ (stationAt s u).k.isPending = true →
        (stationAt t u).busy = true ∧ (stationAt t u).elapsed = (stationAt s u).elapsed ∧
        (stationAt t u).lat = (stationAt s u).lat ∧ (stationAt t u).op = (stationAt s u).op ∧
        (stationAt t u).inst = (stationAt s u).inst)

/-- R102, R114: a station that an instruction issues into does not count in the cycle of its issue. -/
def Obligations.IssuedStationStartsAtZero : Prop :=
  ∀ s t : State, s.pins.rst = false → s.run = .run → step s = .next t → t.cursor = s.cursor + 1 →
    ∃ u, u < t.stations.length ∧ (stationAt t u).busy = true ∧ (stationAt t u).inst = some s.cursor ∧
      (stationAt t u).elapsed = 0#8 ∧ ((stationAt s u).busy = false ∨ s.cdbQ = some u)

/-- R117: in a committed cycle an unset completion stamp is set to the cycle exactly when a station that counts in this
cycle is owned by the instruction and reaches its latency; a set one stays. -/
def Obligations.CompletionIsStampedOnce : Prop :=
  ∀ s t : State, s.pins.rst = false → s.run = .run → step s = .next t → (∀ e, t.run ≠ .fault e) →
    ∀ n, n < s.table.length →
      ((entryAt s n).complete ≠ none → (entryAt t n).complete = (entryAt s n).complete) ∧
      ((entryAt s n).complete = none →
        ((entryAt t n).complete = some s.cycle ↔ ∃ u, u < s.stations.length ∧ (stationAt s u).ready = true ∧
          s.cdbQ ≠ some u ∧ (stationAt s u).inst = some n ∧
          (stationAt s u).lat.toNat ≤ (stationAt s u).elapsed.toNat + 1) ∧
        ((entryAt t n).complete = some s.cycle ∨ (entryAt t n).complete = none))

/-- R118: a committed cycle latches the complete station with the smallest id, or none if no station is complete. -/
def Obligations.LatchHoldsTheSmallestComplete : Prop :=
  ∀ s t : State, s.pins.rst = false → s.run = .run → step s = .next t → (∀ e, t.run ≠ .fault e) →
    (∀ u, t.cdbQ = some u ↔ u < t.stations.length ∧ (stationAt t u).busy = true ∧
      (stationAt t u).elapsed = (stationAt t u).lat ∧
      ∀ v, v < u → (stationAt t v).busy = true → (stationAt t v).elapsed ≠ (stationAt t v).lat) ∧
    (t.cdbQ = none ↔ ∀ u, u < t.stations.length → (stationAt t u).busy = true →
      (stationAt t u).elapsed ≠ (stationAt t u).lat)

/-- R26, R119: a class owns a contiguous range of ids, in the order AddSub, MulDiv, Load, Store; of two complete stations
the one of the earlier class wins, and within a class the one with the smaller id. -/
def Obligations.ArbitrationFollowsClassThenId : Prop :=
  (∀ (cfg : Params) (t : Nat),
    t < cfg.nsta.addSub.toNat + cfg.nsta.mulDiv.toNat + cfg.nsta.load.toNat + cfg.nsta.store.toNat →
    (classOf cfg t = .addSub ↔ t < cfg.nsta.addSub.toNat) ∧
    (classOf cfg t = .mulDiv ↔ cfg.nsta.addSub.toNat ≤ t ∧ t < cfg.nsta.addSub.toNat + cfg.nsta.mulDiv.toNat) ∧
    (classOf cfg t = .load ↔ cfg.nsta.addSub.toNat + cfg.nsta.mulDiv.toNat ≤ t ∧
      t < cfg.nsta.addSub.toNat + cfg.nsta.mulDiv.toNat + cfg.nsta.load.toNat) ∧
    (classOf cfg t = .store ↔ cfg.nsta.addSub.toNat + cfg.nsta.mulDiv.toNat + cfg.nsta.load.toNat ≤ t)) ∧
  ∀ (cfg : Params) (stations : List Station) (u v : Nat) (st : Station),
    arbitrate stations = some u → stations[v]? = some st → st.busy = true → st.elapsed = st.lat →
    stationClassNumber cfg u ≤ stationClassNumber cfg v ∧ u ≤ v

/-! ## Arithmetic -/

/-- R140: rounding is to the nearest magnitude of the format, of two nearest the even one; too large a value goes to
infinity. This and the seven statements after it rest on what the spec takes from IEEE 754 (log entry 16). -/
def Obligations.RoundingIsToNearestEven : Prop :=
  ∀ (fmt : Fmt) (num den : Nat), 0 < den → NearestEven fmt num den (roundMag fmt num den)

/-- R140, R143: the sum of two finite values whose exact sum is not zero is the exact sum rounded once. -/
def Obligations.SumIsExactThenRounded : Prop :=
  ∀ (fmt : Fmt) (a b : Word), FiniteFp fmt a → FiniteFp fmt b → valueUnits fmt a + valueUnits fmt b ≠ 0 →
    RoundsTo fmt (decide (valueUnits fmt a + valueUnits fmt b < 0))
      (valueUnits fmt a + valueUnits fmt b).natAbs 1 (fadd fmt a b)

/-- R140, R144: the difference, the first operand minus the second, likewise. -/
def Obligations.DifferenceIsExactThenRounded : Prop :=
  ∀ (fmt : Fmt) (a b : Word), FiniteFp fmt a → FiniteFp fmt b → valueUnits fmt a - valueUnits fmt b ≠ 0 →
    RoundsTo fmt (decide (valueUnits fmt a - valueUnits fmt b < 0))
      (valueUnits fmt a - valueUnits fmt b).natAbs 1 (fsub fmt a b)

/-- R140, R145: the product of two finite values is the exact product rounded once, its sign the XOR of the signs. -/
def Obligations.ProductIsExactThenRounded : Prop :=
  ∀ (fmt : Fmt) (a b : Word), FiniteFp fmt a → FiniteFp fmt b →
    RoundsTo fmt (isNeg fmt a != isNeg fmt b)
      ((valueUnits fmt a).natAbs * (valueUnits fmt b).natAbs) (2 ^ oneExp fmt) (fmul fmt a b)

/-- R140, R146: the quotient of two finite values with a nonzero divisor is the exact quotient rounded once, its sign
the XOR of the signs. -/
def Obligations.QuotientIsExactThenRounded : Prop :=
  ∀ (fmt : Fmt) (a b : Word), FiniteFp fmt a → FiniteFp fmt b → valueUnits fmt b ≠ 0 →
    RoundsTo fmt (isNeg fmt a != isNeg fmt b)
      ((valueUnits fmt a).natAbs * 2 ^ oneExp fmt) (valueUnits fmt b).natAbs (fdiv fmt a b)

/-- R140: an exact zero sum is +0, but (-0) + (-0) = -0; R144: an exact zero difference is +0, so also x - x for finite x,
but (-0) - (+0) = -0. -/
def Obligations.ZeroSumsAndTheirSign : Prop :=
  ∀ (fmt : Fmt) (a b : Word), FiniteFp fmt a → FiniteFp fmt b →
    (valueUnits fmt a + valueUnits fmt b = 0 → fadd fmt a b = packFp fmt (isNeg fmt a && isNeg fmt b) 0) ∧
    (valueUnits fmt a - valueUnits fmt b = 0 → fsub fmt a b = packFp fmt (isNeg fmt a && !isNeg fmt b) 0) ∧
    fsub fmt a a = packFp fmt false 0

/-- R140, R143 to R146: for each of the four operations, the results with an infinite operand or a zero divisor that are
not NaN. -/
def Obligations.InfinitiesAndZeroDivisors : Prop :=
  ∀ (fmt : Fmt) (a b : Word), isNaN fmt a = false → isNaN fmt b = false →
    (isInf fmt a = true → isInf fmt b = false → fadd fmt a b = packFp fmt (isNeg fmt a) (infMag fmt)) ∧
    (isInf fmt a = false → isInf fmt b = true → fadd fmt a b = packFp fmt (isNeg fmt b) (infMag fmt)) ∧
    (isInf fmt a = true → isInf fmt b = true → isNeg fmt a = isNeg fmt b →
      fadd fmt a b = packFp fmt (isNeg fmt a) (infMag fmt)) ∧
    (isInf fmt a = true → isInf fmt b = false → fsub fmt a b = packFp fmt (isNeg fmt a) (infMag fmt)) ∧
    (isInf fmt a = false → isInf fmt b = true → fsub fmt a b = packFp fmt (!isNeg fmt b) (infMag fmt)) ∧
    (isInf fmt a = true → isInf fmt b = true → isNeg fmt a ≠ isNeg fmt b →
      fsub fmt a b = packFp fmt (isNeg fmt a) (infMag fmt)) ∧
    (isInf fmt a = true → isZero fmt b = false →
      fmul fmt a b = packFp fmt (isNeg fmt a != isNeg fmt b) (infMag fmt)) ∧
    (isZero fmt a = false → isInf fmt b = true →
      fmul fmt a b = packFp fmt (isNeg fmt a != isNeg fmt b) (infMag fmt)) ∧
    (isInf fmt a = false → isZero fmt a = false → isZero fmt b = true →
      fdiv fmt a b = packFp fmt (isNeg fmt a != isNeg fmt b) (infMag fmt)) ∧
    (isInf fmt a = true → isInf fmt b = false →
      fdiv fmt a b = packFp fmt (isNeg fmt a != isNeg fmt b) (infMag fmt)) ∧
    (isInf fmt a = false → isInf fmt b = true → fdiv fmt a b = packFp fmt (isNeg fmt a != isNeg fmt b) 0)

/-- R141: an operation's result is a NaN exactly in IEEE 754's cases, and then it is `nan_result` of its operands, which
is a NaN pattern of the format whatever the free value behind it (log entries 7, 16). -/
def Obligations.NaNResultsAreNanResult : Prop :=
  ∀ (fmt : Fmt) (a b : Word),
    (isNaN fmt (fadd fmt a b) = true ↔ isNaN fmt a = true ∨ isNaN fmt b = true ∨
      (isInf fmt a = true ∧ isInf fmt b = true ∧ isNeg fmt a ≠ isNeg fmt b)) ∧
    (isNaN fmt (fadd fmt a b) = true → fadd fmt a b = nanResult fmt .add a b) ∧
    (isNaN fmt (fsub fmt a b) = true ↔ isNaN fmt a = true ∨ isNaN fmt b = true ∨
      (isInf fmt a = true ∧ isInf fmt b = true ∧ isNeg fmt a = isNeg fmt b)) ∧
    (isNaN fmt (fsub fmt a b) = true → fsub fmt a b = nanResult fmt .sub a b) ∧
    (isNaN fmt (fmul fmt a b) = true ↔ isNaN fmt a = true ∨ isNaN fmt b = true ∨
      (isInf fmt a = true ∧ isZero fmt b = true) ∨ (isZero fmt a = true ∧ isInf fmt b = true)) ∧
    (isNaN fmt (fmul fmt a b) = true → fmul fmt a b = nanResult fmt .mul a b) ∧
    (isNaN fmt (fdiv fmt a b) = true ↔ isNaN fmt a = true ∨ isNaN fmt b = true ∨
      (isZero fmt a = true ∧ isZero fmt b = true) ∨ (isInf fmt a = true ∧ isInf fmt b = true)) ∧
    (isNaN fmt (fdiv fmt a b) = true → fdiv fmt a b = nanResult fmt .div a b) ∧
    (∀ op, isNaNPattern fmt (nanResult fmt op a b) = true)

/-- R10, R140: every step keeps every register and slot value an FLEN-bit pattern. -/
def Obligations.ValuesStayInTheFormat : Prop :=
  ∀ s t : State, ValuesFit s → step s = .next t → ValuesFit t

/-! ## Headline results -/

/-- R130: every step keeps the invariants of R25, R29 and R33, from every state that has them. -/
def Obligations.CoherenceIsKept : Prop :=
  ∀ s t : State, Coherent s → step s = .next t → Coherent t

/-- R50, R200: the reset state has the invariants that the steps keep, for every configuration and program, legal or
not (the initial values at and above 256, which only an illegal NREGS reaches, are the model's choice, log entry 27). -/
def Obligations.InvariantsHoldAtReset : Prop :=
  ∀ (cfg : Params) (prog : ProgStore) (pins : Pins),
    Coherent (State.init cfg prog pins) ∧ Faithful (State.init cfg prog pins) ∧ ValuesFit (State.init cfg prog pins)

/-- R174: in a coherent state no step raises InvariantViolation, nor an instruction error while it runs. -/
def Obligations.NoInternalErrorFromCoherentStates : Prop :=
  ∀ s t : State, Coherent s → s.pins.rst = false → s.run = .run → step s = .next t →
    t.run ≠ .fault .invariantViolation ∧ ∀ n why, t.run ≠ .fault (.invalidInstruction n why)

/-- R70 item 1: every step keeps the agreement of all register and operand values with sequential execution. -/
def Obligations.SequentialValuesAreKept : Prop :=
  ∀ s t : State, Coherent s → Faithful s → step s = .next t → Faithful t

/-- R70 item 2: in a done state every register holds, without a tag, the value that sequential execution of the whole
program from INIT leaves in it. -/
def Obligations.DoneRegistersAreSequential : Prop :=
  ∀ s : State, Coherent s → Faithful s → s.run = .done → ∀ i, i < s.cfg.nregs.toNat →
    regAt s i = { val := (seqRegs s.cfg s.prog s.cfg.progLen.toNat).getD i 0#64, tag := none }

/-- R128: at DONE every station is free, every register tag is none, the latch is empty and the cursor is at N. -/
def Obligations.DoneStateIsQuiet : Prop :=
  ∀ s : State, Coherent s → s.run = .done →
    s.cursor = s.cfg.progLen.toNat ∧ s.cdbQ = none ∧
    (∀ t, t < s.stations.length → (stationAt s t).busy = false) ∧
    (∀ i, i < s.regs.length → (regAt s i).tag = none)

/-- R134: every cycle of a running engine leaves less work, or ends the run. -/
def Obligations.EveryCycleMakesProgress : Prop :=
  ∀ s t : State, Coherent s → s.pins.rst = false → s.run = .run → step s = .next t →
    (∃ e, t.run = .fault e) ∨ workLeft t < workLeft s

/-- R134: from reset, a run of any legal program in any legal configuration has left RUN after at most
`1 + Σ (LAT + 1)` cycles. -/
def Obligations.EveryRunEndsWithinTheBound : Prop :=
  ∀ (cfg : Params) (prog : ProgStore) (pins : Pins), pins.rst = false → validate cfg prog = .run →
    ∃ k t, k ≤ cycleBound cfg prog ∧ Host.Core.run core k (State.init cfg prog pins) = .next t ∧ t.run ≠ .run

/-- R16: the timeline never depends on values: two states that agree in all but floating-point values step to states
that agree in all but floating-point values. -/
def Obligations.TimelineIgnoresValues : Prop :=
  ∀ s s' t t' : State, eraseValues s = eraseValues s' → step s = .next t → step s' = .next t' →
    eraseValues t = eraseValues t'
end

