-- ==== Sys2Proof/Laws/State.lean ====
section
/-! SUPPORT. One lemma per field of State per update of it, so that no proof unfolds a record update. -/

namespace Sys2Proof.Laws

open Sys2Proof.Machine

/-! ### `raiseError` -/

@[simp] theorem raiseError_cfg (s : State) (e : EngineError) :
    (raiseError s e).cfg = s.cfg := rfl

@[simp] theorem raiseError_prog (s : State) (e : EngineError) :
    (raiseError s e).prog = s.prog := rfl

@[simp] theorem raiseError_cycle (s : State) (e : EngineError) :
    (raiseError s e).cycle = s.cycle := rfl

@[simp] theorem raiseError_cursor (s : State) (e : EngineError) :
    (raiseError s e).cursor = s.cursor := rfl

@[simp] theorem raiseError_regs (s : State) (e : EngineError) :
    (raiseError s e).regs = s.regs := rfl

@[simp] theorem raiseError_stations (s : State) (e : EngineError) :
    (raiseError s e).stations = s.stations := rfl

@[simp] theorem raiseError_cdbQ (s : State) (e : EngineError) :
    (raiseError s e).cdbQ = s.cdbQ := rfl

@[simp] theorem raiseError_table (s : State) (e : EngineError) :
    (raiseError s e).table = s.table := rfl

@[simp] theorem raiseError_run (s : State) (e : EngineError) :
    (raiseError s e).run = .fault e := rfl

@[simp] theorem raiseError_pins (s : State) (e : EngineError) :
    (raiseError s e).pins = s.pins := rfl

/-! ### `commitIssue` -/

@[simp] theorem commitIssue_cfg (op : Opcode) (rd : RegIdx) (j k : Slot) (t : Nat) (s : State) :
    (commitIssue op rd j k t s).cfg = s.cfg := rfl

@[simp] theorem commitIssue_prog (op : Opcode) (rd : RegIdx) (j k : Slot) (t : Nat) (s : State) :
    (commitIssue op rd j k t s).prog = s.prog := rfl

@[simp] theorem commitIssue_cycle (op : Opcode) (rd : RegIdx) (j k : Slot) (t : Nat) (s : State) :
    (commitIssue op rd j k t s).cycle = s.cycle := rfl

@[simp] theorem commitIssue_cursor (op : Opcode) (rd : RegIdx) (j k : Slot) (t : Nat) (s : State) :
    (commitIssue op rd j k t s).cursor = s.cursor + 1 := rfl

@[simp] theorem commitIssue_regs (op : Opcode) (rd : RegIdx) (j k : Slot) (t : Nat) (s : State) :
    (commitIssue op rd j k t s).regs = renameReg s.regs rd t := rfl

@[simp] theorem commitIssue_stations (op : Opcode) (rd : RegIdx) (j k : Slot) (t : Nat) (s : State) :
    (commitIssue op rd j k t s).stations = s.stations.set t (issuedStation s.cfg op s.cursor j k) := rfl

@[simp] theorem commitIssue_cdbQ (op : Opcode) (rd : RegIdx) (j k : Slot) (t : Nat) (s : State) :
    (commitIssue op rd j k t s).cdbQ = s.cdbQ := rfl

@[simp] theorem commitIssue_table (op : Opcode) (rd : RegIdx) (j k : Slot) (t : Nat) (s : State) :
    (commitIssue op rd j k t s).table = stampIssue s.table s.cursor s.cycle t := rfl

@[simp] theorem commitIssue_run (op : Opcode) (rd : RegIdx) (j k : Slot) (t : Nat) (s : State) :
    (commitIssue op rd j k t s).run = s.run := rfl

@[simp] theorem commitIssue_pins (op : Opcode) (rd : RegIdx) (j k : Slot) (t : Nat) (s : State) :
    (commitIssue op rd j k t s).pins = s.pins := rfl

/-! ### `commitWriteBack` -/

@[simp] theorem commitWriteBack_cfg (w : Nat) (st : Station) (v : Word) (s : State) :
    (commitWriteBack w st v s).cfg = s.cfg := rfl

@[simp] theorem commitWriteBack_prog (w : Nat) (st : Station) (v : Word) (s : State) :
    (commitWriteBack w st v s).prog = s.prog := rfl

@[simp] theorem commitWriteBack_cycle (w : Nat) (st : Station) (v : Word) (s : State) :
    (commitWriteBack w st v s).cycle = s.cycle := rfl

@[simp] theorem commitWriteBack_cursor (w : Nat) (st : Station) (v : Word) (s : State) :
    (commitWriteBack w st v s).cursor = s.cursor := rfl

@[simp] theorem commitWriteBack_regs (w : Nat) (st : Station) (v : Word) (s : State) :
    (commitWriteBack w st v s).regs = resolveRegs s.regs w v := rfl

@[simp] theorem commitWriteBack_stations (w : Nat) (st : Station) (v : Word) (s : State) :
    (commitWriteBack w st v s).stations = releaseStation (broadcast s.stations w v) w := rfl

@[simp] theorem commitWriteBack_cdbQ (w : Nat) (st : Station) (v : Word) (s : State) :
    (commitWriteBack w st v s).cdbQ = none := rfl

@[simp] theorem commitWriteBack_table (w : Nat) (st : Station) (v : Word) (s : State) :
    (commitWriteBack w st v s).table = stampOwner s.table st.inst s.cycle := rfl

@[simp] theorem commitWriteBack_run (w : Nat) (st : Station) (v : Word) (s : State) :
    (commitWriteBack w st v s).run = s.run := rfl

@[simp] theorem commitWriteBack_pins (w : Nat) (st : Station) (v : Word) (s : State) :
    (commitWriteBack w st v s).pins = s.pins := rfl

/-! ### `executePhase` -/

@[simp] theorem executePhase_cfg (s0 s : State) :
    (executePhase s0 s).cfg = s.cfg := rfl

@[simp] theorem executePhase_prog (s0 s : State) :
    (executePhase s0 s).prog = s.prog := rfl

@[simp] theorem executePhase_cycle (s0 s : State) :
    (executePhase s0 s).cycle = s.cycle := rfl

@[simp] theorem executePhase_cursor (s0 s : State) :
    (executePhase s0 s).cursor = s.cursor := rfl

@[simp] theorem executePhase_regs (s0 s : State) :
    (executePhase s0 s).regs = s.regs := rfl

@[simp] theorem executePhase_stations (s0 s : State) :
    (executePhase s0 s).stations = tickStations s0.stations s0.cdbQ s.stations := rfl

@[simp] theorem executePhase_cdbQ (s0 s : State) :
    (executePhase s0 s).cdbQ = arbitrate (tickStations s0.stations s0.cdbQ s.stations) := rfl

@[simp] theorem executePhase_table (s0 s : State) :
    (executePhase s0 s).table = stampComplete s0.stations s0.cdbQ (tickStations s0.stations s0.cdbQ s.stations) s0.cycle s.table := rfl

@[simp] theorem executePhase_run (s0 s : State) :
    (executePhase s0 s).run = s.run := rfl

@[simp] theorem executePhase_pins (s0 s : State) :
    (executePhase s0 s).pins = s.pins := rfl

/-! ### `advancePhase` -/

@[simp] theorem advancePhase_cfg (s : State) :
    (advancePhase s).cfg = s.cfg := rfl

@[simp] theorem advancePhase_prog (s : State) :
    (advancePhase s).prog = s.prog := rfl

@[simp] theorem advancePhase_cycle (s : State) :
    (advancePhase s).cycle = s.cycle + 1 := rfl

@[simp] theorem advancePhase_cursor (s : State) :
    (advancePhase s).cursor = s.cursor := rfl

@[simp] theorem advancePhase_regs (s : State) :
    (advancePhase s).regs = s.regs := rfl

@[simp] theorem advancePhase_stations (s : State) :
    (advancePhase s).stations = s.stations := rfl

@[simp] theorem advancePhase_cdbQ (s : State) :
    (advancePhase s).cdbQ = s.cdbQ := rfl

@[simp] theorem advancePhase_table (s : State) :
    (advancePhase s).table = s.table := rfl

@[simp] theorem advancePhase_run (s : State) :
    (advancePhase s).run = if allWrittenBack s.table then .done else s.run := rfl

@[simp] theorem advancePhase_pins (s : State) :
    (advancePhase s).pins = s.pins := rfl

/-! ### `State.init` -/

@[simp] theorem init_cfg (cfg : Config.Params) (prog : ProgStore) (pins : Pins) :
    (State.init cfg prog pins).cfg = cfg := rfl

@[simp] theorem init_prog (cfg : Config.Params) (prog : ProgStore) (pins : Pins) :
    (State.init cfg prog pins).prog = prog := rfl

@[simp] theorem init_cycle (cfg : Config.Params) (prog : ProgStore) (pins : Pins) :
    (State.init cfg prog pins).cycle = 1 := rfl

@[simp] theorem init_cursor (cfg : Config.Params) (prog : ProgStore) (pins : Pins) :
    (State.init cfg prog pins).cursor = 0 := rfl

@[simp] theorem init_regs (cfg : Config.Params) (prog : ProgStore) (pins : Pins) :
    (State.init cfg prog pins).regs = initRegs cfg := rfl

@[simp] theorem init_stations (cfg : Config.Params) (prog : ProgStore) (pins : Pins) :
    (State.init cfg prog pins).stations = initStations cfg := rfl

@[simp] theorem init_cdbQ (cfg : Config.Params) (prog : ProgStore) (pins : Pins) :
    (State.init cfg prog pins).cdbQ = none := rfl

@[simp] theorem init_table (cfg : Config.Params) (prog : ProgStore) (pins : Pins) :
    (State.init cfg prog pins).table = initTable cfg := rfl

@[simp] theorem init_run (cfg : Config.Params) (prog : ProgStore) (pins : Pins) :
    (State.init cfg prog pins).run = validate cfg prog := rfl

@[simp] theorem init_pins (cfg : Config.Params) (prog : ProgStore) (pins : Pins) :
    (State.init cfg prog pins).pins = pins := rfl

end Sys2Proof.Laws
end

