-- ==== Sys2Proof/Laws/Ops.lean ====
section
/-! SUPPORT. One lemma per shared operation: what it answers, element by element, so that no later proof unfolds it. -/

namespace Sys2Proof.Laws

open Sys2Proof.Machine
open Sys2Proof.Safety

/-! ### Slots and stations -/

@[simp] theorem receive_empty (w : Nat) (v : Word) : Slot.receive w v .empty = .empty := rfl

@[simp] theorem receive_resolved (w : Nat) (v u : Word) : Slot.receive w v (.resolved u) = .resolved u := rfl

@[simp] theorem receive_pending (w : Nat) (v : Word) (t : Nat) :
    Slot.receive w v (.pending t) = if t = w then .resolved v else .pending t := rfl

@[simp] theorem isPending_empty : Slot.isPending .empty = false := rfl

@[simp] theorem isPending_resolved (v : Word) : Slot.isPending (.resolved v) = false := rfl

@[simp] theorem isPending_pending (t : Nat) : Slot.isPending (.pending t) = true := rfl

/-- A slot that does not wait is left alone by every broadcast (R29). -/
theorem receive_of_not_pending (w : Nat) (v : Word) (x : Slot) (h : x.isPending = false) : x.receive w v = x := by
  cases x <;> simp_all

/-- A slot still waits after a broadcast exactly if it waited for another station (R122). -/
theorem receive_eq_pending (w : Nat) (v : Word) (x : Slot) (u : Nat) :
    x.receive w v = .pending u ↔ x = .pending u ∧ u ≠ w := by
  cases x with
  | empty => simp
  | resolved u => simp
  | pending t => by_cases h : t = w <;> simp [h] <;> aesop

theorem receive_ne_empty (w : Nat) (v : Word) (x : Slot) : x.receive w v ≠ .empty ↔ x ≠ .empty := by
  cases x with
  | empty => simp
  | resolved u => simp
  | pending t => by_cases h : t = w <;> simp [h]

@[simp] theorem station_receive_busy (w : Nat) (v : Word) (st : Station) : (st.receive w v).busy = st.busy := by
  unfold Station.receive; split <;> simp_all

@[simp] theorem station_receive_op (w : Nat) (v : Word) (st : Station) : (st.receive w v).op = st.op := by
  unfold Station.receive; split <;> rfl

@[simp] theorem station_receive_inst (w : Nat) (v : Word) (st : Station) : (st.receive w v).inst = st.inst := by
  unfold Station.receive; split <;> rfl

@[simp] theorem station_receive_lat (w : Nat) (v : Word) (st : Station) : (st.receive w v).lat = st.lat := by
  unfold Station.receive; split <;> rfl

@[simp] theorem station_receive_elapsed (w : Nat) (v : Word) (st : Station) :
    (st.receive w v).elapsed = st.elapsed := by
  unfold Station.receive; split <;> rfl

theorem station_receive_j (w : Nat) (v : Word) (st : Station) (h : st.busy = true) :
    (st.receive w v).j = st.j.receive w v := by
  simp [Station.receive, h]

theorem station_receive_k (w : Nat) (v : Word) (st : Station) (h : st.busy = true) :
    (st.receive w v).k = st.k.receive w v := by
  simp [Station.receive, h]

theorem station_receive_of_free (w : Nat) (v : Word) (st : Station) (h : st.busy = false) : st.receive w v = st := by
  simp [Station.receive, h]

/-- A ready station is left alone by every broadcast (R125). -/
theorem station_receive_of_ready (w : Nat) (v : Word) (st : Station) (h : st.ready = true) : st.receive w v = st := by
  simp only [Station.ready, Bool.and_eq_true, Bool.not_eq_true'] at h
  simp [Station.receive, receive_of_not_pending _ _ _ h.1.2, receive_of_not_pending _ _ _ h.2]

@[simp] theorem tick_busy (st : Station) : st.tick.busy = st.busy := rfl
@[simp] theorem tick_op (st : Station) : st.tick.op = st.op := rfl
@[simp] theorem tick_inst (st : Station) : st.tick.inst = st.inst := rfl
@[simp] theorem tick_j (st : Station) : st.tick.j = st.j := rfl
@[simp] theorem tick_k (st : Station) : st.tick.k = st.k := rfl
@[simp] theorem tick_lat (st : Station) : st.tick.lat = st.lat := rfl
@[simp] theorem tick_ready (st : Station) : st.tick.ready = st.ready := rfl

/-- A tick saturates at the latency (R113). -/
theorem tick_elapsed (st : Station) : st.tick.elapsed.toNat = min (st.elapsed.toNat + 1) st.lat.toNat := by
  have := st.lat.isLt
  simp only [Station.tick, BitVec.toNat_ofNat]
  exact Nat.mod_eq_of_lt (by omega)

theorem ready_iff (st : Station) :
    st.ready = true ↔ st.busy = true ∧ st.j.isPending = false ∧ st.k.isPending = false := by
  simp [Station.ready, and_assoc]

theorem isComplete_iff (st : Station) : st.isComplete = true ↔ st.busy = true ∧ st.elapsed = st.lat := by
  simp [Station.isComplete]

/-! ### Choosing a station -/

/-- `allocate` answers the smallest free station of the class (R105). -/
theorem allocate_eq_some (cfg : Config.Params) (stations : List Station) (cls : UnitClass) (t : Nat) :
    allocate cfg stations cls = some t ↔
      t < stations.length ∧ classOf cfg t = cls ∧ (stations.getD t freeStation).busy = false ∧
        ∀ u, u < t → classOf cfg u = cls → (stations.getD u freeStation).busy = true := by
  have key : ∀ u, u < stations.length →
      ((classOf cfg u == cls && (stations[u]?.any fun st => !st.busy)) = true ↔
        classOf cfg u = cls ∧ (stations.getD u freeStation).busy = false) := by
    intro u hu
    simp [List.getElem?_eq_getElem hu]
  unfold allocate
  rw [List.find?_range_eq_some]
  constructor
  · rintro ⟨hp, hlt, hall⟩
    have hlt : t < stations.length := by simpa using hlt
    have hp := (key t hlt).mp hp
    refine ⟨hlt, hp.1, hp.2, fun u hu hc => ?_⟩
    have h := hall u hu
    by_contra hb
    have := (key u (by omega)).mpr ⟨hc, by simpa using hb⟩
    simp_all
  · rintro ⟨hlt, hc, hb, hall⟩
    refine ⟨(key t hlt).mpr ⟨hc, hb⟩, by simpa using hlt, fun u hu => ?_⟩
    by_contra h
    have h := (key u (by omega)).mp (by simpa using h)
    have hbusy := hall u hu h.1
    rw [h.2] at hbusy
    cases hbusy

/-- `allocate` answers none exactly when every station of the class is busy (R105, R109). -/
theorem allocate_eq_none (cfg : Config.Params) (stations : List Station) (cls : UnitClass) :
    allocate cfg stations cls = none ↔
      ∀ t, t < stations.length → classOf cfg t = cls → (stations.getD t freeStation).busy = true := by
  unfold allocate
  simp only [List.find?_eq_none, List.mem_range]
  refine forall_congr' fun t => forall_congr' fun ht => ?_
  simp [List.getElem?_eq_getElem ht]

/-- `arbitrate` answers the smallest complete station (R119). -/
theorem arbitrate_eq_some (stations : List Station) (t : Nat) :
    arbitrate stations = some t ↔
      t < stations.length ∧ (stations.getD t freeStation).isComplete = true ∧
        ∀ u, u < t → (stations.getD u freeStation).isComplete = false := by
  unfold arbitrate
  rw [List.findIdx?_eq_some_iff_getElem]
  constructor
  · rintro ⟨h, hc, hall⟩
    refine ⟨h, by simpa [h] using hc, fun u hu => ?_⟩
    have := hall u hu
    simpa [show u < stations.length by omega] using this
  · rintro ⟨h, hc, hall⟩
    refine ⟨h, by simpa [h] using hc, fun u hu => ?_⟩
    have := hall u hu
    simpa [show u < stations.length by omega] using this

/-- `arbitrate` answers none exactly when no station is complete (R118). -/
theorem arbitrate_eq_none (stations : List Station) :
    arbitrate stations = none ↔ ∀ t, t < stations.length → (stations.getD t freeStation).isComplete = false := by
  unfold arbitrate
  rw [List.findIdx?_eq_none_iff]
  constructor
  · intro h t ht
    simpa [ht] using h _ (List.getElem_mem ht)
  · intro h st hst
    obtain ⟨t, ht, rfl⟩ := List.mem_iff_getElem.mp hst
    simpa [ht] using h t ht

/-! ### Element by element -/

@[simp] theorem resolveRegs_length (regs : List Reg) (w : Nat) (v : Word) :
    (resolveRegs regs w v).length = regs.length := by simp [resolveRegs]

@[simp] theorem renameReg_length (regs : List Reg) (rd : RegIdx) (t : Nat) :
    (renameReg regs rd t).length = regs.length := by simp [renameReg]

@[simp] theorem broadcast_length (stations : List Station) (w : Nat) (v : Word) :
    (broadcast stations w v).length = stations.length := by simp [broadcast]

@[simp] theorem releaseStation_length (stations : List Station) (w : Nat) :
    (releaseStation stations w).length = stations.length := by simp [releaseStation]

@[simp] theorem tickStations_length (before : List Station) (w : Option Nat) (stations : List Station) :
    (tickStations before w stations).length = stations.length := by simp [tickStations]

@[simp] theorem stampIssue_length (table : List ItEntry) (n c t : Nat) :
    (stampIssue table n c t).length = table.length := by simp [stampIssue]

@[simp] theorem stampWb_length (table : List ItEntry) (n c : Nat) : (stampWb table n c).length = table.length := by
  simp [stampWb]

@[simp] theorem stampOwner_length (table : List ItEntry) (inst : Option Nat) (c : Nat) :
    (stampOwner table inst c).length = table.length := by cases inst <;> simp [stampOwner]

@[simp] theorem stampComplete_length (before : List Station) (w : Option Nat) (after : List Station) (c : Nat)
    (table : List ItEntry) : (stampComplete before w after c table).length = table.length := by simp [stampComplete]

/-- What `resolve` leaves in register i (R121). -/
theorem resolveRegs_getD (regs : List Reg) (w : Nat) (v : Word) (i : Nat) (d : Reg) (h : i < regs.length) :
    (resolveRegs regs w v).getD i d =
      if (regs.getD i d).tag = some w then { val := v, tag := none } else regs.getD i d := by
  simp [resolveRegs, List.getD_eq_getElem?_getD, List.getElem?_eq_getElem h]

/-- What `rename` leaves in register i (R108). -/
theorem renameReg_getD (regs : List Reg) (rd : RegIdx) (t i : Nat) (d : Reg) (h : i < regs.length) :
    (renameReg regs rd t).getD i d =
      if rd.toNat = i then { regs.getD i d with tag := some t } else regs.getD i d := by
  by_cases hi : rd.toNat = i <;>
    simp [renameReg, List.getD_eq_getElem?_getD, hi, List.getElem?_eq_getElem h]

/-- What phase 1 leaves in station t (R122, R124). -/
theorem release_broadcast_getD (stations : List Station) (w : Nat) (v : Word) (t : Nat) (h : t < stations.length) :
    (releaseStation (broadcast stations w v) w).getD t freeStation =
      if t = w then freeStation else (stations.getD t freeStation).receive w v := by
  by_cases ht : t = w
  · subst ht; simp [releaseStation, broadcast, List.getD_eq_getElem?_getD, h]
  · simp [releaseStation, broadcast, List.getD_eq_getElem?_getD, ht, Ne.symm ht,
      List.getElem?_eq_getElem h]

/-- What phase 3 leaves in station t (R113, R114). -/
theorem tickStations_getD (before : List Station) (w : Option Nat) (stations : List Station) (t : Nat)
    (h : t < stations.length) :
    (tickStations before w stations).getD t freeStation =
      if eligible before w t then (stations.getD t freeStation).tick else stations.getD t freeStation := by
  simp [tickStations, List.getD_eq_getElem?_getD, List.getElem?_eq_getElem h]

/-- The entry after the issue stamp (R108). -/
theorem stampIssue_getD (table : List ItEntry) (n c t m : Nat) (h : m < table.length) :
    (stampIssue table n c t).getD m blankEntry =
      if n = m then { table.getD m blankEntry with issue := some c, station := some t }
      else table.getD m blankEntry := by
  by_cases hm : n = m <;>
    simp [stampIssue, List.getD_eq_getElem?_getD, hm, List.getElem?_eq_getElem h]

/-- The entry after the write-back stamp (R123). -/
theorem stampWb_getD (table : List ItEntry) (n c m : Nat) (h : m < table.length) :
    (stampWb table n c).getD m blankEntry =
      if n = m ∧ (table.getD m blankEntry).wb = none then { table.getD m blankEntry with wb := some c }
      else table.getD m blankEntry := by
  by_cases hm : n = m <;>
    simp [stampWb, List.getD_eq_getElem?_getD, hm, List.getElem?_eq_getElem h]

/-- The entry after the completion stamps (R117). -/
theorem stampComplete_getD (before : List Station) (w : Option Nat) (after : List Station) (c : Nat)
    (table : List ItEntry) (n : Nat) (h : n < table.length) :
    (stampComplete before w after c table).getD n blankEntry =
      if (table.getD n blankEntry).complete = none ∧ completesNow before w after n = true then
        { table.getD n blankEntry with complete := some c }
      else table.getD n blankEntry := by
  simp [stampComplete, List.getD_eq_getElem?_getD, List.getElem?_eq_getElem h]

theorem completesNow_iff (before : List Station) (w : Option Nat) (after : List Station) (n : Nat) :
    completesNow before w after n = true ↔
      ∃ t, t < after.length ∧ eligible before w t = true ∧ (after.getD t freeStation).inst = some n ∧
        (after.getD t freeStation).elapsed = (after.getD t freeStation).lat := by
  simp only [completesNow, List.any_eq_true, List.mem_range, Bool.and_eq_true]
  refine exists_congr fun t => ?_
  by_cases ht : t < after.length
  · simp [ht]
  · simp [ht]

theorem eligible_iff (before : List Station) (w : Option Nat) (t : Nat) :
    eligible before w t = true ↔
      (before.getD t freeStation).ready = true ∧ w ≠ some t := by
  unfold eligible
  by_cases ht : t < before.length
  · simp [List.getElem?_eq_getElem ht]
  · have : freeStation.ready = false := rfl
    simp [List.getElem?_eq_none (Nat.le_of_not_lt ht), this]

/-- What `capture` reads from a register the file holds (R107). -/
theorem capture_eq (regs : List Reg) (r : RegIdx) (h : r.toNat < regs.length) :
    capture regs r =
      match (regs.getD r.toNat { val := 0#64, tag := none }).tag with
      | none => .resolved (regs.getD r.toNat { val := 0#64, tag := none }).val
      | some t => .pending t := by
  simp only [capture, List.getElem?_eq_getElem h, List.getD_eq_getElem?_getD, Option.getD_some]
  all_goals (cases regs[r.toNat].tag <;> rfl)

theorem allWrittenBack_iff (table : List ItEntry) :
    allWrittenBack table = true ↔ ∀ n, n < table.length → (table.getD n blankEntry).wb ≠ none := by
  simp only [allWrittenBack, List.all_eq_true]
  constructor
  · intro h n hn
    have := h _ (List.getElem_mem hn)
    rw [Option.isSome_iff_ne_none] at this
    simpa [hn] using this
  · intro h e he
    obtain ⟨n, hn, rfl⟩ := List.mem_iff_getElem.mp he
    rw [Option.isSome_iff_ne_none]
    simpa [hn] using h n hn

end Sys2Proof.Laws
end

