-- ==== Sys2Proof/Laws/Cycle.lean ====
section
/-! SUPPORT. What issue, write-back, a cycle and a step can answer, each said once. -/

namespace Sys2Proof.Laws

open Sys2Proof.Machine
open Sys2Proof.Safety

/-- Every instruction issues through the one shared operation, with its own class, fields and operands (R101, R162). -/
theorem exec_eq_issueInto (i : Instr) (s : State) :
    exec i s = issueInto i.op (usedFields i) i.rd (operandJ s.regs i) (operandK s.regs i) s := by
  cases i <;> rfl

/-- What issue answers: a stall, an unknown register, or the commit (R108, R109, R111). -/
theorem issueInto_cases (op : Opcode) (fields : List (RegField × RegIdx)) (rd : RegIdx) (j k : Slot) (s : State) :
    (allocate s.cfg s.stations op.unit = none ∧ issueInto op fields rd j k s = .next s) ∨
    (∃ t f r, allocate s.cfg s.stations op.unit = some t ∧ firstUnknown s.cfg.nregs.toNat fields = some (f, r) ∧
      issueInto op fields rd j k s = .next (raiseError s (.unknownRegister s.cursor f r))) ∨
    (∃ t, allocate s.cfg s.stations op.unit = some t ∧ firstUnknown s.cfg.nregs.toNat fields = none ∧
      issueInto op fields rd j k s = .next (commitIssue op rd j k t s)) := by
  unfold issueInto
  cases ha : allocate s.cfg s.stations op.unit with
  | none => exact .inl ⟨rfl, rfl⟩
  | some t =>
    cases hu : firstUnknown s.cfg.nregs.toNat fields with
    | none => exact .inr (.inr ⟨t, rfl, rfl, rfl⟩)
    | some f => exact .inr (.inl ⟨t, f.1, f.2, rfl, rfl, rfl⟩)

/-- `exec` always answers a next state: what it can be (R108, R109, R111). -/
theorem exec_cases (i : Instr) (s : State) :
    (allocate s.cfg s.stations i.op.unit = none ∧ exec i s = .next s) ∨
    (∃ t f r, allocate s.cfg s.stations i.op.unit = some t ∧
      firstUnknown s.cfg.nregs.toNat (usedFields i) = some (f, r) ∧
      exec i s = .next (raiseError s (.unknownRegister s.cursor f r))) ∨
    (∃ t, allocate s.cfg s.stations i.op.unit = some t ∧ firstUnknown s.cfg.nregs.toNat (usedFields i) = none ∧
      exec i s = .next (commitIssue i.op i.rd (operandJ s.regs i) (operandK s.regs i) t s)) := by
  rw [exec_eq_issueInto]
  exact issueInto_cases ..

/-- What phase 1 answers: no winner, a broadcast, or a winner that has nothing to broadcast (R101, R174). -/
theorem writeBack_cases (s : State) :
    (s.cdbQ = none ∧ writeBack s = some s) ∨
    (∃ w st v, s.cdbQ = some w ∧ s.stations[w]? = some st ∧ computeStation s.cfg.fmt st = some v ∧
      writeBack s = some (commitWriteBack w st v s)) ∨
    (∃ w, s.cdbQ = some w ∧ (∀ st, s.stations[w]? = some st → computeStation s.cfg.fmt st = none) ∧
      writeBack s = none) := by
  unfold writeBack
  cases hq : s.cdbQ with
  | none => exact .inl ⟨rfl, rfl⟩
  | some w =>
    cases hw : s.stations[w]? with
    | none => exact .inr (.inr ⟨w, rfl, by simp [hw], by simp [hw]⟩)
    | some st =>
      cases hv : computeStation s.cfg.fmt st with
      | none => exact .inr (.inr ⟨w, rfl, by simp [hw, hv], by simp [hw, hv]⟩)
      | some v => exact .inr (.inl ⟨w, st, v, rfl, hw, hv, by simp [hw, hv]⟩)

theorem computeStation_both (st : Station) (f : Word → Word → Word) (v : Word)
    (h : (st.j.value.bind fun a => st.k.value.map fun b => f a b) = some v) :
    ∃ a b, st.j = .resolved a ∧ st.k = .resolved b ∧ v = f a b := by
  cases hj : st.j <;> cases hk : st.k <;> simp_all [Slot.value]

theorem computeStation_one (st : Station) (f : Word → Word) (v : Word)
    (h : (st.j.value.map fun a => f a) = some v) : ∃ a, st.j = .resolved a ∧ v = f a := by
  cases hj : st.j <;> simp_all [Slot.value]

/-- What phase 2 answers (R106). -/
theorem issuePhase_cases (s : State) :
    (s.cfg.progLen.toNat ≤ s.cursor ∧ issuePhase s = .next s) ∨
    (∃ i, s.cursor < s.cfg.progLen.toNat ∧ fetch s = .instr i ∧ issuePhase s = exec i s) ∨
    (∃ why, s.cursor < s.cfg.progLen.toNat ∧ fetch s = .invalid why ∧
      issuePhase s = .next (raiseError s (.invalidInstruction s.cursor why))) := by
  unfold issuePhase
  by_cases hc : s.cursor < s.cfg.progLen.toNat
  · simp only [hc, if_true]
    cases hf : fetch s with
    | instr i => exact .inr (.inl ⟨i, trivial, rfl, rfl⟩)
    | invalid why => exact .inr (.inr ⟨why, trivial, rfl, rfl⟩)
  · exact .inl ⟨by omega, by simp [hc]⟩

/-- Phase 2 always answers a next state. -/
theorem issuePhase_next (s : State) : ∃ t, issuePhase s = .next t := by
  rcases issuePhase_cases s with ⟨_, h⟩ | ⟨i, _, _, h⟩ | ⟨why, _, _, h⟩
  · exact ⟨_, h⟩
  · rw [h]
    rcases exec_cases i s with ⟨_, h⟩ | ⟨t, f, r, _, _, h⟩ | ⟨t, _, _, h⟩ <;> exact ⟨_, h⟩
  · exact ⟨_, h⟩

/-- What a cycle answers: the fatal error of phase 1, or phases 1 and 2 and then the end of the cycle (R101). -/
theorem cycle_cases (s : State) :
    (writeBack s = none ∧ cycle s = .next (raiseError s .invariantViolation)) ∨
    (∃ s1 s2, writeBack s = some s1 ∧ issuePhase s1 = .next s2 ∧ cycle s = .next (finishCycle s s2)) := by
  unfold cycle
  cases hw : writeBack s with
  | none => exact .inl ⟨rfl, rfl⟩
  | some s1 =>
    obtain ⟨s2, h2⟩ := issuePhase_next s1
    exact .inr ⟨s1, s2, rfl, h2, by simp [h2]⟩

/-- A step in reset is the reset edge (R200). -/
theorem step_of_rst {s : State} (h : s.pins.rst = true) : step s = .next (resetEdge s) := by
  simp [step, h]

/-- What a step answers: a reset, a state that stays as it is, or a cycle (R37, R103). -/
theorem step_cases (s : State) :
    (s.pins.rst = true ∧ step s = .next (resetEdge s)) ∨
    (s.pins.rst = false ∧ s.run = .run ∧ step s = cycle s) ∨
    (s.pins.rst = false ∧ s.run ≠ .run ∧ step s = .next s) := by
  unfold step
  cases hr : s.pins.rst with
  | true => exact .inl ⟨rfl, rfl⟩
  | false =>
    cases hrun : s.run with
    | run => exact .inr (.inl ⟨rfl, rfl, rfl⟩)
    | done => exact .inr (.inr ⟨rfl, by simp, rfl⟩)
    | fault e => exact .inr (.inr ⟨rfl, by simp, rfl⟩)

end Sys2Proof.Laws
end

