-- ==== Sys2Proof/Laws/HostPort.lean ====
section
/-! SUPPORT. The host register map: which register each block of numbers holds, and the bits of a word put together from
fields. -/

namespace Sys2Proof.Laws

open Sys2Proof.Machine
open Sys2Proof.Safety

/-! ### Numbers (R39) -/

theorem toNat_ofNat20 (n : Nat) (h : n < 0x100000) : (BitVec.ofNat 20 n).toNat = n := by
  simp only [BitVec.toNat_ofNat]
  exact Nat.mod_eq_of_lt (by omega)

theorem ofNat8_block (k i : Nat) : BitVec.ofNat 8 (0x100 * k + i) = BitVec.ofNat 8 i := by
  apply BitVec.eq_of_toNat_eq
  simp only [BitVec.toNat_ofNat]
  omega

theorem ofNat16_block (k n : Nat) : BitVec.ofNat 16 (0x10000 * k + n) = BitVec.ofNat 16 n := by
  apply BitVec.eq_of_toNat_eq
  simp only [BitVec.toNat_ofNat]
  omega

theorem hostRegOf_cfgInit (i : Nat) (h : i < 256) : hostRegOf (BitVec.ofNat 20 (0x100 + i)) = .cfgInit (BitVec.ofNat 8 i) := by
  simp only [hostRegOf, toNat_ofNat20 _ (show 0x100 + i < 0x100000 by omega), show (0x100 + i) / 0x10000 = 0 by omega,
    show (0x100 + i) / 0x100 = 1 by omega, show BitVec.ofNat 8 (0x100 + i) = BitVec.ofNat 8 i from ofNat8_block 1 i]

theorem hostRegOf_regVal (i : Nat) (h : i < 256) : hostRegOf (BitVec.ofNat 20 (0x200 + i)) = .regVal (BitVec.ofNat 8 i) := by
  simp only [hostRegOf, toNat_ofNat20 _ (show 0x200 + i < 0x100000 by omega), show (0x200 + i) / 0x10000 = 0 by omega,
    show (0x200 + i) / 0x100 = 2 by omega, show BitVec.ofNat 8 (0x200 + i) = BitVec.ofNat 8 i from ofNat8_block 2 i]

theorem hostRegOf_regTag (i : Nat) (h : i < 256) : hostRegOf (BitVec.ofNat 20 (0x300 + i)) = .regTag (BitVec.ofNat 8 i) := by
  simp only [hostRegOf, toNat_ofNat20 _ (show 0x300 + i < 0x100000 by omega), show (0x300 + i) / 0x10000 = 0 by omega,
    show (0x300 + i) / 0x100 = 3 by omega, show BitVec.ofNat 8 (0x300 + i) = BitVec.ofNat 8 i from ofNat8_block 3 i]

theorem hostRegOf_rsCtl (i : Nat) (h : i < 256) : hostRegOf (BitVec.ofNat 20 (0x400 + i)) = .rsCtl (BitVec.ofNat 8 i) := by
  simp only [hostRegOf, toNat_ofNat20 _ (show 0x400 + i < 0x100000 by omega), show (0x400 + i) / 0x10000 = 0 by omega,
    show (0x400 + i) / 0x100 = 4 by omega, show BitVec.ofNat 8 (0x400 + i) = BitVec.ofNat 8 i from ofNat8_block 4 i]

theorem hostRegOf_rsSlots (i : Nat) (h : i < 256) : hostRegOf (BitVec.ofNat 20 (0x500 + i)) = .rsSlots (BitVec.ofNat 8 i) := by
  simp only [hostRegOf, toNat_ofNat20 _ (show 0x500 + i < 0x100000 by omega), show (0x500 + i) / 0x10000 = 0 by omega,
    show (0x500 + i) / 0x100 = 5 by omega, show BitVec.ofNat 8 (0x500 + i) = BitVec.ofNat 8 i from ofNat8_block 5 i]

theorem hostRegOf_rsJval (i : Nat) (h : i < 256) : hostRegOf (BitVec.ofNat 20 (0x600 + i)) = .rsJval (BitVec.ofNat 8 i) := by
  simp only [hostRegOf, toNat_ofNat20 _ (show 0x600 + i < 0x100000 by omega), show (0x600 + i) / 0x10000 = 0 by omega,
    show (0x600 + i) / 0x100 = 6 by omega, show BitVec.ofNat 8 (0x600 + i) = BitVec.ofNat 8 i from ofNat8_block 6 i]

theorem hostRegOf_rsKval (i : Nat) (h : i < 256) : hostRegOf (BitVec.ofNat 20 (0x700 + i)) = .rsKval (BitVec.ofNat 8 i) := by
  simp only [hostRegOf, toNat_ofNat20 _ (show 0x700 + i < 0x100000 by omega), show (0x700 + i) / 0x10000 = 0 by omega,
    show (0x700 + i) / 0x100 = 7 by omega, show BitVec.ofNat 8 (0x700 + i) = BitVec.ofNat 8 i from ofNat8_block 7 i]

theorem hostRegOf_itIssue (n : Nat) (h : n < 65536) :
    hostRegOf (BitVec.ofNat 20 (0x10000 + n)) = .itIssue (BitVec.ofNat 16 n) := by
  simp only [hostRegOf, toNat_ofNat20 _ (show 0x10000 + n < 0x100000 by omega), show (0x10000 + n) / 0x10000 = 1 by omega,
    show BitVec.ofNat 16 (0x10000 + n) = BitVec.ofNat 16 n from ofNat16_block 1 n]

theorem hostRegOf_itComplete (n : Nat) (h : n < 65536) :
    hostRegOf (BitVec.ofNat 20 (0x20000 + n)) = .itComplete (BitVec.ofNat 16 n) := by
  simp only [hostRegOf, toNat_ofNat20 _ (show 0x20000 + n < 0x100000 by omega), show (0x20000 + n) / 0x10000 = 2 by omega,
    show BitVec.ofNat 16 (0x20000 + n) = BitVec.ofNat 16 n from ofNat16_block 2 n]

theorem hostRegOf_itWb (n : Nat) (h : n < 65536) :
    hostRegOf (BitVec.ofNat 20 (0x30000 + n)) = .itWb (BitVec.ofNat 16 n) := by
  simp only [hostRegOf, toNat_ofNat20 _ (show 0x30000 + n < 0x100000 by omega), show (0x30000 + n) / 0x10000 = 3 by omega,
    show BitVec.ofNat 16 (0x30000 + n) = BitVec.ofNat 16 n from ofNat16_block 3 n]

theorem hostRegOf_itStation (n : Nat) (h : n < 65536) :
    hostRegOf (BitVec.ofNat 20 (0x40000 + n)) = .itStation (BitVec.ofNat 16 n) := by
  simp only [hostRegOf, toNat_ofNat20 _ (show 0x40000 + n < 0x100000 by omega), show (0x40000 + n) / 0x10000 = 4 by omega,
    show BitVec.ofNat 16 (0x40000 + n) = BitVec.ofNat 16 n from ofNat16_block 4 n]

/-! ### Fields (R38) -/

/-- The bits of a field put at bit `lo`. -/
theorem field_getLsbD (v width lo b : Nat) (h : lo + width ≤ 64) :
    (field v width lo).getLsbD b = (decide (lo ≤ b ∧ b < lo + width) && v.testBit (b - lo)) := by
  simp only [field, BitVec.getLsbD_ofNat, ← Nat.shiftLeft_eq, Nat.testBit_shiftLeft, Nat.testBit_mod_two_pow]
  have h64 : b < lo + width → b < 64 := by omega
  have hw : lo ≤ b → (b - lo < width ↔ b < lo + width) := by omega
  by_cases h1 : lo ≤ b <;> by_cases h2 : b < lo + width <;> simp [h1, h2, h64, hw]

/-- A word with no field is 0. -/
theorem fieldsAre_nil : FieldsAre 0#64 [] := ⟨nofun, fun _ _ => BitVec.getLsbD_zero⟩

/-- One field. -/
theorem fieldsAre_field (v width lo : Nat) (h : lo + width ≤ 64) : FieldsAre (field v width lo) [(lo, width, v)] := by
  refine ⟨fun lo' width' v' hm => ?_, fun b hb => ?_⟩
  · obtain ⟨rfl, rfl, rfl⟩ : lo' = lo ∧ width' = width ∧ v' = v := by simpa using hm
    ext i hi
    rw [BitVec.getElem_extractLsb', field_getLsbD _ _ _ _ h, ← BitVec.getLsbD_eq_getElem, BitVec.getLsbD_ofNat]
    simp [hi]
  · have := hb lo width v (by simp)
    rw [field_getLsbD _ _ _ _ h]
    have : ¬ (lo ≤ b ∧ b < lo + width) := by omega
    simp [this]

/-- Two words with fields in different places, put together. -/
theorem fieldsAre_or (w w' : Word) (fs fs' : List (Nat × Nat × Nat)) (h : FieldsAre w fs) (h' : FieldsAre w' fs')
    (hd : ∀ f ∈ fs, ∀ f' ∈ fs', f.1 + f.2.1 ≤ f'.1 ∨ f'.1 + f'.2.1 ≤ f.1) : FieldsAre (w ||| w') (fs ++ fs') := by
  refine ⟨fun lo width v hm => ?_, fun b hb => ?_⟩
  · rcases List.mem_append.mp hm with hm | hm
    · rw [← h.1 lo width v hm]
      ext i hi
      have hz : w'.getLsbD (lo + i) = false :=
        h'.2 _ fun lo' width' v' hm' => by have := hd _ hm _ hm'; simp at this; omega
      simp [hz]
    · rw [← h'.1 lo width v hm]
      ext i hi
      have hz : w.getLsbD (lo + i) = false :=
        h.2 _ fun lo' width' v' hm' => by have := hd _ hm' _ hm; simp at this; omega
      simp [hz]
  · rw [BitVec.getLsbD_or, h.2 b fun lo width v hm => hb lo width v (List.mem_append.mpr (.inl hm)),
      h'.2 b fun lo width v hm => hb lo width v (List.mem_append.mpr (.inr hm))]
    rfl

/-- A field that holds 0 need not be named. -/
theorem fieldsAre_of_append_zero {w : Word} {fs : List (Nat × Nat × Nat)} {lo width : Nat}
    (h : FieldsAre w (fs ++ [(lo, width, 0)])) : FieldsAre w fs := by
  refine ⟨fun lo' width' v' hm => h.1 _ _ _ (List.mem_append.mpr (.inl hm)), fun b hb => ?_⟩
  by_cases hc : lo ≤ b ∧ b < lo + width
  · have hz := congrArg (fun x => x.getLsbD (b - lo)) (h.1 lo width 0 (by simp))
    simp only [BitVec.getLsbD_extractLsb', BitVec.getLsbD_ofNat, Nat.zero_testBit, Bool.and_false] at hz
    rw [show lo + (b - lo) = b by omega] at hz
    simpa [show b - lo < width by omega] using hz
  · refine h.2 b fun lo' width' v' hm => ?_
    rcases List.mem_append.mp hm with hm | hm
    · exact hb _ _ _ hm
    · obtain ⟨rfl, rfl, rfl⟩ : lo' = lo ∧ width' = width ∧ v' = 0 := by simpa using hm
      omega

theorem isTag_tagView (t : Option Nat) : IsTag (tagView t) t := by
  cases t with
  | none => exact ⟨fun _ => rfl, nofun⟩
  | some u =>
    refine ⟨nofun, fun v h => ?_⟩
    cases h
    exact fieldsAre_or _ _ _ _ (fieldsAre_field 1 1 8 (by omega)) (fieldsAre_field u 8 0 (by omega)) (by simp)

theorem isStamp_stampView (c : Option Nat) : IsStamp (stampView c) c := by
  cases c with
  | none => exact ⟨fun _ => rfl, nofun⟩
  | some n =>
    refine ⟨nofun, fun v h => ?_⟩
    cases h
    exact fieldsAre_or _ _ _ _ (fieldsAre_field 1 1 63 (by omega)) (fieldsAre_field n 63 0 (by omega)) (by simp)

end Sys2Proof.Laws
end

