-- ==== Sys2Proof/Laws/PerInstr.lean ====
section
/-! SUPPORT. The per-instruction family RowMatch: the record that encodes a well-formed instruction is accepted by that
instruction's row of the match and mask table (spec 30_encoding.md R85). -/

namespace Sys2Proof.Laws.RowMatch

/-- In each format that can hold the instruction, its record matches its own row. -/
def Statement (i : Instr) : Prop := ∀ fmt, i.wf fmt = true → rowAccepts fmt i.op (encode i) = true

/-- Format R records have zeros in bits 95:32 and the opcode in bits 7:0. -/
theorem formatR_and (rs2 rs1 rd : RegIdx) (op : BitVec 8) :
    recordOf 0#64 rs2 rs1 rd op &&& 0xFFFFFFFFFFFFFFFF000000FF#96 = recordOf 0#64 0#8 0#8 0#8 op := by
  have hmask : 0xFFFFFFFFFFFFFFFF000000FF#96 =
      recordOf 0xFFFFFFFFFFFFFFFF#64 0#8 0#8 0#8 0xFF#8 := by decide
  have hop : op &&& 0xFF#8 = op := by
    have : 0xFF#8 = BitVec.allOnes 8 := by decide
    rw [this, BitVec.and_allOnes]
  rw [hmask]
  simp only [recordOf]
  rw [BitVec.and_append, BitVec.and_append, BitVec.and_append, BitVec.and_append, hop]
  simp

/-- Format S records also have zeros in bits 31:24. -/
theorem formatS_and (rs1 rd : RegIdx) (op : BitVec 8) :
    recordOf 0#64 0#8 rs1 rd op &&& 0xFFFFFFFFFFFFFFFFFF0000FF#96 = recordOf 0#64 0#8 0#8 0#8 op := by
  have hmask : 0xFFFFFFFFFFFFFFFFFF0000FF#96 =
      recordOf 0xFFFFFFFFFFFFFFFF#64 0xFF#8 0#8 0#8 0xFF#8 := by decide
  have hop : op &&& 0xFF#8 = op := by
    have : 0xFF#8 = BitVec.allOnes 8 := by decide
    rw [this, BitVec.and_allOnes]
  rw [hmask]
  simp only [recordOf]
  rw [BitVec.and_append, BitVec.and_append, BitVec.and_append, BitVec.and_append, hop]
  simp

/-- Format I records have zeros in bits 31:16, and the mask keeps of the immediate what `m` keeps. -/
theorem formatI_and (imm m : Word) (rd : RegIdx) (op : BitVec 8) (h : imm &&& m = 0#64) :
    recordOf imm 0#8 0#8 rd op &&& recordOf m 0xFF#8 0xFF#8 0#8 0xFF#8 = recordOf 0#64 0#8 0#8 0#8 op := by
  have hop : op &&& 0xFF#8 = op := by
    have : 0xFF#8 = BitVec.allOnes 8 := by decide
    rw [this, BitVec.and_allOnes]
  simp only [recordOf]
  rw [BitVec.and_append, BitVec.and_append, BitVec.and_append, BitVec.and_append, hop, h]
  simp

/-- A binary32 immediate has no bit in the reserved half (R83). -/
theorem imm_high_zero (imm : Word) (h : imm.toNat < 2 ^ 32) : imm &&& 0xFFFFFFFF00000000#64 = 0#64 := by
  have hm : 0xFFFFFFFF00000000#64 = BitVec.allOnes 32 ++ 0#32 := by decide
  have hi : imm = 0#32 ++ imm.setWidth 32 := by
    apply BitVec.eq_of_toNat_eq
    change imm.toNat = (0#32 ++ imm.setWidth 32 : BitVec (32 + 32)).toNat
    rw [BitVec.toNat_append, BitVec.toNat_setWidth, Nat.mod_eq_of_lt h]
    simp
  rw [hi, hm, BitVec.and_append]
  simp

theorem add (rd rs1 rs2 : RegIdx) : Statement (.add rd rs1 rs2) := fun _ _ => by
  simp only [rowAccepts, encode, rowMask, rowMatch, Instr.op, formatR_and]; decide

theorem sub (rd rs1 rs2 : RegIdx) : Statement (.sub rd rs1 rs2) := fun _ _ => by
  simp only [rowAccepts, encode, rowMask, rowMatch, Instr.op, formatR_and]; decide

theorem mul (rd rs1 rs2 : RegIdx) : Statement (.mul rd rs1 rs2) := fun _ _ => by
  simp only [rowAccepts, encode, rowMask, rowMatch, Instr.op, formatR_and]; decide

theorem div (rd rs1 rs2 : RegIdx) : Statement (.div rd rs1 rs2) := fun _ _ => by
  simp only [rowAccepts, encode, rowMask, rowMatch, Instr.op, formatR_and]; decide

theorem load (rd : RegIdx) (imm : Word) : Statement (.load rd imm) := fun fmt hwf => by
  cases fmt with
  | binary32 =>
    have hlt : imm.toNat < 2 ^ 32 := by simpa [Instr.wf, immFits] using hwf
    have hmask : rowMask .binary32 .load = recordOf 0xFFFFFFFF00000000#64 0xFF#8 0xFF#8 0#8 0xFF#8 := by decide
    simp only [rowAccepts, encode, Instr.op, hmask, formatI_and imm _ rd _ (imm_high_zero imm hlt), rowMatch]
    decide
  | binary64 =>
    have hmask : rowMask .binary64 .load = recordOf 0#64 0xFF#8 0xFF#8 0#8 0xFF#8 := by decide
    simp only [rowAccepts, encode, Instr.op, hmask, formatI_and imm 0#64 rd _ (by simp), rowMatch]
    decide

theorem store (rd rs1 : RegIdx) : Statement (.store rd rs1) := fun _ _ => by
  simp only [rowAccepts, encode, rowMask, rowMatch, Instr.op, formatS_and]; decide

end Sys2Proof.Laws.RowMatch
end

