-- ==== Sys2Proof/Laws/Store.lean ====
section
/-! SUPPORT. The laws of the program store: what a read gives after a write, and that a write keeps the canonical form. -/

namespace Sys2Proof.Laws

open Sys2Proof.Machine

@[simp] theorem progRead_nil (n : Nat) : progRead [] n = blankRecord := rfl

@[simp] theorem progRead_cons (m : Nat) (q : Record) (rest : ProgStore) (n : Nat) :
    progRead ((m, q) :: rest) n = if m = n then q else progRead rest n := rfl

theorem progRead_of_all_above (p : ProgStore) (n : Nat) (h : ∀ e ∈ p, n < e.1) : progRead p n = blankRecord := by
  induction p with
  | nil => rfl
  | cons e rest ih =>
    obtain ⟨m, q⟩ := e
    have hm : n < m := h (m, q) (by simp)
    rw [progRead_cons, if_neg (by omega)]
    exact ih fun e he => h e (by simp [he])

theorem progRead_progWrite_other (p : ProgStore) (n m : Nat) (r : Record) (h : m ≠ n) :
    progRead (progWrite p n r) m = progRead p m := by
  induction p with
  | nil => unfold progWrite; split <;> simp [Ne.symm h]
  | cons e rest ih =>
    obtain ⟨k, q⟩ := e
    unfold progWrite
    split
    · simp [ih]
    · split
      · split <;> simp_all [Ne.symm h]
      · split <;> simp [Ne.symm h]

theorem progRead_progWrite_same (p : ProgStore) (n : Nat) (r : Record) (h : p.Pairwise (fun a b => a.1 < b.1)) :
    progRead (progWrite p n r) n = r := by
  induction p with
  | nil => unfold progWrite; split <;> simp_all
  | cons e rest ih =>
    obtain ⟨k, q⟩ := e
    have hrest := List.pairwise_cons.mp h
    unfold progWrite
    split
    · rename_i hlt
      simp [ih hrest.2, Nat.ne_of_lt hlt]
    · split
      · rename_i heq
        split
        · rename_i hr
          rw [hr]
          exact progRead_of_all_above rest n fun e he => heq ▸ hrest.1 e he
        · simp
      · split
        · rename_i hne hr
          simp only [progRead_cons, if_neg hne, hr]
          exact progRead_of_all_above rest n fun e he => by have := hrest.1 e he; simp at this; omega
        · simp

theorem progWrite_keys (p : ProgStore) (n : Nat) (r : Record) (e : Nat × Record) (h : e ∈ progWrite p n r) :
    e ∈ p ∨ (e = (n, r) ∧ r ≠ blankRecord) := by
  induction p with
  | nil => unfold progWrite at h; split at h <;> simp_all
  | cons f rest ih =>
    obtain ⟨k, q⟩ := f
    unfold progWrite at h
    split at h
    · rcases List.mem_cons.mp h with h | h
      · exact .inl (by simp [h])
      · exact (ih h).imp (fun h => by simp [h]) id
    · split at h <;> split at h <;> simp_all <;> tauto

/-- A write of the program store keeps its canonical form. -/
theorem progWf_progWrite (p : ProgStore) (n : Nat) (r : Record) (hn : n < 65536) (h : progWf p) :
    progWf (progWrite p n r) := by
  refine ⟨?_, fun e he => ?_⟩
  · have hp := h.1
    clear h
    induction p with
    | nil => unfold progWrite; split <;> simp
    | cons f rest ih =>
      obtain ⟨k, q⟩ := f
      have hrest := List.pairwise_cons.mp hp
      unfold progWrite
      split
      · rename_i hlt
        refine List.pairwise_cons.mpr ⟨fun e he => ?_, ih hrest.2⟩
        rcases progWrite_keys rest n r e he with he | ⟨rfl, -⟩
        · exact hrest.1 e he
        · exact hlt
      · split
        · rename_i heq
          split
          · exact hrest.2
          · exact List.pairwise_cons.mpr ⟨fun e he => by have := hrest.1 e he; simp at this; simp; omega, hrest.2⟩
        · split
          · exact hp
          · refine List.pairwise_cons.mpr ⟨fun e he => ?_, hp⟩
            rcases List.mem_cons.mp he with rfl | he
            · simp; omega
            · have := hrest.1 e he; simp at this; simp; omega
  · rcases progWrite_keys p n r e he with he | ⟨rfl, hr⟩
    · exact h.2 e he
    · exact ⟨hn, hr⟩

theorem progWf_nil : progWf [] := by simp [progWf]

end Sys2Proof.Laws
end

