-- ==== Sys2Proof/Machine/Assembler.lean ====
section
/-! DEFINITION. The canonical assembly text of one instruction and the record it denotes (spec 30_encoding.md R95 to R97,
log entry 20). The engine itself reads no text: a program reaches it as records (00_scope.md R4). -/

namespace Sys2Proof.Machine

open Sys2Proof.Config

/-! ### Words of a line -/

/-- The words of a line: spaces and tabs separate them, a comma is a word of its own, a semicolon starts a comment. `w` is
the word being read, last character first. -/
def lexLine (w : List Char) (line : List Char) : List (List Char) :=
  let done := if w.isEmpty then [] else [w.reverse]
  match line with
  | [] => done
  | c :: rest =>
    if c = ';' then done
    else if c = ' ' ∨ c = '\t' then done ++ lexLine [] rest
    else if c = ',' then done ++ [','] :: lexLine [] rest
    else lexLine (c :: w) rest

/-- A lower-case letter as its capital, any other character as it is. -/
def capital (c : Char) : Char :=
  if 97 ≤ c.toNat ∧ c.toNat ≤ 122 then Char.ofNat (c.toNat - 32) else c

/-- The opcode with this mnemonic, in capitals or not (R84, R95). There is no other mnemonic (R97). -/
def opcodeOfName (w : List Char) : Option Opcode :=
  match w.map capital with
  | ['A', 'D', 'D'] => some .add
  | ['S', 'U', 'B'] => some .sub
  | ['M', 'U', 'L'] => some .mul
  | ['D', 'I', 'V'] => some .div
  | ['L', 'O', 'A', 'D'] => some .load
  | ['S', 'T', 'O', 'R', 'E'] => some .store
  | _ => none

/-! ### Numbers -/

/-- The value of a digit. -/
def digitValue (base : Nat) (c : Char) : Option Nat :=
  let n := capital c |>.toNat
  let v := if 48 ≤ n ∧ n ≤ 57 then some (n - 48) else if 65 ≤ n ∧ n ≤ 70 then some (n - 55) else none
  v.filter (· < base)

/-- The number that digits of `base` denote after the digits of `acc`; `none` where one is no digit. -/
def digitsFrom (base acc : Nat) (w : List Char) : Option Nat :=
  match w with
  | [] => some acc
  | c :: rest => (digitValue base c).bind fun v => digitsFrom base (acc * base + v) rest

/-- A nonempty row of decimal digits. -/
def decimal (w : List Char) : Option Nat :=
  if w.isEmpty then none else digitsFrom 10 0 w

/-- A sign in front of a word, true for minus, and the rest. -/
def splitSign (w : List Char) : Bool × List Char :=
  match w with
  | '-' :: rest => (true, rest)
  | '+' :: rest => (false, rest)
  | _ => (false, w)

/-- A word cut at the first character for which `p` holds; without one, the second part is `none`. -/
def cutAt (p : Char → Bool) (w : List Char) : List Char × Option (List Char) :=
  match w with
  | [] => ([], none)
  | c :: rest => if p c then ([], some rest) else ((c :: (cutAt p rest).1), (cutAt p rest).2)

/-- A decimal literal, rounded once to the format (R95): an optional sign, digits, optionally a point and digits, optionally
`e` and a signed exponent of at most four digits. -/
def decimalLiteral (fmt : Fmt) (w : List Char) : Option Word :=
  let (neg, body) := splitSign w
  let (mantissa, ex) := cutAt (fun c => capital c == 'E') body
  let (whole, frac) := cutAt (· == '.') mantissa
  let (exNeg, exDigits) := splitSign (ex.getD ['0'])
  match decimal whole, decimal (frac.getD ['0']), decimal exDigits with
  | some _, some _, some e =>
    if 4 < exDigits.length then none
    else
      (digitsFrom 10 0 (whole ++ frac.getD [])).map fun digits =>
        let num := digits * 10 ^ (if exNeg then 0 else e) * 2 ^ oneExp fmt
        let den := 10 ^ (frac.getD []).length * 10 ^ (if exNeg then e else 0)
        packFp fmt neg (roundMag fmt num den)
  | _, _, _ => none

/-- `#0x` and exactly FLEN/4 hexadecimal digits, the bit pattern itself; or `#` and a decimal literal (R95). -/
def immediate (fmt : Fmt) (w : List Char) : Option Word :=
  match w with
  | '#' :: '0' :: 'x' :: digits =>
    if digits.length = fmt.flen / 4 then (digitsFrom 16 0 digits).map (BitVec.ofNat 64) else none
  | '#' :: rest => decimalLiteral fmt rest
  | _ => none

/-! ### Registers -/

/-- The index in a default name `R<i>`: decimal, without a leading zero, of 8 bits (R96). -/
def defaultName (w : List Char) : Option Nat :=
  match w with
  | 'R' :: digits =>
    if digits.head? = some '0' ∧ 1 < digits.length then none else (decimal digits).filter (· < 256)
  | _ => none

/-- The register with this name (R96): a configured one, or a default name of an index that the configured names do not
reach, also one at or above NREGS. That this holds too when every register has a configured name is
DEDUCED (log entry 25). Of equal names the one of the lowest index counts, and a configured name counts before a default
one: DESIGN CHOICE (log entry 26). -/
def registerOfName (cfg : Params) (w : List Char) : Option RegIdx :=
  match cfg.names.findIdx? fun name => name.toList == w with
  | some i => if i < 256 then some (BitVec.ofNat 8 i) else none
  | none => ((defaultName w).filter fun i => cfg.names.length ≤ i).map (BitVec.ofNat 8)

/-! ### Instructions -/

/-- Three register operands. -/
def regs3 (cfg : Params) (f : RegIdx → RegIdx → RegIdx → Instr) (d a b : List Char) : Option Instr :=
  (registerOfName cfg d).bind fun rd => (registerOfName cfg a).bind fun rs1 => (registerOfName cfg b).map (f rd rs1)

/-- The instruction that an arithmetic opcode makes of three registers; LOAD and STORE make none. -/
def arithmetic (op : Opcode) : Option (RegIdx → RegIdx → RegIdx → Instr) :=
  match op with
  | .add => some .add
  | .sub => some .sub
  | .mul => some .mul
  | .div => some .div
  | .load => none
  | .store => none

/-- The arithmetic opcode of an operator sign, in the scenario notation (R95). -/
def opcodeOfSign (w : List Char) : Option Opcode :=
  match w with
  | ['+'] => some .add
  | ['-'] => some .sub
  | ['*'] => some .mul
  | ['/'] => some .div
  | _ => none

/-- `rd := rs1 <sign> rs2`, the scenario notation (R95). -/
def scenario (cfg : Params) (words : List (List Char)) : Option Instr :=
  match words with
  | [d, [':', '='], a, sign, b] => ((opcodeOfSign sign).bind arithmetic).bind fun f => regs3 cfg f d a b
  | _ => none

/-- The canonical forms of R95: an opcode and its operands, commas between them. -/
def canonical (cfg : Params) (op : Opcode) (words : List (List Char)) : Option Instr :=
  match op, words with
  | .load, [d, [','], x] => (registerOfName cfg d).bind fun rd => (immediate cfg.fmt x).map (.load rd)
  | .store, [d, [','], a] => (registerOfName cfg d).bind fun rd => (registerOfName cfg a).map (.store rd)
  | _, [d, [','], a, [','], b] => (arithmetic op).bind fun f => regs3 cfg f d a b
  | _, _ => none

/-- The instruction that one line denotes. A mnemonic before the scenario notation has to be that of its sign. -/
def parseLine (cfg : Params) (line : List Char) : Option Instr :=
  let words := lexLine [] line
  match words with
  | [] => none
  | m :: rest =>
    match opcodeOfName m with
    | none => scenario cfg words
    | some op => (canonical cfg op rest).or ((scenario cfg rest).filter fun i => i.op = op)

/-- The record that one line denotes; `none` where the assembler rejects the line (R95, R96). -/
def assembleLine (cfg : Params) (line : List Char) : Option Record :=
  (parseLine cfg line).map encode

end Sys2Proof.Machine
end

