-- ==== Sys2Proof/Tests/Slice0.lean ====
section
/-! SUPPORT. Tests and witnesses. Every expected result is from spec/95_test_vectors.md (its vector's name is in the
docstring) or worked out by hand from a rule. A theorem `witness_<Obligation>` shows that the hypotheses of that obligation
can all hold together. -/

namespace Sys2Proof.Tests

-- One theorem after another: in parallel, their kernel evaluations need too many threads.
set_option Elab.async false

open Sys2Proof.Config
open Sys2Proof.Machine
open Sys2Proof.Safety

/-! ## Helpers -/

/-- The state after an outcome, `s` where there is none. -/
def nextOf (o : Host.Outcome State Fault Refusal) (s : State) : State :=
  match o with
  | .next t => t
  | .fault _ => s
  | .refused _ => s

/-- The outcome is a next state. -/
def isNext (o : Host.Outcome State Fault Refusal) : Bool :=
  match o with
  | .next _ => true
  | .fault _ => false
  | .refused _ => false

theorem eq_of_isNext {o : Host.Outcome State Fault Refusal} {s : State} (h : isNext o = true) : o = .next (nextOf o s) := by
  cases o <;> simp_all [isNext, nextOf]

/-- The state after one step. -/
def after (s : State) : State := nextOf (step s) s

/-- A program store that lists these records from index `n` on. -/
def storeFrom (n : Nat) (rs : List Record) : ProgStore :=
  match rs with
  | [] => []
  | r :: rest => progWrite (storeFrom (n + 1) rest) n r

/-- The example configuration EC with a program of `n` instructions. -/
def ec (n : Nat) : Params := { powerOnConfig with progLen := BitVec.ofNat 17 n }

/-- The reset state of configuration EC and a program. -/
def boot (rs : List Record) : State := State.init (ec rs.length) (storeFrom 0 rs) idlePins

/-- Reset with one write at the host port, register `a` and data `d`. -/
def writing (a : BitVec 20) (d : Word) : State :=
  { State.reset with pins := { idlePins with rst := true, hostWe := true, hostAddr := a, hostWdata := d } }

/-- A busy station of instruction `n` with `el` cycles counted. -/
def busy (op : Opcode) (n : Nat) (j k : Slot) (el : BitVec 8) : Station :=
  { issuedStation powerOnConfig op n j k with elapsed := el }

/-- Every station of EC busy with a LOAD that waits for nothing. -/
def full (rs : List Record) : State :=
  { boot rs with stations := List.replicate 8 (busy .load 0 (.resolved 0#64) .empty 0#8) }

/-- L1-C at the end of cycle 2: the ADD counts in station 0, the MUL waits for it in station 2. -/
def raw : State :=
  { boot [0x000000000000000002000400#96, 0x000000000000000002040602#96] with
    cycle := 3
    cursor := 2
    regs := ((initRegs powerOnConfig).set 4 { val := 0#64, tag := some 0 }).set 6 { val := 0#64, tag := some 2 }
    stations := ((initStations powerOnConfig).set 0
      (busy .add 0 (.resolved 0x4018000000000000#64) (.resolved 0x400C000000000000#64) 1#8)).set 2
      (busy .mul 1 (.pending 0) (.resolved 0x400C000000000000#64) 0#8)
    table := [{ issue := some 1, complete := none, wb := none, station := some 0 },
      { issue := some 2, complete := none, wb := none, station := some 2 }] }

/-- L1-C at the end of cycle 3: the ADD is complete and latched. -/
def rawLatched : State := after raw

/-- LS1 at its end: `LOAD R1, #2.0` has written back in cycle 3. -/
def ended : State :=
  { boot [0x400000000000000000000104#96] with
    cycle := 4
    cursor := 1
    regs := (initRegs powerOnConfig).set 1 { val := 0x4000000000000000#64, tag := none }
    table := [{ issue := some 1, complete := some 2, wb := some 3, station := some 4 }]
    run := .done }

/-! ## Well-formedness -/

/-- R83: with binary32 a LOAD's immediate has 32 bits; binary64 has no such bound. The other five have no check. -/
theorem test_wf_refuses_wide_immediate :
    (Instr.load 1#8 0x100000000#64).wf .binary32 = false ∧ (Instr.load 1#8 0x0FFFFFFFF#64).wf .binary32 = true ∧
    (Instr.load 1#8 0xFFFFFFFFFFFFFFFF#64).wf .binary64 = true ∧ (Instr.add 255#8 255#8 255#8).wf .binary32 = true := by
  decide

/-! ## Encoding (L2-ENC) -/

/-- ENC1, ENC8. -/
theorem test_decode_add :
    decode .binary64 0x000000000000000002000000#96 = .instr (.add 0#8 0#8 2#8) ∧
    decode .binary64 0x0000000000000000FFFFFF00#96 = .instr (.add 255#8 255#8 255#8) := by decide

/-- ENC2. -/
theorem test_decode_sub : decode .binary64 0x000000000000000000010301#96 = .instr (.sub 3#8 1#8 0#8) := by decide

/-- ENC3. -/
theorem test_decode_mul : decode .binary64 0x000000000000000002040602#96 = .instr (.mul 6#8 4#8 2#8) := by decide

/-- ENC4. -/
theorem test_decode_div : decode .binary64 0x000000000000000002000403#96 = .instr (.div 4#8 0#8 2#8) := by decide

/-- ENC5, ENC16. -/
theorem test_decode_load :
    decode .binary64 0x400000000000000000000104#96 = .instr (.load 1#8 0x4000000000000000#64) ∧
    decode .binary32 0x000000004000000000000104#96 = .instr (.load 1#8 0x40000000#64) := by decide

/-- ENC7, ENC18. -/
theorem test_decode_store :
    decode .binary64 0x000000000000000000010705#96 = .instr (.store 7#8 1#8) ∧
    decode .binary64 0x000000000000000000030305#96 = .instr (.store 3#8 3#8) := by decide

/-- ENC9, ENC10, ENC15. -/
theorem test_decode_unknown_opcode :
    decode .binary64 0x000000000000000000000006#96 = .invalid .unknownOpcode ∧
    decode .binary64 0x0000000000000000000000FF#96 = .invalid .unknownOpcode ∧
    decode .binary64 0x000000010000000000000007#96 = .invalid .unknownOpcode := by decide

/-- ENC11 to ENC14, ENC17. -/
theorem test_decode_reserved_nonzero :
    decode .binary64 0x000000010000000002000000#96 = .invalid .reservedNonzero ∧
    decode .binary64 0x000000000000000001010705#96 = .invalid .reservedNonzero ∧
    decode .binary64 0x400000000000000000030104#96 = .invalid .reservedNonzero ∧
    decode .binary64 0x400000000000000001000104#96 = .invalid .reservedNonzero ∧
    decode .binary32 0x000000014000000000000104#96 = .invalid .reservedNonzero := by decide

/-- ENC1 to ENC7, the other way round. -/
theorem test_encode :
    encode (.add 0#8 0#8 2#8) = 0x000000000000000002000000#96 ∧ encode (.sub 3#8 1#8 0#8) = 0x000000000000000000010301#96 ∧
    encode (.mul 6#8 4#8 2#8) = 0x000000000000000002040602#96 ∧ encode (.div 4#8 0#8 2#8) = 0x000000000000000002000403#96 ∧
    encode (.load 1#8 0x8000000000000000#64) = 0x800000000000000000000104#96 ∧
    encode (.store 7#8 1#8) = 0x000000000000000000010705#96 := by decide

/-- ENC5 by the table's numbering of bits; a word of no row. -/
theorem test_decode_table_word :
    decodeTableWord 96 0x400000000000000000000104 = some (.load 1#8 0x4000000000000000#64) ∧
    decodeTableWord 96 6 = none := by decide

/-- ENC1 and ENC5 from their text, the scenario notation of R95, and a register name outside the set (R96). -/
theorem test_assemble :
    assembleLine (ec 0) "ADD R0, R0, R2".toList = some 0x000000000000000002000000#96 ∧
    assembleLine (ec 0) "load R1, #2.0 ; two".toList = some 0x400000000000000000000104#96 ∧
    assembleLine (ec 0) "LOAD R1, #0x8000000000000000".toList = some 0x800000000000000000000104#96 ∧
    assembleLine (ec 0) "R6 := R4 * R2".toList = some 0x000000000000000002040602#96 ∧
    assembleLine (ec 0) "STORE R7, Q1".toList = none ∧ assembleLine (ec 0) "MOVE R7, R1".toList = none := by
  decide +kernel

/-! ## Arithmetic (L2-ARI) -/

/-- ARI2, ARI3. -/
theorem test_fadd_rounds :
    fadd .binary64 0x3FB999999999999A#64 0x3FC999999999999A#64 = 0x3FD3333333333334#64 ∧
    fadd .binary64 0x3FF0000000000000#64 0x3CA0000000000000#64 = 0x3FF0000000000000#64 := by decide +kernel

/-- ARI4, ARI5, ARI6. -/
theorem test_fadd_corners :
    fadd .binary64 0x8000000000000000#64 0x8000000000000000#64 = 0x8000000000000000#64 ∧
    fadd .binary64 0#64 0x8000000000000000#64 = 0#64 ∧
    fadd .binary64 0x7FEFFFFFFFFFFFFF#64 0x7FEFFFFFFFFFFFFF#64 = 0x7FF0000000000000#64 := by decide +kernel

/-- (-0) - (+0) = -0 by hand from R140; ARI11, ARI13. -/
theorem test_fsub :
    fsub .binary64 0x8000000000000000#64 0#64 = 0x8000000000000000#64 ∧
    fsub .binary64 0x400C000000000000#64 0x4018000000000000#64 = 0xC004000000000000#64 ∧
    fsub .binary64 0xC014000000000000#64 0xC014000000000000#64 = 0#64 := by decide +kernel

/-- ARI16, ARI18, ARI19. -/
theorem test_fmul :
    fmul .binary64 0x7FE1CCF385EBC8A0#64 0x4024000000000000#64 = 0x7FF0000000000000#64 ∧
    fmul .binary64 0x0010000000000000#64 0x3FE0000000000000#64 = 0x0008000000000000#64 ∧
    fmul .binary64 0x0000000000000003#64 0x3FE0000000000000#64 = 0x0000000000000002#64 := by decide +kernel

/-- ARI21, ARI24, ARI28. -/
theorem test_fdiv :
    fdiv .binary64 0x4018000000000000#64 0x400C000000000000#64 = 0x3FFB6DB6DB6DB6DB#64 ∧
    fdiv .binary64 0xC018000000000000#64 0#64 = 0xFFF0000000000000#64 ∧
    fdiv .binary64 0xBFF0000000000000#64 0x7FF0000000000000#64 = 0x8000000000000000#64 := by decide +kernel

/-- ARI7, ARI14, ARI20, ARI26: the result is the free value, whatever it is. -/
theorem test_nan_results :
    fadd .binary64 0x7FF0000000000000#64 0xFFF0000000000000#64 =
      nanResult .binary64 .add 0x7FF0000000000000#64 0xFFF0000000000000#64 ∧
    fsub .binary64 0x7FF0000000000000#64 0x7FF0000000000000#64 =
      nanResult .binary64 .sub 0x7FF0000000000000#64 0x7FF0000000000000#64 ∧
    fmul .binary64 0#64 0x7FF0000000000000#64 = nanResult .binary64 .mul 0#64 0x7FF0000000000000#64 ∧
    fdiv .binary64 0#64 0#64 = nanResult .binary64 .div 0#64 0#64 := by
  refine ⟨?_, ?_, ?_, ?_⟩
  · rw [fadd, show ieeeAdd .binary64 0x7FF0000000000000#64 0xFFF0000000000000#64 = none by decide +kernel]; rfl
  · rw [fsub, show ieeeSub .binary64 0x7FF0000000000000#64 0x7FF0000000000000#64 = none by decide +kernel]; rfl
  · rw [fmul, show ieeeMul .binary64 0#64 0x7FF0000000000000#64 = none by decide +kernel]; rfl
  · rw [fdiv, show ieeeDiv .binary64 0#64 0#64 = none by decide +kernel]; rfl

/-! ## Reset and the host's view -/

/-- The reset state lists no record, and its program store is in canonical form (R50, R129). -/
theorem test_reset : State.reset.prog = [] ∧ State.reset.run = .done ∧ State.reset.cycle = 1 ∧ State.reset.cursor = 0 := by
  decide +kernel

/-- R-1, R-2. -/
theorem test_reset_view :
    hostRead (boot [0x000000000000000002000000#96]) 0x00000#20 = 0#64 ∧
    hostRead (boot [0x000000000000000002000000#96]) 0x00202#20 = 0x400C000000000000#64 ∧
    hostRead (boot [0x000000000000000002000000#96]) 0x00403#20 = 0x72#64 ∧
    hostRead (boot [0x000000000000000002000000#96]) 0x00407#20 = 0x76#64 := by decide +kernel

/-- X1, X4, X5: the registers recorded. -/
theorem test_config_errors :
    statusView (validate { ec 0 with lat := { powerOnConfig.lat with mul := 0#8 } } []) = 0x0000000000120042#64 ∧
    statusView (validate { ec 0 with nsta := ⟨100#9, 100#9, 50#9, 10#9⟩ } []) = 0x00000000001B0042#64 ∧
    statusView (validate { ec 0 with nregs := 0#9 } []) = 0x00000000001C0042#64 := by decide +kernel

/-- X7, X8. -/
theorem test_illegal_records :
    statusView (boot [0x000000000000000002000000#96, 0x000000000000000000000006#96]).run = 0x0000000100010012#64 ∧
    statusView (boot [0x000000010000000002000000#96]).run = 0x0000000200000012#64 := by decide +kernel

/-- X11: `ADD R1, R0, R200` faults in cycle 1, and the cycle is discarded. -/
theorem test_unknown_register :
    statusView (after (boot [0x0000000000000000C8000100#96])).run = 0x0000C80300000022#64 ∧
    (after (boot [0x0000000000000000C8000100#96])).cycle = 1 := by decide +kernel

/-- A write of `CFG_NREGS` in reset takes the field's bits; one of `STATUS` is ignored (R38, R39). -/
theorem test_config_write :
    (after (writing 0x0001C#20 0x2A0#64)).cfg.nregs = 0x0A0#9 ∧ (after (writing 0x00000#20 5#64)).cfg.nregs = 8#9 := by
  decide +kernel

/-! ## One cycle -/

/-- L1-A, cycle 1: the ADD issues to station 0 with both operands, then R0 is renamed; it does not count yet. -/
theorem test_add_issues :
    stationAt (after (boot [0x000000000000000002000000#96])) 0 =
      busy .add 0 (.resolved 0x4018000000000000#64) (.resolved 0x400C000000000000#64) 0#8 ∧
    regAt (after (boot [0x000000000000000002000000#96])) 0 = { val := 0x4018000000000000#64, tag := some 0 } ∧
    (after (boot [0x000000000000000002000000#96])).cursor = 1 := by decide +kernel

/-- `SUB R3, R0, R2` issues to station 0 with the first source in slot j (R144). -/
theorem test_sub_issues :
    stationAt (after (boot [0x000000000000000002000301#96])) 0 =
      busy .sub 0 (.resolved 0x4018000000000000#64) (.resolved 0x400C000000000000#64) 0#8 := by decide +kernel

/-- L3-P3, cycle 1: the MUL issues to station 2, the first of MulDiv. -/
theorem test_mul_issues :
    stationAt (after (boot [0x000000000000000002000102#96])) 2 =
      busy .mul 0 (.resolved 0x4018000000000000#64) (.resolved 0x400C000000000000#64) 0#8 := by decide +kernel

/-- L1-D, cycle 1, with R2 = 3.5. -/
theorem test_div_issues :
    stationAt (after (boot [0x000000000000000002000403#96])) 2 =
      busy .div 0 (.resolved 0x4018000000000000#64) (.resolved 0x400C000000000000#64) 0#8 := by decide +kernel

/-- L3-P1, cycle 1: the LOAD issues to station 4 with its immediate; R1 keeps its value. -/
theorem test_load_issues :
    stationAt (after (boot [0x400000000000000000000104#96])) 4 = busy .load 0 (.resolved 0x4000000000000000#64) .empty 0#8 ∧
    regAt (after (boot [0x400000000000000000000104#96])) 1 = { val := 0#64, tag := some 4 } := by decide +kernel

/-- LS4, cycle 1. -/
theorem test_store_issues :
    stationAt (after (boot [0x000000000000000000020705#96])) 6 = busy .store 0 (.resolved 0x400C000000000000#64) .empty 0#8 ∧
    regAt (after (boot [0x000000000000000000020705#96])) 7 = { val := 0#64, tag := some 6 } := by decide +kernel

/-- L1-C, cycle 3: station 0 reaches its latency, is stamped and latched; station 2 waits. -/
theorem test_completes :
    (stationAt rawLatched 0).elapsed = 2#8 ∧ (entryAt rawLatched 0).complete = some 3 ∧ rawLatched.cdbQ = some 0 ∧
    (stationAt rawLatched 2).elapsed = 0#8 := by decide +kernel

/-- L1-C, cycle 4: the broadcast of 9.5 reaches R4 and the MUL, station 0 is free, station 2 does not count yet. -/
theorem test_writes_back :
    regAt (after rawLatched) 4 = { val := 0x4023000000000000#64, tag := none } ∧
    stationAt (after rawLatched) 2 = busy .mul 1 (.resolved 0x4023000000000000#64) (.resolved 0x400C000000000000#64) 0#8 ∧
    stationAt (after rawLatched) 0 = freeStation ∧ (entryAt (after rawLatched) 0).wb = some 4 := by decide +kernel

/-- R125: what `compute` returns for LOAD and STORE is the operand, a signalling NaN included (LS3). -/
theorem test_load_store_pass_patterns :
    computeStation .binary64 (busy .load 0 (.resolved 0x7FF4000000000001#64) .empty 1#8) = some 0x7FF4000000000001#64 ∧
    computeStation .binary64 (busy .store 0 (.resolved 0x7FF8DEADBEEF0000#64) .empty 1#8) = some 0x7FF8DEADBEEF0000#64 := by
  decide +kernel

/-- A record placed by `withFetchWord` runs as the first instruction after reset. -/
theorem test_with_fetch_word :
    stationAt (after (State.reset.withFetchWord 96 0x400000000000000000000104)) 4 =
      busy .load 0 (.resolved 0x4000000000000000#64) .empty 0#8 := by decide +kernel

/-! ## Witnesses: the invariants hold in concrete states -/

theorem not_fault {s : State} (h : s.run = .run) (e : EngineError) : s.run ≠ .fault e := by simp [h]

theorem legal_ec : LegalConfig (ec 0) :=
  ⟨fun op => by cases op <;> decide +kernel, fun cls => by cases cls <;> decide +kernel, by decide +kernel,
    by decide +kernel, by decide +kernel, by decide +kernel⟩

/-- The busy stations of `raw`. -/
theorem raw_busy : ∀ t, t < raw.stations.length → (stationAt raw t).busy = true → t = 0 ∨ t = 2 := by decide +kernel

theorem raw_station_0 : stationAt raw 0 =
    busy .add 0 (.resolved 0x4018000000000000#64) (.resolved 0x400C000000000000#64) 1#8 := by decide +kernel

theorem raw_station_2 : stationAt raw 2 = busy .mul 1 (.pending 0) (.resolved 0x400C000000000000#64) 0#8 := by
  decide +kernel

theorem raw_instr_0 : instrAt raw.cfg raw.prog 0 = some (.add 4#8 0#8 2#8) := by decide +kernel

theorem raw_instr_1 : instrAt raw.cfg raw.prog 1 = some (.mul 6#8 4#8 2#8) := by decide +kernel

theorem raw_index (n : Nat) (h : n < raw.cursor) : n = 0 ∨ n = 1 := by
  have : n < 2 := h
  omega

theorem raw_tags : ∀ i, i < raw.regs.length → (regAt raw i).tag =
    (lastWriter raw.cfg raw.prog raw.cursor i).bind fun n => (entryAt raw n).station := by decide +kernel

theorem raw_unwritten (n : Nat) : (entryAt raw n).wb = none := by
  match n with
  | 0 => rfl
  | 1 => rfl
  | _ + 2 => rfl

theorem coherent_raw : Coherent raw where
  regs_length := by decide +kernel
  stations_length := by decide +kernel
  table_length := by decide +kernel
  cursor_le := by decide +kernel
  validated := fun _ => by decide +kernel
  unfinished := fun _ => by decide +kernel
  finished := fun h => absurd h (by decide +kernel)
  in_flight := fun _ _ => ⟨0, by decide +kernel⟩
  free_station := by decide +kernel
  busy_station := by
    intro t ht hb
    rcases raw_busy t ht hb with rfl | rfl
    · exact ⟨0, _, by decide +kernel, by decide +kernel, raw_instr_0, ⟨by decide +kernel, by decide +kernel⟩,
        by decide +kernel, by decide +kernel, by decide +kernel, by rw [raw_station_0]; exact ⟨nofun, nofun⟩,
        by decide +kernel, by decide +kernel, by decide +kernel, by decide +kernel, by decide +kernel, by decide +kernel⟩
    · exact ⟨1, _, by decide +kernel, by decide +kernel, raw_instr_1, ⟨by decide +kernel, by decide +kernel⟩,
        by decide +kernel, by decide +kernel, by decide +kernel, by rw [raw_station_2]; exact ⟨nofun, nofun⟩,
        by decide +kernel, by decide +kernel, by decide +kernel, by decide +kernel, by decide +kernel, by decide +kernel⟩
  waits := by
    intro t ht hb
    rcases raw_busy t ht hb with rfl | rfl
    · rw [raw_station_0]
      exact ⟨nofun, nofun⟩
    · rw [raw_station_2]
      refine ⟨fun u hu => ?_, nofun⟩
      cases hu
      exact ⟨by decide +kernel, by decide +kernel, 0, 1, by decide +kernel, rfl, by decide⟩
  issued_entry := by
    intro n hn
    rcases raw_index n hn with rfl | rfl
    · exact ⟨by decide +kernel, 0, by decide +kernel, fun _ => by decide +kernel⟩
    · exact ⟨by decide +kernel, 2, by decide +kernel, fun _ => by decide +kernel⟩
  waiting_entry := by
    intro n hn
    exact List.getD_eq_default _ _ hn
  stamps := by
    intro n hn
    rcases raw_index n hn with rfl | rfl
    · simp [StampsOrdered, entryAt, raw]
    · simp [StampsOrdered, entryAt, raw]
  tags := by
    intro i hi t
    rw [raw_tags i hi]
    simp [Option.bind_eq_some_iff, raw_unwritten]
  latch := by decide +kernel

theorem faithful_raw : Faithful raw where
  regs := by decide +kernel
  slots := by
    intro t ht hb n i hn hi
    rcases raw_busy t ht hb with rfl | rfl
    · rw [raw_station_0] at hn
      cases hn
      rw [raw_instr_0] at hi
      cases hi
      rw [raw_station_0]
      exact ⟨show _ = _ by decide +kernel, show _ = _ by decide +kernel⟩
    · rw [raw_station_2] at hn
      cases hn
      rw [raw_instr_1] at hi
      cases hi
      rw [raw_station_2]
      exact ⟨⟨by decide +kernel, by decide +kernel⟩, show _ = _ by decide +kernel⟩

theorem ended_tags : ∀ i, i < ended.regs.length → (regAt ended i).tag = none := by decide +kernel

theorem ended_free : ∀ t, t < ended.stations.length → stationAt ended t = freeStation := by decide +kernel

theorem ended_written : ∀ i, i < ended.regs.length → ∀ n, lastWriter ended.cfg ended.prog ended.cursor i = some n →
    (entryAt ended n).wb ≠ none := by
  intro i hi n hn
  have h : ∀ i, i < ended.regs.length →
      ((lastWriter ended.cfg ended.prog ended.cursor i).all fun n => (entryAt ended n).wb.isSome) = true := by
    decide +kernel
  have := h i hi
  rw [hn] at this
  intro hw
  simp [hw] at this

theorem coherent_ended : Coherent ended where
  regs_length := by decide +kernel
  stations_length := by decide +kernel
  table_length := by decide +kernel
  cursor_le := by decide +kernel
  validated := fun h => absurd h (by decide +kernel)
  unfinished := fun h => absurd h (by decide +kernel)
  finished := fun _ => by decide +kernel
  in_flight := fun h => absurd h (by decide +kernel)
  free_station := fun t ht _ => ended_free t ht
  busy_station := fun t ht hb => by rw [ended_free t ht] at hb; cases hb
  waits := fun t ht hb => by rw [ended_free t ht] at hb; cases hb
  issued_entry := by
    intro n hn
    have h0 : n = 0 := Nat.lt_one_iff.mp hn
    subst h0
    exact ⟨by decide +kernel, 4, by decide +kernel, fun h => absurd h (by decide +kernel)⟩
  waiting_entry := by
    intro n hn
    exact List.getD_eq_default _ _ hn
  stamps := by
    intro n hn
    have h0 : n = 0 := Nat.lt_one_iff.mp hn
    subst h0
    simp [StampsOrdered, entryAt, ended]
  tags := by
    intro i hi t
    rw [ended_tags i hi]
    refine ⟨nofun, fun ⟨n, hn, hw, _⟩ => absurd hw (ended_written i hi n hn)⟩
  latch := by decide +kernel

theorem faithful_ended : Faithful ended where
  regs := by decide +kernel
  slots := fun t ht hb => by rw [ended_free t ht] at hb; cases hb

/-- The first state of `LOAD R1, #2.0`. -/
theorem coherent_boot : Coherent (boot [0x400000000000000000000104#96]) where
  regs_length := by decide +kernel
  stations_length := by decide +kernel
  table_length := by decide +kernel
  cursor_le := by decide +kernel
  validated := fun _ => by decide +kernel
  unfinished := fun _ => by decide +kernel
  finished := fun h => absurd h (by decide +kernel)
  in_flight := fun _ h => absurd h (by decide +kernel)
  free_station := by decide +kernel
  busy_station := fun t ht hb => absurd hb ((by decide +kernel : ∀ t, t < 8 →
    ¬ (stationAt (boot [0x400000000000000000000104#96]) t).busy = true) t ht)
  waits := fun t ht hb => absurd hb ((by decide +kernel : ∀ t, t < 8 →
    ¬ (stationAt (boot [0x400000000000000000000104#96]) t).busy = true) t ht)
  issued_entry := fun n hn => absurd hn (Nat.not_lt_zero n)
  waiting_entry := fun n _ => by
    match n with
    | 0 => rfl
    | _ + 1 => rfl
  stamps := fun n hn => absurd hn (Nat.not_lt_zero n)
  tags := by
    intro i hi t
    have h : ∀ i, i < 8 → (regAt (boot [0x400000000000000000000104#96]) i).tag = none := by decide +kernel
    rw [h i hi]
    exact ⟨nofun, fun ⟨n, hn, _⟩ => by cases hn⟩
  latch := by decide +kernel

theorem valuesFit_raw : ValuesFit raw where
  regs := by unfold FitsFmt; decide +kernel
  slots := by
    have h : ∀ st ∈ raw.stations, (st.j.value.all fun v => lowFlen raw.cfg.fmt v == v) = true ∧
        (st.k.value.all fun v => lowFlen raw.cfg.fmt v == v) = true := by decide +kernel
    intro st hst
    refine ⟨fun v hv => ?_, fun v hv => ?_⟩
    · have := (h st hst).1
      rw [hv] at this
      simpa [Slot.value, FitsFmt] using this
    · have := (h st hst).2
      rw [hv] at this
      simpa [Slot.value, FitsFmt] using this

/-! ## Witnesses: one for each obligation with hypotheses, with a state or operands for every clause -/

/-- Every step below answers its `after` state. -/
theorem boot_steps : step (boot [0x400000000000000000000104#96]) = .next (after (boot [0x400000000000000000000104#96])) :=
  eq_of_isNext (by decide +kernel)

theorem raw_steps : step raw = .next rawLatched := eq_of_isNext (s := raw) (by decide +kernel)

theorem rawLatched_steps : step rawLatched = .next (after rawLatched) := eq_of_isNext (by decide +kernel)

theorem ended_steps : step ended = .next ended := rfl

/-- `ADD R1, R0, R200`, about to fault. -/
theorem faulting_steps : step (boot [0x0000000000000000C8000100#96]) =
    .next (after (boot [0x0000000000000000C8000100#96])) :=
  eq_of_isNext (by decide +kernel)

theorem witness_DecodeOfEncodeIsTheInstruction :
    (Instr.load 255#8 0xFFFFFFFF#64).wf .binary32 = true ∧ (Instr.load 0#8 0xFFFFFFFFFFFFFFFF#64).wf .binary64 = true ∧
    (Instr.store 255#8 255#8).wf .binary32 = true ∧ (Instr.div 0#8 255#8 1#8).wf .binary64 = true := by decide

theorem witness_EncodeOfDecodeIsTheRecord :
    decode .binary32 0x00000000FFFFFFFF0000FF04#96 = .instr (.load 255#8 0xFFFFFFFF#64) := by decide

theorem witness_ResetEdgeLeavesResetValues : (writing 0x10#20 1#64).pins.rst = true := rfl

theorem witness_EmptyProgramIsDoneAtReset :
    LegalConfig (ec 0) ∧ (ec 0).progLen.toNat = 0 ∧ idlePins.rst = false := ⟨legal_ec, by decide +kernel, rfl⟩

theorem witness_ProgramAndConfigurationAreImmutable : raw.pins.rst = false ∧ step raw = .next rawLatched :=
  ⟨rfl, raw_steps⟩

theorem witness_ProgramStoreStaysCanonical : progWf raw.prog ∧ step raw = .next rawLatched :=
  ⟨by decide +kernel, raw_steps⟩

theorem witness_PortsAreIgnoredWhileRunning :
    raw.pins.rst = false ∧ { idlePins with hostWe := true, progWe := true, progAddr := 1#16 }.rst = false ∧
    step raw = .next rawLatched := ⟨rfl, rfl, raw_steps⟩

/-- An edge with a write, of any register, and one without. -/
theorem witness_ConfigurationWritesLandInReset (a : BitVec 20) (d : Word) :
    ((writing a d).pins.rst = true ∧ (writing a d).pins.hostAddr = a ∧ (writing a d).pins.hostWdata = d ∧
      (writing a d).pins.hostWe = true ∧ ∃ t, step (writing a d) = .next t) ∧
    ∃ s t : State, s.pins.rst = true ∧ s.pins.hostAddr = a ∧ s.pins.hostWdata = d ∧ s.pins.hostWe = false ∧
      step s = .next t :=
  ⟨⟨rfl, rfl, rfl, rfl, _, Laws.step_of_rst rfl⟩,
    { State.reset with pins := { idlePins with rst := true, hostAddr := a, hostWdata := d } }, _, rfl, rfl, rfl, rfl,
    Laws.step_of_rst rfl⟩

/-- Numbers at both ends of the blocks of configuration registers, and next to them. -/
theorem witness_ConfigurationWritesLandInReset_bounds :
    (0x100#20 = BitVec.ofNat 20 (0x100 + 0) ∧ 0x1FF#20 = BitVec.ofNat 20 (0x100 + 255)) ∧
    ∀ a ∈ [0x0F#20, 0x16#20, 0x17#20, 0x1E#20, 0xFF#20, 0x200#20, 0xFFFFF#20], ¬ (0x10 ≤ a.toNat ∧ a.toNat ≤ 0x15) ∧
      ¬ (0x18 ≤ a.toNat ∧ a.toNat ≤ 0x1D) ∧ ¬ (0x100 ≤ a.toNat ∧ a.toNat ≤ 0x1FF) := by simp

theorem witness_ProgramWritesLandInReset : ∃ s t : State, s.pins.rst = true ∧ s.pins.progWe = true ∧ progWf s.prog ∧
    s.pins.progAddr = 0xFFFF#16 ∧ step s = .next t :=
  ⟨{ State.reset with pins := { idlePins with rst := true, progWe := true, progAddr := 0xFFFF#16, progWdata := 5#96 } },
    _, rfl, rfl, by decide +kernel, rfl, rfl⟩

theorem witness_HostReadsShowTheState :
    7 < raw.cfg.nregs.toNat ∧ 7 < raw.regs.length ∧ 7 < raw.stations.length ∧ 1 < raw.table.length ∧
    raw.cdbQ = none ∧ rawLatched.cdbQ = some 0 ∧ (entryAt raw 1).issue = some 2 ∧ (entryAt raw 1).wb = none ∧
    (stationAt raw 2).j = .pending 0 := by decide +kernel

/-- Numbers at the ends of the undefined ranges, and the first index beyond every size of `raw`. -/
theorem witness_UnusedHostNumbersReadZero :
    (∀ a ∈ [0x04#20, 0x0F#20, 0x16#20, 0x17#20, 0x1E#20, 0xFF#20, 0x800#20, 0xFFFF#20, 0x50000#20, 0xFFFFF#20],
      (0x04 ≤ a.toNat ∧ a.toNat ≤ 0x0F) ∨ (0x16 ≤ a.toNat ∧ a.toNat ≤ 0x17) ∨ (0x1E ≤ a.toNat ∧ a.toNat ≤ 0xFF) ∨
        (0x800 ≤ a.toNat ∧ a.toNat ≤ 0xFFFF) ∨ 0x50000 ≤ a.toNat) ∧
    Coherent raw ∧ raw.cfg.nregs.toNat ≤ 8 ∧ raw.regs.length ≤ 8 ∧ raw.stations.length ≤ 8 ∧ raw.table.length ≤ 2 ∧
    raw.cfg.progLen.toNat ≤ 2 := ⟨by simp, coherent_raw, by decide +kernel⟩

/-- A cycle that is kept. -/
theorem witness_StepRunsTheDecodedInstruction : ∃ s s2 i, s.pins.rst = false ∧ s.run = .run ∧ writeBack s = some s ∧
    s.cursor < s.cfg.progLen.toNat ∧ decode s.cfg.fmt (progRead s.prog s.cursor) = .instr i ∧ exec i s = .next s2 ∧
    ∀ e, s2.run ≠ .fault e :=
  ⟨boot [0x400000000000000000000104#96],
    nextOf (exec (.load 1#8 0x4000000000000000#64) (boot [0x400000000000000000000104#96])) State.reset,
    .load 1#8 0x4000000000000000#64, rfl, by decide +kernel, rfl, by decide +kernel, by decide +kernel,
    eq_of_isNext (by decide +kernel), not_fault (by decide +kernel)⟩

/-- A cycle that a fatal error discards. -/
theorem witness_StepRunsTheDecodedInstruction_fault : ∃ s s2 i e, s.pins.rst = false ∧ s.run = .run ∧
    writeBack s = some s ∧ s.cursor < s.cfg.progLen.toNat ∧ decode s.cfg.fmt (progRead s.prog s.cursor) = .instr i ∧
    exec i s = .next s2 ∧ s2.run = .fault e :=
  ⟨boot [0x0000000000000000C8000100#96],
    nextOf (exec (.add 1#8 0#8 200#8) (boot [0x0000000000000000C8000100#96])) State.reset,
    .add 1#8 0#8 200#8, .unknownRegister 0 .rs2 200#8, rfl, by decide +kernel, rfl, by decide +kernel, by decide +kernel,
    eq_of_isNext (by decide +kernel), by decide +kernel⟩

/-- X3, X5: the lower number is recorded, and a register at the end of the map. -/
theorem witness_FirstFailingConfigurationRegister :
    validate { ec 0 with lat := { powerOnConfig.lat with mul := 0#8 }, nsta := { powerOnConfig.nsta with store := 0#9 } } [] =
      .fault (.configError 0x12) ∧
    validate { ec 0 with nregs := 257#9 } [] = .fault (.configError 0x1C) ∧
    validate { ec 0 with progLen := 65536#17 } [] = .fault (.configError 0x1D) ∧
    validate { ec 0 with nsta := ⟨100#9, 100#9, 50#9, 7#9⟩ } [] = .fault (.configError 0x1B) ∧
    validate { ec 0 with nsta := ⟨100#9, 100#9, 50#9, 6#9⟩ } [] = .done := by decide +kernel

/-- A reset edge, a quiet one, a committed cycle and a discarded one. -/
theorem witness_ClockEdgesAreWholeCycles :
    (writing 0#20 0#64).pins.rst = true ∧ (ended.pins.rst = false ∧ ended.run ≠ .run ∧ step ended = .next ended) ∧
    (raw.pins.rst = false ∧ raw.run = .run ∧ step raw = .next rawLatched ∧ rawLatched.cycle = raw.cycle + 1) ∧
    ∃ t, (boot [0x0000000000000000C8000100#96]).run = .run ∧ step (boot [0x0000000000000000C8000100#96]) = .next t ∧
      t.run = .fault (.unknownRegister 0 .rs2 200#8) :=
  ⟨rfl, ⟨rfl, by decide +kernel, ended_steps⟩, ⟨rfl, by decide +kernel, raw_steps, by decide +kernel⟩, _,
    by decide +kernel, faulting_steps, by decide +kernel⟩

/-- A cycle with an issue and one without. -/
theorem witness_CursorAdvancesWithIssue :
    (Coherent (boot [0x400000000000000000000104#96]) ∧
      step (boot [0x400000000000000000000104#96]) = .next (after (boot [0x400000000000000000000104#96])) ∧
      (after (boot [0x400000000000000000000104#96])).cursor = 1) ∧
    (Coherent raw ∧ raw.pins.rst = false ∧ step raw = .next rawLatched ∧ rawLatched.cursor = raw.cursor) :=
  ⟨⟨coherent_boot, boot_steps, by decide +kernel⟩, coherent_raw, rfl, raw_steps, by decide +kernel⟩

theorem witness_FaultingCycleIsDiscarded : ∃ s t e, s.pins.rst = false ∧ s.run = .run ∧ step s = .next t ∧
    t.run = .fault e :=
  ⟨_, _, .unknownRegister 0 .rs2 200#8, rfl, by decide +kernel, faulting_steps, by decide +kernel⟩

/-- A cycle that stamps an issue and one that stamps a write-back. -/
theorem witness_OneIssueAndOneWriteBackPerCycle :
    (entryAt (after (boot [0x400000000000000000000104#96])) 0).issue ≠
      (entryAt (boot [0x400000000000000000000104#96]) 0).issue ∧
    rawLatched.pins.rst = false ∧ (entryAt (after rawLatched) 0).wb ≠ (entryAt rawLatched 0).wb := by decide +kernel

theorem witness_StampsAreSetOnce :
    Coherent raw ∧ raw.pins.rst = false ∧ step raw = .next rawLatched ∧ (entryAt raw 1).issue ≠ none ∧
    (entryAt raw 1).station ≠ none ∧ Coherent ended ∧ ended.pins.rst = false ∧ step ended = .next ended ∧
    (entryAt ended 0).complete ≠ none ∧ (entryAt ended 0).wb ≠ none :=
  ⟨coherent_raw, rfl, raw_steps, by decide +kernel, by decide +kernel, coherent_ended, rfl, ended_steps,
    by decide +kernel, by decide +kernel⟩

/-- The first station of every class is free in the first state; the last declared register is 7. -/
theorem firstFree_boot : FirstFree (boot []) .addSub 0 ∧ FirstFree (boot []) .mulDiv 2 ∧ FirstFree (boot []) .load 4 ∧
    FirstFree (boot []) .store 6 := by
  unfold FirstFree
  decide +kernel

theorem witness_ArithmeticIssues : (7#8 : RegIdx).toNat < (boot []).cfg.nregs.toNat ∧ FirstFree (boot []) .addSub 0 ∧
    FirstFree (boot []) .mulDiv 2 := ⟨by decide +kernel, firstFree_boot.1, firstFree_boot.2.1⟩

theorem witness_LoadIssues : FirstFree (boot []) .load 4 ∧ (7#8 : RegIdx).toNat < (boot []).cfg.nregs.toNat :=
  ⟨firstFree_boot.2.2.1, by decide +kernel⟩

theorem witness_StoreIssues : FirstFree (boot []) .store 6 ∧ (7#8 : RegIdx).toNat < (boot []).cfg.nregs.toNat ∧
    (0#8 : RegIdx).toNat < (boot []).cfg.nregs.toNat := ⟨firstFree_boot.2.2.2, by decide +kernel, by decide +kernel⟩

/-- An issue, a stall and an unknown register. -/
theorem witness_IssueChangesNothingElse :
    (∃ t, exec (.mul 1#8 2#8 3#8) (boot []) = .next t ∧ t.cursor = 1) ∧
    (∃ t, exec (.mul 1#8 2#8 3#8) (full []) = .next t ∧ t.cursor = 0) ∧
    (∃ t, exec (.store 8#8 2#8) (boot []) = .next t ∧ t.run ≠ (boot []).run) :=
  ⟨⟨nextOf (exec (.mul 1#8 2#8 3#8) (boot [])) State.reset, eq_of_isNext (by decide +kernel), by decide +kernel⟩,
    ⟨nextOf (exec (.mul 1#8 2#8 3#8) (full [])) State.reset, eq_of_isNext (by decide +kernel), by decide +kernel⟩,
    ⟨nextOf (exec (.store 8#8 2#8) (boot [])) State.reset, eq_of_isNext (by decide +kernel), by decide +kernel⟩⟩

theorem witness_StallIsTheOnlyWait :
    (full [0x000000000000000002000000#96]).run = .run ∧
    (∀ t, t < (full [0x000000000000000002000000#96]).stations.length →
      (stationAt (full [0x000000000000000002000000#96]) t).busy = true) ∧
    raw.run = .run ∧ (stationAt raw 1).busy = false := by decide +kernel

/-- The first field fails, and the last one does where the others pass. -/
theorem witness_UnknownRegisterIsRaisedAtIssue :
    (FirstFree (boot []) (Instr.load 8#8 0#64).op.unit 4 ∧ (usedFields (.load 8#8 0#64))[0]? = some (.rd, 8#8) ∧
      (boot []).cfg.nregs.toNat ≤ (8#8 : RegIdx).toNat) ∧
    (FirstFree (boot []) (Instr.add 7#8 7#8 255#8).op.unit 0 ∧ (usedFields (.add 7#8 7#8 255#8))[2]? = some (.rs2, 255#8) ∧
      ∀ m, m < 2 → ((usedFields (.add 7#8 7#8 255#8))[m]?.all fun c => c.2.toNat < (boot []).cfg.nregs.toNat) = true) :=
  ⟨⟨firstFree_boot.2.2.1, by decide, by decide +kernel⟩, firstFree_boot.1, by decide, by decide +kernel⟩

theorem witness_CaptureIsValueOrTag :
    (7#8 : RegIdx).toNat < raw.regs.length ∧ (regAt raw 7).tag = none ∧ (4#8 : RegIdx).toNat < raw.regs.length ∧
    (regAt raw 4).tag = some 0 := by decide +kernel

theorem witness_ComputeAppliesTheOpcode (op : Opcode) :
    (busy op 0 (.resolved 1#64) (.resolved 2#64) 0#8).j = .resolved 1#64 ∧
    (busy op 0 (.resolved 1#64) (.resolved 2#64) 0#8).k = .resolved 2#64 ∧
    (busy op 0 (.resolved 1#64) (.resolved 2#64) 0#8).op = some op := ⟨rfl, rfl, rfl⟩

/-- The winner of `rawLatched` and its result 9.5. -/
theorem winner : rawLatched.cdbQ = some 0 ∧ rawLatched.stations[0]? = some (stationAt rawLatched 0) ∧
    computeStation rawLatched.cfg.fmt (stationAt rawLatched 0) = some 0x4023000000000000#64 := by decide +kernel

theorem witness_BroadcastResolvesTaggedRegisters :
    rawLatched.cdbQ = some 0 ∧ (regAt rawLatched 4).tag = some 0 ∧ (regAt rawLatched 6).tag ≠ some 0 :=
  ⟨winner.1, by decide +kernel, by decide +kernel⟩

theorem witness_BroadcastFillsWaitingSlots :
    rawLatched.cdbQ = some 0 ∧ (stationAt rawLatched 1).busy = false ∧ (stationAt rawLatched 2).busy = true ∧
    (stationAt rawLatched 2).j = .pending 0 := ⟨winner.1, by decide +kernel, by decide +kernel, by decide +kernel⟩

theorem witness_WriteBackStampsTheOwner :
    rawLatched.cdbQ = some 0 ∧ (stationAt rawLatched 0).inst = some 0 ∧ 0 < rawLatched.table.length ∧
    (entryAt rawLatched 0).wb = none ∧ (stationAt rawLatched 0).inst ≠ some 1 :=
  ⟨winner.1, by decide +kernel, by decide +kernel, by decide +kernel, by decide +kernel⟩

theorem witness_ResultReachesItsRegisters :
    rawLatched.pins.rst = false ∧ rawLatched.run = .run ∧ rawLatched.cdbQ = some 0 ∧
    (∀ e, (after rawLatched).run ≠ .fault e) ∧ 4 < rawLatched.regs.length ∧ (regAt rawLatched 4).tag = some 0 :=
  ⟨rfl, by decide +kernel, winner.1, not_fault (by decide +kernel), by decide +kernel, by decide +kernel⟩

/-- Station 0 counts, station 2 waits. -/
theorem witness_ReadyStationsCountOneCycle :
    raw.pins.rst = false ∧ raw.run = .run ∧ step raw = .next rawLatched ∧ (∀ e, rawLatched.run ≠ .fault e) ∧
    0 < raw.stations.length ∧ raw.cdbQ ≠ some 0 ∧ (stationAt raw 0).busy = true ∧
    (stationAt raw 0).j.isPending = false ∧ (stationAt raw 0).k.isPending = false ∧ raw.cdbQ ≠ some 2 ∧
    (stationAt raw 2).busy = true ∧ (stationAt raw 2).j.isPending = true :=
  ⟨rfl, by decide +kernel, raw_steps, not_fault (by decide +kernel), by decide +kernel⟩

theorem witness_IssuedStationStartsAtZero :
    (boot [0x400000000000000000000104#96]).pins.rst = false ∧ (boot [0x400000000000000000000104#96]).run = .run ∧
    (after (boot [0x400000000000000000000104#96])).cursor = (boot [0x400000000000000000000104#96]).cursor + 1 := by
  decide +kernel

/-- An entry without a completion stamp, and one with it. -/
theorem witness_CompletionIsStampedOnce :
    step raw = .next rawLatched ∧ raw.run = .run ∧ (∀ e, rawLatched.run ≠ .fault e) ∧ 1 < raw.table.length ∧
    (entryAt raw 0).complete = none ∧ step rawLatched = .next (after rawLatched) ∧ rawLatched.run = .run ∧
    (∀ e, (after rawLatched).run ≠ .fault e) ∧ (entryAt rawLatched 0).complete ≠ none :=
  ⟨raw_steps, by decide +kernel, not_fault (by decide +kernel), by decide +kernel, by decide +kernel, rawLatched_steps,
    by decide +kernel, not_fault (by decide +kernel), by decide +kernel⟩

theorem witness_LatchHoldsTheSmallestComplete :
    raw.pins.rst = false ∧ raw.run = .run ∧ step raw = .next rawLatched ∧ (∀ e, rawLatched.run ≠ .fault e) :=
  ⟨rfl, by decide +kernel, raw_steps, not_fault (by decide +kernel)⟩

/-- The ends of the ranges of ids in EC (R26). -/
theorem witness_ArbitrationFollowsClassThenId_classes :
    (List.range 8).map (classOf powerOnConfig) = [.addSub, .addSub, .mulDiv, .mulDiv, .load, .load, .store, .store] ∧
    7 < powerOnConfig.nsta.addSub.toNat + powerOnConfig.nsta.mulDiv.toNat + powerOnConfig.nsta.load.toNat +
      powerOnConfig.nsta.store.toNat := by decide +kernel

/-- L3-P4, cycle 4: an ADD in station 1 and a STORE in station 6 are complete, and the ADD wins. -/
theorem witness_ArbitrationFollowsClassThenId :
    arbitrate (((initStations powerOnConfig).set 1 (busy .add 1 (.resolved 0#64) (.resolved 0#64) 2#8)).set 6
      (busy .store 2 (.resolved 0#64) .empty 1#8)) = some 1 ∧
    (busy .store 2 (.resolved 0#64) .empty 1#8).busy = true ∧
    (busy .store 2 (.resolved 0#64) .empty 1#8).elapsed = (busy .store 2 (.resolved 0#64) .empty 1#8).lat := by
  decide +kernel

theorem witness_RoundingIsToNearestEven : 0 < 1 := by decide

/-- The largest finite values, and 1.0. -/
theorem witness_SumIsExactThenRounded :
    (FiniteFp .binary32 0x7F7FFFFF#64 ∧ valueUnits .binary32 0x7F7FFFFF#64 + valueUnits .binary32 0x7F7FFFFF#64 ≠ 0) ∧
    FiniteFp .binary64 0x3FF0000000000000#64 ∧
    valueUnits .binary64 0x3FF0000000000000#64 + valueUnits .binary64 0x3FF0000000000000#64 ≠ 0 := by
  unfold FiniteFp
  decide +kernel

theorem witness_DifferenceIsExactThenRounded :
    FiniteFp .binary64 0x3FF0000000000000#64 ∧ FiniteFp .binary64 0x7FEFFFFFFFFFFFFF#64 ∧
    valueUnits .binary64 0x3FF0000000000000#64 - valueUnits .binary64 0x7FEFFFFFFFFFFFFF#64 ≠ 0 := by
  unfold FiniteFp
  decide +kernel

theorem witness_ProductIsExactThenRounded :
    FiniteFp .binary32 0x7F7FFFFF#64 ∧ FiniteFp .binary32 0#64 ∧ FiniteFp .binary64 0x8000000000000001#64 := by
  unfold FiniteFp
  decide +kernel

theorem witness_QuotientIsExactThenRounded :
    FiniteFp .binary64 0#64 ∧ FiniteFp .binary64 0x8000000000000001#64 ∧ valueUnits .binary64 0x8000000000000001#64 ≠ 0 := by
  unfold FiniteFp
  decide +kernel

theorem witness_ZeroSumsAndTheirSign :
    FiniteFp .binary64 0x8000000000000000#64 ∧
    valueUnits .binary64 0x8000000000000000#64 + valueUnits .binary64 0x8000000000000000#64 = 0 ∧
    FiniteFp .binary32 0xFF7FFFFF#64 ∧ valueUnits .binary32 0xFF7FFFFF#64 + valueUnits .binary32 0x7F7FFFFF#64 = 0 ∧
    FiniteFp .binary64 0#64 ∧ valueUnits .binary64 0x8000000000000000#64 - valueUnits .binary64 0#64 = 0 ∧
    valueUnits .binary64 0#64 - valueUnits .binary64 0x8000000000000000#64 = 0 := by
  unfold FiniteFp
  decide +kernel

/-- Both infinities, a finite nonzero value and a zero, which the clauses pair in every way they name. -/
theorem witness_InfinitiesAndZeroDivisors :
    (isNaN .binary64 0xFFF0000000000000#64 = false ∧ isInf .binary64 0xFFF0000000000000#64 = true ∧
      isZero .binary64 0xFFF0000000000000#64 = false ∧ isNeg .binary64 0xFFF0000000000000#64 = true) ∧
    (isNaN .binary64 0x7FF0000000000000#64 = false ∧ isInf .binary64 0x7FF0000000000000#64 = true ∧
      isNeg .binary64 0x7FF0000000000000#64 = false) ∧
    (isNaN .binary64 1#64 = false ∧ isInf .binary64 1#64 = false ∧ isZero .binary64 1#64 = false) ∧
    (isNaN .binary64 0x8000000000000000#64 = false ∧ isInf .binary64 0x8000000000000000#64 = false ∧
      isZero .binary64 0x8000000000000000#64 = true) := by decide +kernel

/-- Operands of each operation whose result is a NaN. -/
theorem witness_NaNResultsAreNanResult :
    isNaN .binary64 (fadd .binary64 0x7FF0000000000000#64 0xFFF0000000000000#64) = true ∧
    isNaN .binary64 (fsub .binary64 0x7FF0000000000000#64 0x7FF0000000000000#64) = true ∧
    isNaN .binary64 (fmul .binary64 0#64 0x7FF0000000000000#64) = true ∧
    isNaN .binary64 (fdiv .binary64 0#64 0#64) = true := by
  have h : ∀ op a b, isNaN .binary64 (nanResult .binary64 op a b) = true := by
    intro op a b
    unfold nanResult
    split
    · rename_i h
      exact (Bool.and_eq_true_iff.mp h).2
    · decide +kernel
  have := test_nan_results
  rw [this.1, this.2.1, this.2.2.1, this.2.2.2]
  exact ⟨h _ _ _, h _ _ _, h _ _ _, h _ _ _⟩

theorem witness_ValuesStayInTheFormat : ValuesFit raw ∧ step raw = .next rawLatched := ⟨valuesFit_raw, raw_steps⟩

theorem witness_CoherenceIsKept : Coherent raw ∧ step raw = .next rawLatched := ⟨coherent_raw, raw_steps⟩

theorem witness_NoInternalErrorFromCoherentStates :
    Coherent raw ∧ raw.pins.rst = false ∧ raw.run = .run ∧ step raw = .next rawLatched :=
  ⟨coherent_raw, rfl, by decide +kernel, raw_steps⟩

theorem witness_SequentialValuesAreKept : Coherent raw ∧ Faithful raw ∧ step raw = .next rawLatched :=
  ⟨coherent_raw, faithful_raw, raw_steps⟩

theorem witness_DoneRegistersAreSequential :
    Coherent ended ∧ Faithful ended ∧ ended.run = .done ∧ 7 < ended.cfg.nregs.toNat :=
  ⟨coherent_ended, faithful_ended, rfl, by decide +kernel⟩

theorem witness_DoneStateIsQuiet : Coherent ended ∧ ended.run = .done ∧ 7 < ended.stations.length ∧
    7 < ended.regs.length := ⟨coherent_ended, rfl, by decide +kernel, by decide +kernel⟩

theorem witness_EveryCycleMakesProgress :
    Coherent raw ∧ raw.pins.rst = false ∧ raw.run = .run ∧ step raw = .next rawLatched :=
  ⟨coherent_raw, rfl, by decide +kernel, raw_steps⟩

theorem witness_EveryRunEndsWithinTheBound :
    idlePins.rst = false ∧ validate (ec 1) (storeFrom 0 [0x000000000000000002000000#96]) = .run := by decide +kernel

theorem eraseValues_regs (s : State) (regs : List Reg)
    (h : s.regs.map (fun reg => ({ val := 0#64, tag := reg.tag } : Reg)) = regs.map fun reg => { val := 0#64, tag := reg.tag }) :
    eraseValues s = eraseValues { s with regs := regs } := by
  simp only [eraseValues, h]

/-- `raw` and the same state with R0 holding another value. -/
theorem witness_TimelineIgnoresValues :
    eraseValues raw = eraseValues { raw with regs := raw.regs.set 0 { val := 1#64, tag := none } } ∧
    step raw = .next rawLatched ∧ ∃ t, step { raw with regs := raw.regs.set 0 { val := 1#64, tag := none } } = .next t :=
  ⟨eraseValues_regs _ _ (by decide +kernel), raw_steps, after { raw with regs := raw.regs.set 0 { val := 1#64, tag := none } },
    eq_of_isNext (by decide +kernel)⟩

end Sys2Proof.Tests
end

