-- ==== Sys2Proof/Proofs/Scope.lean ====
section
/-! PROOFS. Every step has a next state (spec 00_scope.md R15), and the timeline never depends on values (R16). -/

namespace Sys2Proof.Scope

open Sys2Proof.Config
open Sys2Proof.Machine
open Sys2Proof.Safety
open Sys2Proof.Laws

/-! ### Totality (R15, R100, R103, R176) -/

theorem cycle_next (s : State) : ∃ t, cycle s = .next t := by
  rcases cycle_cases s with ⟨_, h⟩ | ⟨_, _, _, _, h⟩ <;> exact ⟨_, h⟩

/-- Settles O19: a reset edge, a quiet edge and a cycle each answer a state. -/
theorem everyStepHasANextState : Obligations.EveryStepHasANextState := by
  intro s
  rcases step_cases s with ⟨_, h⟩ | ⟨_, _, h⟩ | ⟨_, _, h⟩
  · exact ⟨_, h⟩
  · exact h ▸ cycle_next s
  · exact ⟨_, h⟩

/-! ### Forgetting the values of registers and of the configuration (R16) -/

/-- The register with its value forgotten. -/
def eraseReg (reg : Reg) : Reg := { val := 0#64, tag := reg.tag }

/-- The configuration with its initial values forgotten. -/
def eraseInit (cfg : Params) : Params := { cfg with init := Vector.replicate 256 0#64 }

theorem eraseValues_eq (s : State) :
    eraseValues s = { s with
      cfg := eraseInit s.cfg
      regs := s.regs.map eraseReg
      stations := s.stations.map eraseStation } := rfl

@[simp] theorem eraseReg_tag (reg : Reg) : (eraseReg reg).tag = reg.tag := rfl

@[simp] theorem eraseReg_eraseReg (reg : Reg) : eraseReg (eraseReg reg) = eraseReg reg := rfl

@[simp] theorem eraseInit_eraseInit (cfg : Params) : eraseInit (eraseInit cfg) = eraseInit cfg := rfl

@[simp] theorem eraseSlot_eraseSlot (x : Slot) : eraseSlot (eraseSlot x) = eraseSlot x := by cases x <;> rfl

@[simp] theorem eraseStation_eraseStation (st : Station) : eraseStation (eraseStation st) = eraseStation st := by
  simp [eraseStation]

@[simp] theorem eraseValues_eraseValues (s : State) : eraseValues (eraseValues s) = eraseValues s := by
  simp [eraseValues_eq, Function.comp_def]

/-! ### What the phases read is the same without the values -/

@[simp] theorem eraseSlot_isPending (x : Slot) : (eraseSlot x).isPending = x.isPending := by cases x <;> rfl

@[simp] theorem eraseStation_ready (st : Station) : (eraseStation st).ready = st.ready := by
  simp [Station.ready, eraseStation]

@[simp] theorem eraseStation_isComplete (st : Station) : (eraseStation st).isComplete = st.isComplete := rfl

@[simp] theorem eraseStation_freeStation : eraseStation freeStation = freeStation := rfl

@[simp] theorem allocate_erase (cfg : Params) (stations : List Station) (cls : UnitClass) :
    allocate (eraseInit cfg) (stations.map eraseStation) cls = allocate cfg stations cls := by
  simp only [allocate, List.length_map, List.getElem?_map, Option.any_map]
  rfl

@[simp] theorem arbitrate_erase (stations : List Station) :
    arbitrate (stations.map eraseStation) = arbitrate stations := by
  simp only [arbitrate, List.findIdx?_map]
  rfl

@[simp] theorem eligible_erase (before : List Station) (w : Option Nat) (t : Nat) :
    eligible (before.map eraseStation) w t = eligible before w t := by
  simp [eligible, Option.any_map]

/-- Which operands there are, and with them whether there is a result, does not depend on their values. -/
theorem computeStation_eraseStation_isSome (fmt : Fmt) (st : Station) :
    (computeStation fmt (eraseStation st)).isSome = (computeStation fmt st).isSome := by
  obtain ⟨busy, op, inst, j, k, lat, elapsed⟩ := st
  cases op with
  | none => rfl
  | some op =>
    cases op with
    | add | sub | mul | div => cases j <;> cases k <;> rfl
    | load | store => cases j <;> rfl

/-! ### Erasing commutes with the operations on lists -/

theorem map_eraseReg_resolveRegs (regs : List Reg) (w : Nat) (v : Word) :
    (resolveRegs regs w v).map eraseReg = resolveRegs (regs.map eraseReg) w 0#64 := by
  simp only [resolveRegs, List.map_map]
  refine List.map_congr_left fun reg _ => ?_
  by_cases h : reg.tag = some w <;> simp [h, eraseReg]

theorem map_eraseReg_renameReg (regs : List Reg) (rd : RegIdx) (t : Nat) :
    (renameReg regs rd t).map eraseReg = renameReg (regs.map eraseReg) rd t := by
  refine List.ext_getElem? fun i => ?_
  by_cases h : rd.toNat = i <;> cases hr : regs[i]? <;> simp [renameReg, h, hr, eraseReg]

theorem eraseSlot_receive (w : Nat) (v : Word) (x : Slot) :
    eraseSlot (x.receive w v) = (eraseSlot x).receive w 0#64 := by
  cases x with
  | empty => rfl
  | resolved u => rfl
  | pending t => by_cases h : t = w <;> simp [eraseSlot, h]

theorem eraseStation_receive (w : Nat) (v : Word) (st : Station) :
    eraseStation (st.receive w v) = (eraseStation st).receive w 0#64 := by
  cases h : st.busy <;> simp [eraseStation, Station.receive, h, eraseSlot_receive]

theorem map_eraseStation_broadcast (stations : List Station) (w : Nat) (v : Word) :
    (broadcast stations w v).map eraseStation = broadcast (stations.map eraseStation) w 0#64 := by
  simp [broadcast, eraseStation_receive]

theorem map_eraseStation_releaseStation (stations : List Station) (w : Nat) :
    (releaseStation stations w).map eraseStation = releaseStation (stations.map eraseStation) w := by
  simp [releaseStation]

theorem eraseStation_tick (st : Station) : eraseStation st.tick = (eraseStation st).tick := rfl

theorem map_eraseStation_tickStations (before : List Station) (w : Option Nat) (stations : List Station) :
    (tickStations before w stations).map eraseStation =
      tickStations (before.map eraseStation) w (stations.map eraseStation) := by
  refine List.ext_getElem? fun i => ?_
  by_cases h : eligible before w i = true <;> cases hs : stations[i]? <;>
    simp [tickStations, h, hs, eraseStation_tick]

theorem completesNow_erase (before : List Station) (w : Option Nat) (after : List Station) (n : Nat) :
    completesNow (before.map eraseStation) w (after.map eraseStation) n = completesNow before w after n := by
  simp only [completesNow, eligible_erase, List.length_map, List.getElem?_map, Option.any_map]
  rfl

theorem stampComplete_erase (before : List Station) (w : Option Nat) (after : List Station) (c : Nat)
    (table : List ItEntry) :
    stampComplete (before.map eraseStation) w (after.map eraseStation) c table =
      stampComplete before w after c table := by
  simp only [stampComplete, completesNow_erase]

/-! ### Erasing commutes with the phases' state updates -/

theorem eraseValues_raiseError (s : State) (e : EngineError) :
    eraseValues (raiseError s e) = raiseError (eraseValues s) e := rfl

theorem eraseValues_commitWriteBack (w : Nat) (st : Station) (v : Word) (s : State) :
    eraseValues (commitWriteBack w st v s) = commitWriteBack w (eraseStation st) 0#64 (eraseValues s) := by
  simp only [eraseValues_eq, commitWriteBack, map_eraseReg_resolveRegs, map_eraseStation_releaseStation,
    map_eraseStation_broadcast]
  rfl

theorem eraseStation_issuedStation (cfg : Params) (op : Opcode) (n : Nat) (j k : Slot) :
    eraseStation (issuedStation cfg op n j k) = issuedStation (eraseInit cfg) op n (eraseSlot j) (eraseSlot k) := by
  cases op <;> rfl

theorem eraseValues_commitIssue (op : Opcode) (rd : RegIdx) (j k : Slot) (t : Nat) (s : State) :
    eraseValues (commitIssue op rd j k t s) =
      commitIssue op rd (eraseSlot j) (eraseSlot k) t (eraseValues s) := by
  simp only [eraseValues_eq, commitIssue, map_eraseReg_renameReg, List.map_set, eraseStation_issuedStation]

theorem eraseValues_executePhase (s0 s : State) :
    eraseValues (executePhase s0 s) = executePhase (eraseValues s0) (eraseValues s) := by
  simp only [eraseValues_eq, executePhase, ← map_eraseStation_tickStations, stampComplete_erase, arbitrate_erase]

theorem eraseValues_advancePhase (s : State) :
    eraseValues (advancePhase s) = advancePhase (eraseValues s) := rfl

theorem eraseValues_finishCycle (s0 s : State) :
    eraseValues (finishCycle s0 s) = finishCycle (eraseValues s0) (eraseValues s) := by
  have hrun : (eraseValues s).run = s.run := rfl
  simp only [finishCycle, hrun]
  cases s.run with
  | fault e => exact eraseValues_raiseError s0 e
  | run => simp only [eraseValues_advancePhase, eraseValues_executePhase]
  | done => simp only [eraseValues_advancePhase, eraseValues_executePhase]

/-! ### Phase 1 (R121 to R126) -/

/-- Whether the latched winner writes back, and what it leaves but for values, is the same without the values. -/
theorem writeBack_erase (s : State) :
    (writeBack s).map eraseValues = (writeBack (eraseValues s)).map eraseValues := by
  have hq : (eraseValues s).cdbQ = s.cdbQ := rfl
  have hst : ∀ w : Nat, (eraseValues s).stations[w]? = (s.stations[w]?).map eraseStation := by
    simp [eraseValues_eq]
  unfold writeBack
  rw [hq]
  cases s.cdbQ with
  | none => simp
  | some w =>
    simp only [hst]
    cases s.stations[w]? with
    | none => rfl
    | some st =>
      have hv : (computeStation (eraseValues s).cfg.fmt (eraseStation st)).isSome =
        (computeStation s.cfg.fmt st).isSome := computeStation_eraseStation_isSome ..
      simp only [Option.map_some]
      cases h : computeStation s.cfg.fmt st with
      | none => simp_all
      | some v =>
        obtain ⟨u, hu⟩ := Option.isSome_iff_exists.mp (hv.trans (by simp [h]))
        simp [hu, eraseValues_commitWriteBack]

/-! ### Phase 2 (R106 to R111) -/

/-- The outcome with the values of its next state forgotten. -/
def eraseNext (o : Host.Outcome State Fault Refusal) : Host.Outcome State Fault Refusal :=
  match o with
  | .next s => .next (eraseValues s)
  | .fault f => .fault f
  | .refused r => .refused r

@[simp] theorem eraseNext_next (s : State) : eraseNext (.next s) = .next (eraseValues s) := rfl

theorem eraseSlot_capture_erase (regs : List Reg) (r : RegIdx) :
    eraseSlot (capture (regs.map eraseReg) r) = eraseSlot (capture regs r) := by
  simp only [capture, List.getElem?_map]
  cases regs[r.toNat]? with
  | none => rfl
  | some reg =>
    obtain ⟨v, tag⟩ := reg
    cases tag <;> rfl

theorem eraseSlot_operandJ_erase (regs : List Reg) (i : Instr) :
    eraseSlot (operandJ (regs.map eraseReg) i) = eraseSlot (operandJ regs i) := by
  cases i with
  | load rd imm => rfl
  | add | sub | mul | div | store => exact eraseSlot_capture_erase ..

theorem eraseSlot_operandK_erase (regs : List Reg) (i : Instr) :
    eraseSlot (operandK (regs.map eraseReg) i) = eraseSlot (operandK regs i) := by
  cases i with
  | load | store => rfl
  | add | sub | mul | div => exact eraseSlot_capture_erase ..

theorem eraseNext_issueInto (op : Opcode) (fields : List (RegField × RegIdx)) (rd : RegIdx) (j k : Slot) (s : State) :
    eraseNext (issueInto op fields rd j k s) =
      issueInto op fields rd (eraseSlot j) (eraseSlot k) (eraseValues s) := by
  have ha : allocate (eraseValues s).cfg (eraseValues s).stations op.unit = allocate s.cfg s.stations op.unit :=
    allocate_erase ..
  have hn : (eraseValues s).cfg.nregs = s.cfg.nregs := rfl
  unfold issueInto
  rw [ha, hn]
  cases allocate s.cfg s.stations op.unit with
  | none => rfl
  | some t =>
    cases firstUnknown s.cfg.nregs.toNat fields with
    | some f => rfl
    | none => exact congrArg _ (eraseValues_commitIssue ..)

theorem eraseNext_exec_erase (i : Instr) (s : State) : eraseNext (exec i (eraseValues s)) = eraseNext (exec i s) := by
  have hj : eraseSlot (operandJ (eraseValues s).regs i) = eraseSlot (operandJ s.regs i) := eraseSlot_operandJ_erase ..
  have hk : eraseSlot (operandK (eraseValues s).regs i) = eraseSlot (operandK s.regs i) := eraseSlot_operandK_erase ..
  simp only [exec_eq_issueInto, eraseNext_issueInto, hj, hk, eraseValues_eraseValues]

theorem eraseNext_issuePhase_erase (s : State) :
    eraseNext (issuePhase (eraseValues s)) = eraseNext (issuePhase s) := by
  have hf : fetch (eraseValues s) = fetch s := rfl
  have hc : (eraseValues s).cursor = s.cursor := rfl
  have hn : (eraseValues s).cfg.progLen = s.cfg.progLen := rfl
  unfold issuePhase
  rw [hf, hc, hn]
  by_cases hlt : s.cursor < s.cfg.progLen.toNat
  · simp only [hlt, if_true]
    cases fetch s with
    | instr i => exact eraseNext_exec_erase i s
    | invalid why => simp [eraseValues_raiseError]
  · simp [hlt]

/-! ### The whole step -/

theorem eraseNext_cycle_erase (s : State) : eraseNext (cycle (eraseValues s)) = eraseNext (cycle s) := by
  have hw := writeBack_erase s
  rcases cycle_cases s with ⟨h1, hc⟩ | ⟨s1, s2, h1, h2, hc⟩ <;>
    rcases cycle_cases (eraseValues s) with ⟨h1', hc'⟩ | ⟨u1, u2, h1', h2', hc'⟩ <;>
    simp only [h1, h1', Option.map_none, Option.map_some, reduceCtorEq, Option.some.injEq] at hw
  · simp [hc, hc', eraseValues_raiseError]
  · have hi : eraseNext (issuePhase u1) = eraseNext (issuePhase s1) := by
      rw [← eraseNext_issuePhase_erase u1, ← hw, eraseNext_issuePhase_erase]
    have hu : eraseValues u2 = eraseValues s2 := by simpa [h2, h2'] using hi
    simp [hc, hc', eraseValues_finishCycle, hu]

theorem eraseInit_loadConfig_erase (cfg : Params) (pins : Pins) :
    eraseInit (loadConfig (eraseInit cfg) pins) = eraseInit (loadConfig cfg pins) := by
  unfold loadConfig
  cases pins.hostWe with
  | false => rfl
  | true => cases hostRegOf pins.hostAddr <;> rfl

/-- No initial value is left in an erased configuration (also at and above 256, log entry 27). -/
theorem initVal_eraseInit (cfg : Params) (i : Nat) : initVal (eraseInit cfg) i = 0#64 := by
  have h : (eraseInit cfg).init.getD i 0#64 = 0#64 := by
    simp only [eraseInit, Vector.getD, Array.getD_eq_getD_getElem?, Vector.toArray_replicate,
      Array.getElem?_replicate]
    split <;> rfl
  rw [initVal, h]
  cases (eraseInit cfg).fmt <;> rfl

theorem eraseValues_init (cfg : Params) (prog : ProgStore) (pins : Pins) :
    eraseValues (State.init cfg prog pins) = State.init (eraseInit cfg) prog pins := by
  have hr : (initRegs cfg).map eraseReg = initRegs (eraseInit cfg) := by
    simp [initRegs, initVal_eraseInit, eraseReg, Function.comp_def]
    rfl
  have hs : (initStations cfg).map eraseStation = initStations (eraseInit cfg) := by
    simp only [initStations, List.map_replicate, eraseStation_freeStation]
    rfl
  simp only [eraseValues_eq, State.init, hr, hs]
  rfl

theorem eraseValues_resetEdge_erase (s : State) :
    eraseValues (resetEdge (eraseValues s)) = eraseValues (resetEdge s) := by
  simp only [resetEdge, eraseValues_init]
  exact congrArg (State.init · _ _) (eraseInit_loadConfig_erase ..)

/-- A step and the step without the values leave the same state but for values. -/
theorem eraseNext_step_erase (s : State) : eraseNext (step (eraseValues s)) = eraseNext (step s) := by
  have hp : (eraseValues s).pins = s.pins := rfl
  have hrun : (eraseValues s).run = s.run := rfl
  unfold step
  rw [hp, hrun]
  cases s.pins.rst with
  | true => simp [eraseValues_resetEdge_erase]
  | false =>
    cases s.run with
    | run => exact eraseNext_cycle_erase s
    | done => simp
    | fault e => simp

/-- Settles O59: the next state without the values is determined by the state without the values. -/
theorem timelineIgnoresValues : Obligations.TimelineIgnoresValues := by
  intro s s' t t' hs ht ht'
  have h : eraseNext (step s) = eraseNext (step s') := by
    rw [← eraseNext_step_erase, hs, eraseNext_step_erase]
  simpa [ht, ht'] using h

end Sys2Proof.Scope
end

