-- ==== Sys2Proof/Proofs/Values.lean ====
section
/-! PROOFS. Every step keeps every register and slot value an FLEN-bit pattern (spec 00_scope.md R10, 41_arithmetic.md
R140): the results of the four operations are FLEN-bit patterns, and so is what enters through INIT and immediates. -/

namespace Sys2Proof.Scope

open Sys2Proof.Config
open Sys2Proof.Machine
open Sys2Proof.Safety
open Sys2Proof.Laws

/-! ### FLEN-bit patterns -/

theorem fitsFmt_of_toNat_lt {fmt : Fmt} {w : Word} (h : w.toNat < 2 ^ fmt.flen) : FitsFmt fmt w := by
  cases fmt with
  | binary64 => rfl
  | binary32 =>
    apply BitVec.eq_of_toNat_eq
    rw [lowFlen, BitVec.toNat_and]
    exact (Nat.and_two_pow_sub_one_eq_mod w.toNat 32).trans (Nat.mod_eq_of_lt h)

theorem fitsFmt_lowFlen (fmt : Fmt) (w : Word) : FitsFmt fmt (lowFlen fmt w) := by
  cases fmt with
  | binary64 => rfl
  | binary32 => simp [FitsFmt, lowFlen, BitVec.and_assoc]

/-- A sign and a magnitude no larger than that of the first NaN make an FLEN-bit pattern. -/
theorem fitsFmt_packFp {fmt : Fmt} {m : Nat} (neg : Bool) (h : m ≤ infMag fmt + 1) : FitsFmt fmt (packFp fmt neg m) := by
  apply fitsFmt_of_toNat_lt
  rw [packFp, BitVec.toNat_ofNat]
  refine (Nat.mod_le _ _).trans_lt ?_
  cases fmt <;> cases neg <;> simp [infMag, Fmt.flen] at h ⊢ <;> omega

theorem roundMag_le (fmt : Fmt) (num den : Nat) : roundMag fmt num den ≤ infMag fmt + 1 :=
  (Nat.min_le_right _ _).trans (Nat.le_succ _)

/-! ### Results of the four operations (R140, R141) -/

theorem fitsFmt_nanResult (fmt : Fmt) (op : Opcode) (a b : Word) : FitsFmt fmt (nanResult fmt op a b) := by
  unfold nanResult
  split
  · next h =>
    simp only [isNaNPattern, Bool.and_eq_true, beq_iff_eq] at h
    exact h.1
  · exact fitsFmt_packFp false (le_refl _)

theorem fitsFmt_of_ieeeAdd {fmt : Fmt} {a b r : Word} (h : ieeeAdd fmt a b = some r) : FitsFmt fmt r := by
  simp only [ieeeAdd] at h
  split_ifs at h <;> cases h <;> exact fitsFmt_packFp _ (by simp [roundMag_le])

theorem fitsFmt_of_ieeeMul {fmt : Fmt} {a b r : Word} (h : ieeeMul fmt a b = some r) : FitsFmt fmt r := by
  simp only [ieeeMul] at h
  split_ifs at h <;> cases h <;> exact fitsFmt_packFp _ (by simp [roundMag_le])

theorem fitsFmt_of_ieeeDiv {fmt : Fmt} {a b r : Word} (h : ieeeDiv fmt a b = some r) : FitsFmt fmt r := by
  simp only [ieeeDiv] at h
  split_ifs at h <;> cases h <;> exact fitsFmt_packFp _ (by simp [roundMag_le])

theorem fitsFmt_getD {fmt : Fmt} {o : Option Word} {d : Word} (ho : ∀ r, o = some r → FitsFmt fmt r)
    (hd : FitsFmt fmt d) : FitsFmt fmt (o.getD d) := by
  cases o with
  | none => exact hd
  | some r => exact ho r rfl

theorem fitsFmt_fadd (fmt : Fmt) (a b : Word) : FitsFmt fmt (fadd fmt a b) :=
  fitsFmt_getD (fun _ => fitsFmt_of_ieeeAdd) (fitsFmt_nanResult ..)

theorem fitsFmt_fsub (fmt : Fmt) (a b : Word) : FitsFmt fmt (fsub fmt a b) :=
  fitsFmt_getD (fun _ => fitsFmt_of_ieeeAdd) (fitsFmt_nanResult ..)

theorem fitsFmt_fmul (fmt : Fmt) (a b : Word) : FitsFmt fmt (fmul fmt a b) :=
  fitsFmt_getD (fun _ => fitsFmt_of_ieeeMul) (fitsFmt_nanResult ..)

theorem fitsFmt_fdiv (fmt : Fmt) (a b : Word) : FitsFmt fmt (fdiv fmt a b) :=
  fitsFmt_getD (fun _ => fitsFmt_of_ieeeDiv) (fitsFmt_nanResult ..)

/-- What a station with FLEN-bit operands computes is an FLEN-bit pattern (R125). -/
theorem fitsFmt_of_computeStation {fmt : Fmt} {st : Station} {v : Word} (hj : SlotFits fmt st.j)
    (h : computeStation fmt st = some v) : FitsFmt fmt v := by
  unfold computeStation at h
  cases hop : st.op with
  | none => simp [hop] at h
  | some op =>
    cases op <;> simp only [hop] at h
    case add => obtain ⟨a, b, -, -, rfl⟩ := computeStation_both _ _ _ h; exact fitsFmt_fadd ..
    case sub => obtain ⟨a, b, -, -, rfl⟩ := computeStation_both _ _ _ h; exact fitsFmt_fsub ..
    case mul => obtain ⟨a, b, -, -, rfl⟩ := computeStation_both _ _ _ h; exact fitsFmt_fmul ..
    case div => obtain ⟨a, b, -, -, rfl⟩ := computeStation_both _ _ _ h; exact fitsFmt_fdiv ..
    case load => obtain ⟨a, ha, rfl⟩ := computeStation_one _ _ _ h; exact hj _ ha
    case store => obtain ⟨a, ha, rfl⟩ := computeStation_one _ _ _ h; exact hj _ ha

/-! ### Slots and operands -/

theorem slotFits_empty (fmt : Fmt) : SlotFits fmt .empty := by
  rintro _ ⟨⟩

theorem slotFits_resolved {fmt : Fmt} {v : Word} (h : FitsFmt fmt v) : SlotFits fmt (.resolved v) := by
  rintro _ ⟨⟩; exact h

theorem slotFits_pending (fmt : Fmt) (t : Nat) : SlotFits fmt (.pending t) := by
  rintro _ ⟨⟩

theorem slotFits_receive {fmt : Fmt} {v : Word} {x : Slot} (w : Nat) (hv : FitsFmt fmt v) (hx : SlotFits fmt x) :
    SlotFits fmt (x.receive w v) := by
  cases x with
  | empty => exact hx
  | resolved u => exact hx
  | pending t =>
    rw [receive_pending]
    split
    · exact slotFits_resolved hv
    · exact hx

theorem slotFits_capture {fmt : Fmt} {regs : List Reg} (h : ∀ reg ∈ regs, FitsFmt fmt reg.val) (r : RegIdx) :
    SlotFits fmt (capture regs r) := by
  unfold capture
  split
  · exact slotFits_empty fmt
  · next reg hreg =>
    split
    · exact slotFits_resolved (h reg (List.mem_of_getElem? hreg))
    · exact slotFits_pending fmt _

/-- The immediate of a decoded LOAD is an FLEN-bit pattern (R91). -/
theorem fitsFmt_of_decode_load {fmt : Fmt} {w : Record} {rd : RegIdx} {imm : Word}
    (h : decode fmt w = .instr (.load rd imm)) : FitsFmt fmt imm := by
  simp only [decode] at h
  split_ifs at h
  split at h <;> cases h
  exact fitsFmt_lowFlen ..

theorem slotFits_operandJ {fmt : Fmt} {regs : List Reg} {w : Record} {i : Instr}
    (hr : ∀ reg ∈ regs, FitsFmt fmt reg.val) (hi : decode fmt w = .instr i) : SlotFits fmt (operandJ regs i) := by
  cases i with
  | load rd imm => exact slotFits_resolved (fitsFmt_of_decode_load hi)
  | add | sub | mul | div | store => exact slotFits_capture hr _

theorem slotFits_operandK {fmt : Fmt} {regs : List Reg} (hr : ∀ reg ∈ regs, FitsFmt fmt reg.val) (i : Instr) :
    SlotFits fmt (operandK regs i) := by
  cases i with
  | load | store => exact slotFits_empty fmt
  | add | sub | mul | div => exact slotFits_capture hr _

/-! ### State updates -/

theorem valuesFit_raiseError {s : State} (h : ValuesFit s) (e : EngineError) : ValuesFit (raiseError s e) :=
  ⟨h.regs, h.slots⟩

theorem valuesFit_commitWriteBack {s : State} (h : ValuesFit s) (w : Nat) (st : Station) {v : Word}
    (hv : FitsFmt s.cfg.fmt v) : ValuesFit (commitWriteBack w st v s) where
  regs reg hreg := by
    obtain ⟨old, hold, rfl⟩ := List.mem_map.mp hreg
    split
    · exact hv
    · exact h.regs old hold
  slots u hu := by
    obtain hu | rfl := List.mem_or_eq_of_mem_set hu
    · obtain ⟨old, hold, rfl⟩ := List.mem_map.mp hu
      obtain ⟨hj, hk⟩ := h.slots old hold
      unfold Station.receive
      split
      · exact ⟨slotFits_receive w hv hj, slotFits_receive w hv hk⟩
      · exact ⟨hj, hk⟩
    · exact ⟨slotFits_empty _, slotFits_empty _⟩

/-- A rename leaves every register value as it is (R108). -/
theorem map_val_renameReg (regs : List Reg) (rd : RegIdx) (t : Nat) :
    (renameReg regs rd t).map Reg.val = regs.map Reg.val := by
  refine List.ext_getElem? fun i => ?_
  by_cases h : rd.toNat = i <;> cases hr : regs[i]? <;> simp [renameReg, h, hr]

theorem valuesFit_commitIssue {s : State} (h : ValuesFit s) (op : Opcode) (rd : RegIdx) {j k : Slot} (t : Nat)
    (hj : SlotFits s.cfg.fmt j) (hk : SlotFits s.cfg.fmt k) : ValuesFit (commitIssue op rd j k t s) where
  regs reg hreg := by
    have hmem : reg.val ∈ s.regs.map Reg.val :=
      map_val_renameReg s.regs rd t ▸ List.mem_map_of_mem hreg
    obtain ⟨old, hold, heq⟩ := List.mem_map.mp hmem
    exact heq ▸ h.regs old hold
  slots st hst := by
    obtain hst | rfl := List.mem_or_eq_of_mem_set hst
    · exact h.slots st hst
    · exact ⟨hj, hk⟩

theorem valuesFit_executePhase {s : State} (h : ValuesFit s) (s0 : State) : ValuesFit (executePhase s0 s) where
  regs := h.regs
  slots st hst := by
    obtain ⟨t, ht, rfl⟩ := List.mem_mapIdx.mp hst
    have hold := h.slots _ (List.getElem_mem ht)
    split
    · exact hold
    · exact hold

theorem valuesFit_advancePhase {s : State} (h : ValuesFit s) : ValuesFit (advancePhase s) := ⟨h.regs, h.slots⟩

theorem valuesFit_finishCycle {s0 s : State} (h0 : ValuesFit s0) (h : ValuesFit s) : ValuesFit (finishCycle s0 s) := by
  unfold finishCycle
  split
  · exact valuesFit_raiseError h0 _
  · exact valuesFit_advancePhase (valuesFit_executePhase h s0)
  · exact valuesFit_advancePhase (valuesFit_executePhase h s0)

theorem valuesFit_init (cfg : Params) (prog : ProgStore) (pins : Pins) : ValuesFit (State.init cfg prog pins) where
  regs reg hreg := by
    obtain ⟨i, -, rfl⟩ := List.mem_map.mp hreg
    exact fitsFmt_lowFlen ..
  slots st hst := by
    obtain rfl := List.eq_of_mem_replicate hst
    exact ⟨slotFits_empty _, slotFits_empty _⟩

/-! ### The phases and the step -/

theorem valuesFit_writeBack {s t : State} (h : ValuesFit s) (hw : writeBack s = some t) : ValuesFit t := by
  rcases writeBack_cases s with ⟨-, ht⟩ | ⟨w, st, v, -, hst, hv, ht⟩ | ⟨w, -, -, ht⟩ <;> cases ht.symm.trans hw
  · exact h
  · obtain ⟨hj, -⟩ := h.slots st (List.mem_of_getElem? hst)
    exact valuesFit_commitWriteBack h w st (fitsFmt_of_computeStation hj hv)

theorem valuesFit_issuePhase {s t : State} (h : ValuesFit s) (hi : issuePhase s = .next t) : ValuesFit t := by
  rcases issuePhase_cases s with ⟨-, ht⟩ | ⟨i, -, hf, ht⟩ | ⟨why, -, -, ht⟩
  · cases ht.symm.trans hi; exact h
  · rcases exec_cases i s with ⟨-, hx⟩ | ⟨u, f, r, -, -, hx⟩ | ⟨u, -, -, hx⟩ <;>
      cases (ht.trans hx).symm.trans hi
    · exact h
    · exact valuesFit_raiseError h _
    · exact valuesFit_commitIssue h _ _ u (slotFits_operandJ h.regs hf) (slotFits_operandK h.regs i)
  · cases ht.symm.trans hi; exact valuesFit_raiseError h _

theorem valuesFit_cycle {s t : State} (h : ValuesFit s) (hc : cycle s = .next t) : ValuesFit t := by
  rcases cycle_cases s with ⟨-, ht⟩ | ⟨s1, s2, hw, hi, ht⟩ <;> cases ht.symm.trans hc
  · exact valuesFit_raiseError h _
  · exact valuesFit_finishCycle h (valuesFit_issuePhase (valuesFit_writeBack h hw) hi)

/-- Settles O50: reset loads FLEN-bit patterns, and a cycle makes new values only of FLEN-bit ones. -/
theorem valuesStayInTheFormat : Obligations.ValuesStayInTheFormat := by
  intro s t h hs
  rcases step_cases s with ⟨-, ht⟩ | ⟨-, -, ht⟩ | ⟨-, -, ht⟩
  · cases ht.symm.trans hs; exact valuesFit_init ..
  · exact valuesFit_cycle h (ht.symm.trans hs)
  · cases ht.symm.trans hs; exact h

end Sys2Proof.Scope
end

