-- ==== Sys2Proof/Proofs/Phases.lean ====
section
/-! PROOFS. What a running engine's cycle leaves of the cursor and the status table, phase by phase: the frame of issue
(spec 10_state.md R23), the cursor (R21), stamps that stay (R33), and input ports without effect (R37, R38, R42). -/

namespace Sys2Proof.EngineState

open Sys2Proof.Config
open Sys2Proof.Machine
open Sys2Proof.Safety
open Sys2Proof.Laws

/-! ### The end of a cycle, and a whole cycle, by what it commits (R101, R111) -/

theorem finishCycle_of_fault {s0 s : State} {e : EngineError} (h : s.run = .fault e) :
    finishCycle s0 s = raiseError s0 e := by
  simp [finishCycle, h]

theorem finishCycle_of_run {s0 s : State} (h : s.run = .run) :
    finishCycle s0 s = advancePhase (executePhase s0 s) := by
  simp [finishCycle, h]

theorem writeBack_run {s s1 : State} (h : writeBack s = some s1) : s1.run = s.run := by
  rcases writeBack_cases s with ⟨-, hw⟩ | ⟨w, st, v, -, -, -, hw⟩ | ⟨w, -, -, hw⟩ <;> cases hw.symm.trans h <;> rfl

/-- A running engine's cycle keeps nothing but a fatal error, or it commits write-back and then either no issue (a
stall, or no instruction left) or the issue of the instruction at the cursor. -/
theorem cycle_commits {s t : State} (hrun : s.run = .run) (h : cycle s = .next t) :
    (∃ e, t = raiseError s e) ∨
    (∃ s1, writeBack s = some s1 ∧ t = advancePhase (executePhase s s1)) ∨
    (∃ s1 i u, writeBack s = some s1 ∧ s1.cursor < s1.cfg.progLen.toNat ∧
      t = advancePhase (executePhase s
        (commitIssue i.op i.rd (operandJ s1.regs i) (operandK s1.regs i) u s1))) := by
  rcases cycle_cases s with ⟨-, hc⟩ | ⟨s1, s2, hw, hi, hc⟩ <;> cases hc.symm.trans h
  · exact .inl ⟨_, rfl⟩
  have hrun1 : s1.run = .run := (writeBack_run hw).trans hrun
  rcases issuePhase_cases s1 with ⟨-, h2⟩ | ⟨i, hlt, -, h2⟩ | ⟨why, -, -, h2⟩
  · cases h2.symm.trans hi
    exact .inr (.inl ⟨s1, hw, finishCycle_of_run hrun1⟩)
  · rcases exec_cases i s1 with ⟨-, hx⟩ | ⟨u, f, r, -, -, hx⟩ | ⟨u, -, -, hx⟩ <;> cases (h2.trans hx).symm.trans hi
    · exact .inr (.inl ⟨s1, hw, finishCycle_of_run hrun1⟩)
    · exact .inl ⟨_, finishCycle_of_fault rfl⟩
    · exact .inr (.inr ⟨s1, i, u, hw, hlt, finishCycle_of_run hrun1⟩)
  · cases h2.symm.trans hi
    exact .inl ⟨_, finishCycle_of_fault rfl⟩

/-! ### What each phase leaves of a status entry (R108, R117, R123) -/

@[simp] theorem entryAt_raiseError (s : State) (e : EngineError) (n : Nat) :
    entryAt (raiseError s e) n = entryAt s n := rfl

@[simp] theorem entryAt_advancePhase (s : State) (n : Nat) : entryAt (advancePhase s) n = entryAt s n := rfl

theorem entryAt_of_le {s : State} {n : Nat} (h : s.table.length ≤ n) : entryAt s n = blankEntry :=
  List.getD_eq_default _ _ h

/-- Write-back stamps one entry's write-back, if that was unset. -/
theorem entryAt_commitWriteBack (w : Nat) (st : Station) (v : Word) (s : State) (n : Nat) :
    entryAt (commitWriteBack w st v s) n = entryAt s n ∨
    ((entryAt s n).wb = none ∧ entryAt (commitWriteBack w st v s) n = { entryAt s n with wb := some s.cycle }) := by
  by_cases hn : n < s.table.length
  · cases hst : st.inst with
    | none => exact .inl (by simp [entryAt, hst, stampOwner])
    | some m =>
      have ht : (commitWriteBack w st v s).table = stampWb s.table m s.cycle := by simp [hst, stampOwner]
      have he := stampWb_getD s.table m s.cycle n hn
      rw [← ht] at he
      split at he
      · rename_i hm
        exact .inr ⟨hm.2, he⟩
      · exact .inl he
  · have hlen : (commitWriteBack w st v s).table.length = s.table.length := by simp
    exact .inl (by rw [entryAt_of_le (by omega), entryAt_of_le (by omega)])

/-- Phase 3 stamps an entry's completion, if that was unset. -/
theorem entryAt_executePhase (s0 s : State) (n : Nat) :
    entryAt (executePhase s0 s) n = entryAt s n ∨
    ((entryAt s n).complete = none ∧
      entryAt (executePhase s0 s) n = { entryAt s n with complete := some s0.cycle }) := by
  by_cases hn : n < s.table.length
  · have he : entryAt (executePhase s0 s) n = _ := stampComplete_getD _ _ _ s0.cycle s.table n hn
    split at he
    · rename_i hc
      exact .inr ⟨hc.1, he⟩
    · exact .inl he
  · have hlen : (executePhase s0 s).table.length = s.table.length := by simp
    exact .inl (by rw [entryAt_of_le (by omega), entryAt_of_le (by omega)])

/-- Issue leaves every entry but the cursor's. -/
theorem entryAt_commitIssue_of_ne (op : Opcode) (rd : RegIdx) (j k : Slot) (u : Nat) {s : State} {n : Nat}
    (h : n ≠ s.cursor) : entryAt (commitIssue op rd j k u s) n = entryAt s n := by
  simp [entryAt, stampIssue, List.getD_eq_getElem?_getD, Ne.symm h]

/-- Issue stamps the cursor's entry, if there is one. -/
theorem entryAt_commitIssue_cursor (op : Opcode) (rd : RegIdx) (j k : Slot) (u : Nat) {s : State}
    (h : s.cursor < s.table.length) : entryAt (commitIssue op rd j k u s) s.cursor =
      { entryAt s s.cursor with issue := some s.cycle, station := some u } :=
  (stampIssue_getD s.table s.cursor s.cycle u s.cursor h).trans (if_pos rfl)

/-! ### What write-back leaves alone -/

theorem writeBack_commits {s s1 : State} (h : writeBack s = some s1) :
    s1 = s ∨ ∃ w st v, s1 = commitWriteBack w st v s := by
  rcases writeBack_cases s with ⟨-, hw⟩ | ⟨w, st, v, -, -, -, hw⟩ | ⟨w, -, -, hw⟩ <;> cases hw.symm.trans h
  · exact .inl rfl
  · exact .inr ⟨w, st, v, rfl⟩

theorem writeBack_frame {s s1 : State} (h : writeBack s = some s1) :
    s1.cursor = s.cursor ∧ s1.cfg = s.cfg ∧ s1.cycle = s.cycle ∧ s1.table.length = s.table.length := by
  rcases writeBack_commits h with rfl | ⟨w, st, v, rfl⟩ <;> simp

theorem entryAt_writeBack {s s1 : State} (h : writeBack s = some s1) (n : Nat) :
    entryAt s1 n = entryAt s n ∨
    ((entryAt s n).wb = none ∧ entryAt s1 n = { entryAt s n with wb := some s.cycle }) := by
  rcases writeBack_commits h with rfl | ⟨w, st, v, rfl⟩
  · exact .inl rfl
  · exact entryAt_commitWriteBack w st v s n

/-! ### The cursor (R21) -/

theorem entryAt_executePhase_issue (s0 s : State) (n : Nat) :
    (entryAt (executePhase s0 s) n).issue = (entryAt s n).issue := by
  rcases entryAt_executePhase s0 s n with h | ⟨-, h⟩ <;> rw [h]

theorem entryAt_writeBack_issue {s s1 : State} (h : writeBack s = some s1) (n : Nat) :
    (entryAt s1 n).issue = (entryAt s n).issue := by
  rcases entryAt_writeBack h n with h | ⟨-, h⟩ <;> rw [h]

/-- Settles O21: only the issue of the instruction at the cursor moves the cursor, and only it sets an issue stamp. -/
theorem cursorAdvancesWithIssue : Obligations.CursorAdvancesWithIssue := by
  intro s t hco hrst hs
  rcases step_cases s with ⟨h, -⟩ | ⟨-, hrun, hc⟩ | ⟨-, -, hq⟩
  · simp [hrst] at h
  · rcases cycle_commits hrun (hc.symm.trans hs) with ⟨e, rfl⟩ | ⟨s1, hw, rfl⟩ | ⟨s1, i, u, hw, hlt, rfl⟩
    · exact .inl ⟨rfl, fun _ => rfl⟩
    · exact .inl ⟨(writeBack_frame hw).1, fun n =>
        (entryAt_executePhase_issue ..).trans (entryAt_writeBack_issue hw n)⟩
    · obtain ⟨hcur, hcfg, hcyc, hlen⟩ := writeBack_frame hw
      rw [hcur, hcfg] at hlt
      have htab : s1.cursor < s1.table.length := by rw [hcur, hlen, hco.table_length]; exact hlt
      refine .inr ⟨by simp [hcur], hlt, by rw [hco.waiting_entry _ le_rfl]; rfl, ?_, fun n hn => ?_⟩
      · rw [entryAt_advancePhase, entryAt_executePhase_issue, ← hcur, entryAt_commitIssue_cursor _ _ _ _ _ htab, hcyc]
      · rw [entryAt_advancePhase, entryAt_executePhase_issue, entryAt_commitIssue_of_ne _ _ _ _ _ (hcur ▸ hn),
          entryAt_writeBack_issue hw]
  · cases hq.symm.trans hs
    exact .inl ⟨rfl, fun _ => rfl⟩

/-! ### Stamps stay (R33) -/

/-- Every stamp and the station number that `e` has set, `e'` has too, with the same value (R33). -/
structure Kept (e e' : ItEntry) : Prop where
  issue : e.issue ≠ none → e'.issue = e.issue
  complete : e.complete ≠ none → e'.complete = e.complete
  wb : e.wb ≠ none → e'.wb = e.wb
  station : e.station ≠ none → e'.station = e.station

theorem Kept.refl (e : ItEntry) : Kept e e := ⟨fun _ => rfl, fun _ => rfl, fun _ => rfl, fun _ => rfl⟩

theorem Kept.trans {e e' e'' : ItEntry} (h : Kept e e') (h' : Kept e' e'') : Kept e e'' where
  issue hi := (h'.issue (h.issue hi ▸ hi)).trans (h.issue hi)
  complete hc := (h'.complete (h.complete hc ▸ hc)).trans (h.complete hc)
  wb hw := (h'.wb (h.wb hw ▸ hw)).trans (h.wb hw)
  station ht := (h'.station (h.station ht ▸ ht)).trans (h.station ht)

theorem kept_writeBack {s s1 : State} (h : writeBack s = some s1) (n : Nat) : Kept (entryAt s n) (entryAt s1 n) := by
  rcases entryAt_writeBack h n with h | ⟨hn, h⟩ <;> rw [h]
  · exact .refl _
  · exact ⟨fun _ => rfl, fun _ => rfl, fun hw => absurd hn hw, fun _ => rfl⟩

theorem kept_executePhase (s0 s : State) (n : Nat) : Kept (entryAt s n) (entryAt (executePhase s0 s) n) := by
  rcases entryAt_executePhase s0 s n with h | ⟨hn, h⟩ <;> rw [h]
  · exact .refl _
  · exact ⟨fun _ => rfl, fun hc => absurd hn hc, fun _ => rfl, fun _ => rfl⟩

/-- Issue keeps every entry, if nothing but a write-back or completion stamp stands in the cursor's. -/
theorem kept_commitIssue (op : Opcode) (rd : RegIdx) (j k : Slot) (u : Nat) {s : State}
    (hlen : s.cursor < s.table.length) (hi : (entryAt s s.cursor).issue = none)
    (ht : (entryAt s s.cursor).station = none) (n : Nat) :
    Kept (entryAt s n) (entryAt (commitIssue op rd j k u s) n) := by
  by_cases hn : n = s.cursor
  · rw [hn, entryAt_commitIssue_cursor op rd j k u hlen]
    exact ⟨fun h => absurd hi h, fun _ => rfl, fun _ => rfl, fun h => absurd ht h⟩
  · rw [entryAt_commitIssue_of_ne op rd j k u hn]
    exact .refl _

/-- In a coherent state no step without reset loses or changes a stamp. -/
theorem kept_step {s t : State} (hco : Coherent s) (hrst : s.pins.rst = false) (hs : step s = .next t) (n : Nat) :
    Kept (entryAt s n) (entryAt t n) := by
  rcases step_cases s with ⟨h, -⟩ | ⟨-, hrun, hc⟩ | ⟨-, -, hq⟩
  · simp [hrst] at h
  · rcases cycle_commits hrun (hc.symm.trans hs) with ⟨e, rfl⟩ | ⟨s1, hw, rfl⟩ | ⟨s1, i, u, hw, hlt, rfl⟩
    · exact .refl _
    · exact (kept_writeBack hw n).trans (kept_executePhase ..)
    · obtain ⟨hcur, hcfg, -, hlen⟩ := writeBack_frame hw
      rw [hcfg, ← hco.table_length, ← hlen] at hlt
      have hblank := hco.waiting_entry s.cursor le_rfl
      have hi : (entryAt s1 s1.cursor).issue = none ∧ (entryAt s1 s1.cursor).station = none := by
        rcases entryAt_writeBack hw s1.cursor with h | ⟨-, h⟩ <;> rw [h, hcur, hblank] <;> exact ⟨rfl, rfl⟩
      exact (kept_writeBack hw n).trans ((kept_commitIssue _ _ _ _ u hlt hi.1 hi.2 n).trans (kept_executePhase ..))
  · cases hq.symm.trans hs
    exact .refl _

/-- Settles O24: each phase sets a stamp only where none was set. -/
theorem stampsAreSetOnce : Obligations.StampsAreSetOnce := by
  intro s t hco hrst hs n
  obtain ⟨hi, hc, hw, ht⟩ := kept_step hco hrst hs n
  exact ⟨hi, hc, hw, ht⟩

/-! ### The frame of issue (R23, R107, R108) -/

theorem regAt_commitIssue_of_ne (op : Opcode) {rd : RegIdx} (j k : Slot) (u : Nat) (s : State) {r : Nat}
    (h : r ≠ rd.toNat) : regAt (commitIssue op rd j k u s) r = regAt s r := by
  simp [regAt, renameReg, List.getD_eq_getElem?_getD, Ne.symm h]

/-- Renaming keeps the destination's value. -/
theorem regAt_commitIssue_val (op : Opcode) (rd : RegIdx) (j k : Slot) (u : Nat) (s : State) (r : Nat) :
    (regAt (commitIssue op rd j k u s) r).val = (regAt s r).val := by
  by_cases hr : r < s.regs.length
  · have h : regAt (commitIssue op rd j k u s) r = _ := renameReg_getD s.regs rd u r _ hr
    rw [h]
    split <;> rfl
  · simp [regAt, Nat.le_of_not_lt hr]

theorem stationAt_commitIssue_of_ne (op : Opcode) (rd : RegIdx) (j k : Slot) {u v : Nat} (s : State) (h : v ≠ u) :
    stationAt (commitIssue op rd j k u s) v = stationAt s v := by
  simp [stationAt, List.getD_eq_getElem?_getD, Ne.symm h]

theorem entryAt_commitIssue_complete_wb (op : Opcode) (rd : RegIdx) (j k : Slot) (u : Nat) (s : State) (n : Nat) :
    (entryAt (commitIssue op rd j k u s) n).complete = (entryAt s n).complete ∧
    (entryAt (commitIssue op rd j k u s) n).wb = (entryAt s n).wb := by
  by_cases hn : n < s.table.length
  · have h : entryAt (commitIssue op rd j k u s) n = _ := stampIssue_getD s.table s.cursor s.cycle u n hn
    rw [h]
    split <;> exact ⟨rfl, rfl⟩
  · simp [entryAt, Nat.le_of_not_lt hn]

/-- Settles O28: a stall and an unknown register change no element of these, and the commit fills the first free
station, renames the destination and stamps the cursor's entry. -/
theorem issueChangesNothingElse : Obligations.IssueChangesNothingElse := by
  intro i s t h
  rcases exec_cases i s with ⟨-, hx⟩ | ⟨u, f, r, -, -, hx⟩ | ⟨u, ha, -, hx⟩ <;> cases hx.symm.trans h
  · simp
  · simp [regAt, stationAt]
  · have hfree : FirstFree s i.op.unit u := (allocate_eq_some ..).mp ha
    obtain ⟨hc, hw⟩ := entryAt_commitIssue_complete_wb i.op i.rd (operandJ s.regs i) (operandK s.regs i) u s s.cursor
    exact ⟨fun r hr => regAt_commitIssue_of_ne _ _ _ _ _ hr, regAt_commitIssue_val .., by simp,
      fun v hv => stationAt_commitIssue_of_ne _ _ _ _ _ fun hvu => hv (hvu ▸ hfree), by simp,
      fun n hn => entryAt_commitIssue_of_ne _ _ _ _ _ hn, hc, hw, by simp, rfl, rfl, rfl, rfl, fun _ => rfl⟩

/-! ### The ports while the engine runs (R37, R38, R42) -/

/-- The state with other values at its input ports. -/
def withPins (p : Pins) (s : State) : State := { s with pins := p }

theorem writeBack_withPins (p : Pins) (s : State) :
    writeBack (withPins p s) = (writeBack s).map (withPins p) := by
  rcases writeBack_cases s with ⟨hq, hw⟩ | ⟨w, st, v, hq, hst, hv, hw⟩ | ⟨w, hq, hst, hw⟩ <;> rw [hw]
  · simp [writeBack, withPins, hq]
  · simp [writeBack, withPins, hq, hst, hv, commitWriteBack]
  · cases h : s.stations[w]? with
    | none => simp [writeBack, withPins, hq, h]
    | some st => simp [writeBack, withPins, hq, h, hst st h]

theorem exec_withPins (p : Pins) {i : Instr} {s t : State} (h : exec i s = .next t) :
    exec i (withPins p s) = .next (withPins p t) := by
  rcases exec_cases i s with ⟨ha, hx⟩ | ⟨u, f, r, ha, hu, hx⟩ | ⟨u, ha, hu, hx⟩ <;>
    cases hx.symm.trans h <;> rw [exec_eq_issueInto]
  · simp [issueInto, withPins, ha]
  · simp [issueInto, withPins, ha, hu, raiseError]
  · simp [issueInto, withPins, ha, hu, commitIssue]

theorem issuePhase_withPins (p : Pins) {s t : State} (h : issuePhase s = .next t) :
    issuePhase (withPins p s) = .next (withPins p t) := by
  have hf : fetch (withPins p s) = fetch s := rfl
  have hc : (withPins p s).cursor = s.cursor := rfl
  have hn : (withPins p s).cfg = s.cfg := rfl
  rcases issuePhase_cases s with ⟨hlt, hi⟩ | ⟨i, hlt, hd, hi⟩ | ⟨why, hlt, hd, hi⟩
  · cases hi.symm.trans h
    simp [issuePhase, hc, hn, Nat.not_lt.mpr hlt]
  · simp only [issuePhase, hf, hc, hn, hlt, hd, if_true]
    exact exec_withPins p (hi.symm.trans h)
  · cases hi.symm.trans h
    simp only [issuePhase, hf, hc, hn, hlt, hd, if_true]
    rfl

theorem finishCycle_withPins (p : Pins) (s0 s : State) :
    finishCycle (withPins p s0) (withPins p s) = withPins p (finishCycle s0 s) := by
  have hrun : (withPins p s).run = s.run := rfl
  unfold finishCycle
  rw [hrun]
  cases s.run <;> rfl

theorem cycle_withPins (p : Pins) {s t : State} (h : cycle s = .next t) :
    cycle (withPins p s) = .next (withPins p t) := by
  have hw' := writeBack_withPins p s
  rcases cycle_cases s with ⟨hw, hc⟩ | ⟨s1, s2, hw, hi, hc⟩ <;> cases hc.symm.trans h <;> rw [hw] at hw'
  · rw [cycle, hw']
    rfl
  · rw [cycle, hw', Option.map_some]
    simp only [issuePhase_withPins p hi, finishCycle_withPins]

/-- Settles O14: no phase of a cycle reads the ports, and without reset nothing but a cycle changes the state. -/
theorem portsAreIgnoredWhileRunning : Obligations.PortsAreIgnoredWhileRunning := by
  intro s t p hrst hp hs
  change step (withPins p s) = .next (withPins p t)
  have hrst' : (withPins p s).pins.rst = false := hp
  have hrun : (withPins p s).run = s.run := rfl
  simp only [step, hrst, hrst', hrun, Bool.false_eq_true, if_false] at hs ⊢
  cases hr : s.run with
  | run => exact cycle_withPins p (by simpa only [hr] using hs)
  | done => simp only [hr, Host.Outcome.next.injEq] at hs ⊢; rw [hs]
  | fault e => simp only [hr, Host.Outcome.next.injEq] at hs ⊢; rw [hs]

end Sys2Proof.EngineState
end

