-- ==== Sys2Proof/Proofs/ResetState.lean ====
section
/-! PROOFS. The reset state, element by element (spec 10_state.md R50, 70_reset_and_hazards.md R200), and that it has
the invariants which the steps keep. -/

namespace Sys2Proof.EngineState

open Sys2Proof.Config
open Sys2Proof.Machine
open Sys2Proof.Safety
open Sys2Proof.Laws

/-! ### Every element at its reset value (R50, R200) -/

@[simp] theorem initRegs_length (cfg : Params) : (initRegs cfg).length = cfg.nregs.toNat := by simp [initRegs]

@[simp] theorem initStations_length (cfg : Params) : (initStations cfg).length = stationCount cfg := by
  simp [initStations]

@[simp] theorem initTable_length (cfg : Params) : (initTable cfg).length = cfg.progLen.toNat := by simp [initTable]

theorem regAt_init (cfg : Params) (prog : ProgStore) (pins : Pins) {i : Nat} (h : i < cfg.nregs.toNat) :
    regAt (State.init cfg prog pins) i = { val := initVal cfg i, tag := none } := by
  simp [regAt, initRegs, h]

/-- Every station of the reset state is free; one beyond the end reads as a free one. -/
@[simp] theorem stationAt_init (cfg : Params) (prog : ProgStore) (pins : Pins) (t : Nat) :
    stationAt (State.init cfg prog pins) t = freeStation := by
  simp only [stationAt, init_stations, initStations, List.getD_eq_getElem?_getD, List.getElem?_replicate]
  split <;> rfl

/-- Every entry of the reset state is blank; one beyond the end reads as a blank one. -/
@[simp] theorem entryAt_init (cfg : Params) (prog : ProgStore) (pins : Pins) (n : Nat) :
    entryAt (State.init cfg prog pins) n = blankEntry := by
  simp only [entryAt, init_table, initTable, List.getD_eq_getElem?_getD, List.getElem?_replicate]
  split <;> rfl

/-- Settles O6: the reset edge answers `init`, each of whose elements has its reset value. -/
theorem resetEdgeLeavesResetValues : Obligations.ResetEdgeLeavesResetValues := by
  intro s hrst
  refine ⟨resetEdge s, step_of_rst hrst, rfl, rfl, rfl, rfl, rfl, rfl, rfl, initRegs_length _, fun i hi => ?_,
    initStations_length _, fun u _ => stationAt_init .., initTable_length _, fun n _ => entryAt_init ..⟩
  have h := regAt_init (loadConfig s.cfg s.pins) (loadProgram s.prog s.pins) s.pins
    (hi.trans_eq (initRegs_length _))
  exact ⟨congrArg Reg.val h, congrArg Reg.tag h⟩

/-! ### The invariants at reset (R130, R200) -/

/-- Validation answers RUN only for a program with an instruction, and DONE only for an empty one (R129, R201). -/
theorem progLen_of_validate {cfg : Params} {prog : ProgStore} :
    (validate cfg prog = .run → cfg.progLen.toNat ≠ 0) ∧ (validate cfg prog = .done → cfg.progLen.toNat = 0) := by
  unfold validate
  split
  · simp
  · split
    · simp
    · split <;> simp_all

theorem allWrittenBack_initTable (cfg : Params) :
    allWrittenBack (initTable cfg) = true ↔ cfg.progLen.toNat = 0 := by
  simp [allWrittenBack, initTable, List.all_replicate, blankEntry]

/-- Nothing has issued and no station is busy, so what the invariants say of the cursor's past and of busy stations
speaks of nothing; the rest is the reset values. -/
theorem coherent_init (cfg : Params) (prog : ProgStore) (pins : Pins) : Coherent (State.init cfg prog pins) where
  regs_length := initRegs_length cfg
  stations_length := initStations_length cfg
  table_length := initTable_length cfg
  cursor_le := Nat.zero_le _
  validated := id
  unfinished h := by
    rw [Bool.eq_false_iff, ne_eq, init_table, allWrittenBack_initTable]
    exact progLen_of_validate.1 h
  finished h := (allWrittenBack_initTable cfg).mpr (progLen_of_validate.2 h)
  in_flight _ h := absurd h (Nat.lt_irrefl 0)
  free_station t _ _ := stationAt_init ..
  busy_station t _ h := by simp [freeStation] at h
  waits t _ h := by simp [freeStation] at h
  issued_entry n h := absurd h (Nat.not_lt_zero n)
  waiting_entry n _ := entryAt_init ..
  stamps n h := absurd h (Nat.not_lt_zero n)
  tags i hi t := by
    rw [init_regs, initRegs_length] at hi
    simp [regAt_init _ _ _ hi, lastWriter]
  latch := ((arbitrate_eq_none _).mpr fun t _ => by
    rw [show (State.init cfg prog pins).stations.getD t freeStation = freeStation from stationAt_init ..]; rfl).symm

/-- Sequential execution of no instruction leaves the initial values (R70). -/
theorem faithful_init (cfg : Params) (prog : ProgStore) (pins : Pins) : Faithful (State.init cfg prog pins) where
  regs i hi _ := by
    rw [init_regs, initRegs_length] at hi
    simp [regAt_init _ _ _ hi, seqRegs, hi]
  slots t _ h := by simp [freeStation] at h

/-- Settles O52: every configuration and program, legal or not, resets to a state with the three invariants. -/
theorem invariantsHoldAtReset : Obligations.InvariantsHoldAtReset := fun cfg prog pins =>
  ⟨coherent_init cfg prog pins, faithful_init cfg prog pins, Scope.valuesFit_init cfg prog pins⟩

end Sys2Proof.EngineState
end

