-- ==== Sys2Proof/Proofs/HostMap.lean ====
section
/-! PROOFS. The host's register map and ports (spec 10_state.md R37 to R39): what each number reads, which numbers read
0, and where the writes land while `rst = 1`. -/

namespace Sys2Proof.EngineState

open Sys2Proof.Config
open Sys2Proof.Machine
open Sys2Proof.Safety
open Sys2Proof.Laws

/-! ### Numbers that name no register, and numbers that name one the host cannot write (R39) -/

theorem hostRegOf_of_low {a : BitVec 20} (h : a.toNat < 0x100) : hostRegOf a = lowHostReg a.toNat := by
  simp only [hostRegOf, show a.toNat / 0x10000 = 0 by omega, show a.toNat / 0x100 = 0 by omega]

theorem hostRegOf_of_gap {a : BitVec 20} (h : 0x800 ≤ a.toNat) (h' : a.toNat ≤ 0xFFFF) : hostRegOf a = .unused := by
  simp only [hostRegOf, show a.toNat / 0x10000 = 0 by omega]
  split
  case h_9 => rfl
  all_goals omega

theorem hostRegOf_of_above {a : BitVec 20} (h : 0x50000 ≤ a.toNat) : hostRegOf a = .unused := by
  simp only [hostRegOf]
  split
  case h_6 => rfl
  all_goals omega

theorem lowHostReg_of_gap {a : Nat} (h : (0x04 ≤ a ∧ a ≤ 0x0F) ∨ (0x16 ≤ a ∧ a ≤ 0x17) ∨ 0x1E ≤ a) :
    lowHostReg a = .unused := by
  unfold lowHostReg
  split
  case h_17 => rfl
  all_goals omega

/-- Every undefined number names no register. -/
theorem hostRegOf_unused {a : BitVec 20} (h : (0x04 ≤ a.toNat ∧ a.toNat ≤ 0x0F) ∨ (0x16 ≤ a.toNat ∧ a.toNat ≤ 0x17) ∨
    (0x1E ≤ a.toNat ∧ a.toNat ≤ 0xFF) ∨ (0x800 ≤ a.toNat ∧ a.toNat ≤ 0xFFFF) ∨ 0x50000 ≤ a.toNat) :
    hostRegOf a = .unused := by
  by_cases hlow : a.toNat < 0x100
  · rw [hostRegOf_of_low hlow]
    exact lowHostReg_of_gap (by omega)
  · by_cases hgap : a.toNat ≤ 0xFFFF
    · exact hostRegOf_of_gap (by omega) hgap
    · exact hostRegOf_of_above (by omega)

theorem writeHostReg_lowHostReg {a : Nat} (cfg : Params) (d : Word) (h : ¬ (0x10 ≤ a ∧ a ≤ 0x15))
    (h' : ¬ (0x18 ≤ a ∧ a ≤ 0x1D)) : writeHostReg cfg (lowHostReg a) d = cfg := by
  unfold lowHostReg
  split
  case h_1 | h_2 | h_3 | h_4 | h_17 => rfl
  all_goals omega

/-- From 0x200 on no register takes a write. -/
theorem writeHostReg_of_ge {a : BitVec 20} (cfg : Params) (d : Word) (h : 0x200 ≤ a.toNat) :
    writeHostReg cfg (hostRegOf a) d = cfg := by
  simp only [hostRegOf]
  split
  · split
    case h_1 | h_2 => omega
    all_goals rfl
  all_goals rfl

/-! ### Writes in reset (R37, R38, R39) -/

theorem loadConfig_of_write (cfg : Params) {pins : Pins} (h : pins.hostWe = true) :
    loadConfig cfg pins = writeHostReg cfg (hostRegOf pins.hostAddr) pins.hostWdata := by
  simp [loadConfig, h]

theorem vector_getD_set (v : Vector Word 256) (i k : Nat) (h : i < 256) (x : Word) :
    (v.set i x h).getD k 0#64 = if i = k then x else v.getD k 0#64 := by
  simp only [Vector.getD, Array.getD_eq_getD_getElem?, Vector.toArray_set, Array.getElem?_set]
  split <;> simp_all

theorem lowFlen_eq_field (fmt : Fmt) (w : Word) : lowFlen fmt w = field w.toNat fmt.flen 0 := by
  apply BitVec.eq_of_toNat_eq
  cases fmt with
  | binary64 =>
    have hlt := w.isLt
    simp only [lowFlen, field, Fmt.flen, BitVec.toNat_ofNat]
    omega
  | binary32 =>
    have hmask : w.toNat &&& 0xFFFFFFFF = w.toNat % 2 ^ 32 := Nat.and_two_pow_sub_one_eq_mod w.toNat 32
    simp only [lowFlen, field, Fmt.flen, BitVec.toNat_and, BitVec.toNat_ofNat, Nat.reducePow, Nat.reduceMod, hmask]
    omega

theorem fieldsAre_lowFlen (fmt : Fmt) (w : Word) : FieldsAre (lowFlen fmt w) [(0, fmt.flen, w.toNat)] := by
  rw [lowFlen_eq_field]
  exact fieldsAre_field _ _ _ (by cases fmt <;> decide)

theorem writeHostReg_cfgInit (cfg : Params) (d : Word) {i : Nat} (h : i < 256) :
    writeHostReg cfg (.cfgInit (BitVec.ofNat 8 i)) d = { cfg with init := cfg.init.set i (lowFlen cfg.fmt d) h } := by
  simp [writeHostReg, Nat.mod_eq_of_lt h]

/-- Settles O15: the edge loads the configuration that the port write leaves, whose register is read off its number. -/
theorem configurationWritesLandInReset : Obligations.ConfigurationWritesLandInReset := by
  rintro s t _ _ hrst rfl rfl hs
  cases (step_of_rst hrst).symm.trans hs
  change (_ → loadConfig s.cfg s.pins = _) ∧ _
  refine ⟨fun hwe => by simp [loadConfig, hwe], fun hwe => ?_⟩
  have hcfg : (resetEdge s).cfg = writeHostReg s.cfg (hostRegOf s.pins.hostAddr) s.pins.hostWdata :=
    loadConfig_of_write _ hwe
  rw [hcfg]
  refine ⟨?_, ?_, ?_, ?_, ?_, ?_, ?_, ?_, ?_, ?_, ?_, ?_, fun i hi ha => ?_, fun hlat hsize hinit => ?_⟩
  case refine_13 =>
    rw [ha, hostRegOf_cfgInit i hi, writeHostReg_cfgInit _ _ hi]
    refine ⟨rfl, ?_, fun k hk => ?_⟩
    · rw [vector_getD_set, if_pos rfl]
      exact fieldsAre_lowFlen ..
    · rw [vector_getD_set, if_neg (Ne.symm hk)]
  case refine_14 =>
    by_cases hlow : s.pins.hostAddr.toNat < 0x100
    · rw [hostRegOf_of_low hlow]
      exact writeHostReg_lowHostReg _ _ hlat hsize
    · exact writeHostReg_of_ge _ _ (by omega)
  all_goals exact fun ha => ha ▸ rfl

/-- Settles O16: the edge loads the program store that the port write leaves, and a store in canonical form reads back
what was written. -/
theorem programWritesLandInReset : Obligations.ProgramWritesLandInReset := by
  intro s t hrst hwe hwf hs
  cases (step_of_rst hrst).symm.trans hs
  have hprog : (resetEdge s).prog = progWrite s.prog s.pins.progAddr.toNat s.pins.progWdata := by
    simp [resetEdge, loadProgram, hwe]
  rw [hprog]
  exact ⟨progRead_progWrite_same _ _ _ hwf.1, fun n hn => progRead_progWrite_other _ _ _ _ hn⟩

/-! ### Reads of elements by index (R38, R39) -/

theorem hostRead_init (s : State) {i : Nat} (h : i < 256) : hostRead s (BitVec.ofNat 20 (0x100 + i)) =
    if i < s.cfg.nregs.toNat then initVal s.cfg i else 0#64 := by
  simp [hostRead, hostRegOf_cfgInit i h, hostRegValue, Nat.mod_eq_of_lt h]

/-- The two registers of register `i`. -/
theorem hostRead_regs (s : State) {i : Nat} (h : i < 256) :
    hostRead s (BitVec.ofNat 20 (0x200 + i)) = ((s.regs[i]?).map fun reg => lowFlen s.cfg.fmt reg.val).getD 0#64 ∧
    hostRead s (BitVec.ofNat 20 (0x300 + i)) = ((s.regs[i]?).map fun reg => tagView reg.tag).getD 0#64 := by
  simp [hostRead, hostRegOf_regVal i h, hostRegOf_regTag i h, hostRegValue, Nat.mod_eq_of_lt h]

/-- The four registers of station `u`. -/
theorem hostRead_stations (s : State) {u : Nat} (h : u < 256) :
    hostRead s (BitVec.ofNat 20 (0x400 + u)) = ((s.stations[u]?).map fun st => ctlView (classOf s.cfg u) st).getD 0#64 ∧
    hostRead s (BitVec.ofNat 20 (0x500 + u)) = ((s.stations[u]?).map slotsView).getD 0#64 ∧
    hostRead s (BitVec.ofNat 20 (0x600 + u)) =
      ((s.stations[u]?).map fun st => lowFlen s.cfg.fmt (slotVal st.j)).getD 0#64 ∧
    hostRead s (BitVec.ofNat 20 (0x700 + u)) =
      ((s.stations[u]?).map fun st => lowFlen s.cfg.fmt (slotVal st.k)).getD 0#64 := by
  simp [hostRead, hostRegOf_rsCtl u h, hostRegOf_rsSlots u h, hostRegOf_rsJval u h, hostRegOf_rsKval u h, hostRegValue,
    Nat.mod_eq_of_lt h]

/-- The four registers of status entry `n`. -/
theorem hostRead_table (s : State) {n : Nat} (h : n < 65536) :
    hostRead s (BitVec.ofNat 20 (0x10000 + n)) = ((s.table[n]?).map fun e => stampView e.issue).getD 0#64 ∧
    hostRead s (BitVec.ofNat 20 (0x20000 + n)) = ((s.table[n]?).map fun e => stampView e.complete).getD 0#64 ∧
    hostRead s (BitVec.ofNat 20 (0x30000 + n)) = ((s.table[n]?).map fun e => stampView e.wb).getD 0#64 ∧
    hostRead s (BitVec.ofNat 20 (0x40000 + n)) = ((s.table[n]?).map fun e => tagView e.station).getD 0#64 := by
  simp [hostRead, hostRegOf_itIssue n h, hostRegOf_itComplete n h, hostRegOf_itWb n h, hostRegOf_itStation n h,
    hostRegValue, Nat.mod_eq_of_lt h]

/-- Settles O60: an undefined number names no register, and an index beyond a list finds no element. -/
theorem unusedHostNumbersReadZero : Obligations.UnusedHostNumbersReadZero := by
  intro s
  refine ⟨fun a ha => by rw [hostRead, hostRegOf_unused ha]; rfl, fun i hi hn => ?_, fun i hi hlen => ?_,
    fun u hu hlen => ?_, fun n hn hlen => ?_⟩
  · rw [hostRead_init s hi, if_neg (Nat.not_lt.mpr hn)]
  · have hnone : s.regs[i]? = none := List.getElem?_eq_none
      (hlen.elim id fun ⟨hco, h⟩ => hco.regs_length.trans_le h)
    simp [hostRead_regs s hi, hnone]
  · have hnone : s.stations[u]? = none := List.getElem?_eq_none
      (hlen.elim id fun ⟨hco, h⟩ => hco.stations_length.trans_le h)
    simp [hostRead_stations s hu, hnone]
  · have hnone : s.table[n]? = none := List.getElem?_eq_none
      (hlen.elim id fun ⟨hco, h⟩ => hco.table_length.trans_le h)
    simp [hostRead_table s hn, hnone]

/-! ### The views by their bits (R39) -/

/-- One more field, put above or below the others. -/
theorem fieldsAre_or_field {w : Word} {fs : List (Nat × Nat × Nat)} (hw : FieldsAre w fs) {v width lo : Nat}
    (h : lo + width ≤ 64) (hd : ∀ f ∈ fs, f.1 + f.2.1 ≤ lo ∨ lo + width ≤ f.1) :
    FieldsAre (w ||| field v width lo) (fs ++ [(lo, width, v)]) :=
  fieldsAre_or _ _ _ _ hw (fieldsAre_field _ _ _ h) (by simpa using hd)

/-- `STATUS` of a fault, with every field named. -/
theorem fieldsAre_statusView_fault (e : EngineError) : FieldsAre (statusView (.fault e))
    [(0, 2, 2), (4, 4, errorCode e), (16, 16, errorIndex e), (32, 8, errorDetail e), (40, 8, errorReg e)] := by
  have hcode := fieldsAre_or_field (v := errorCode e) (width := 4) (lo := 4)
    (fieldsAre_field 2 2 0 (by omega)) (by omega) (by simp)
  have hindex := fieldsAre_or_field (v := errorIndex e) (width := 16) (lo := 16) hcode (by omega) (by simp)
  have hdetail := fieldsAre_or_field (v := errorDetail e) (width := 8) (lo := 32) hindex (by omega) (by simp)
  exact fieldsAre_or_field (v := errorReg e) (width := 8) (lo := 40) hdetail (by omega) (by simp)

/-- `STATUS`: the fields that an error leaves 0 need not be named. -/
theorem fieldsAre_statusView (rs : RunState) : FieldsAre (statusView rs) (statusFields rs) := by
  cases rs with
  | run => exact fieldsAre_field 0 2 0 (by omega)
  | done => exact fieldsAre_field 1 2 0 (by omega)
  | fault e =>
    have h := fieldsAre_statusView_fault e
    cases e with
    | invalidInstruction n why => cases why <;> exact fieldsAre_of_append_zero (fs := [_, _, _, _]) h
    | unknownRegister n f r => cases f <;> exact h
    | invariantViolation =>
      have h4 := fieldsAre_of_append_zero (fs := [_, _, _, _]) h
      have h3 := fieldsAre_of_append_zero (fs := [_, _, _]) h4
      exact fieldsAre_of_append_zero (fs := [_, _]) h3
    | configError register =>
      have h4 := fieldsAre_of_append_zero (fs := [_, _, _, _]) h
      exact fieldsAre_of_append_zero (fs := [_, _, _]) h4

theorem classCode_classOf (cfg : Params) (u : Nat) : classCode (classOf cfg u) = stationClassNumber cfg u := by
  simp only [classOf, apply_ite classCode]
  rfl

theorem opView_eq_opNumber (op : Option Opcode) : opView op = opNumber op := by
  cases op with
  | none => rfl
  | some op => cases op <;> rfl

theorem fieldsAre_ctlView (cfg : Params) (u : Nat) (st : Station) : FieldsAre (ctlView (classOf cfg u) st)
    [(0, 1, st.busy.toNat), (1, 2, stationClassNumber cfg u), (4, 3, opNumber st.op), (7, 1, st.inst.isSome.toNat),
      (8, 16, st.inst.getD 0), (24, 8, st.lat.toNat), (32, 8, st.elapsed.toNat)] := by
  rw [← classCode_classOf, ← opView_eq_opNumber]
  have hclass := fieldsAre_or_field (v := classCode (classOf cfg u)) (width := 2) (lo := 1)
    (fieldsAre_field st.busy.toNat 1 0 (by omega)) (by omega) (by simp)
  have hop := fieldsAre_or_field (v := opView st.op) (width := 3) (lo := 4) hclass (by omega) (by simp)
  have howned := fieldsAre_or_field (v := st.inst.isSome.toNat) (width := 1) (lo := 7) hop (by omega) (by simp)
  have howner := fieldsAre_or_field (v := st.inst.getD 0) (width := 16) (lo := 8) howned (by omega) (by simp)
  have hlat := fieldsAre_or_field (v := st.lat.toNat) (width := 8) (lo := 24) howner (by omega) (by simp)
  exact fieldsAre_or_field (v := st.elapsed.toNat) (width := 8) (lo := 32) hlat (by omega) (by simp)

/-- A slot's kind and tag; only a waiting slot has a tag. -/
theorem fieldsAre_slot (x : Slot) {lo : Nat} (h : lo + 16 ≤ 64) :
    FieldsAre (field (slotKind x) 2 lo ||| field (slotTag x) 8 (lo + 8)) (slotFields lo x) := by
  have hboth := fieldsAre_or_field (v := slotTag x) (width := 8) (lo := lo + 8)
    (fieldsAre_field (slotKind x) 2 lo (by omega)) (by omega) (by simp)
  cases x with
  | pending t => exact hboth
  | empty => exact fieldsAre_of_append_zero hboth
  | resolved v => exact fieldsAre_of_append_zero hboth

theorem slotFields_bounds {lo : Nat} {x : Slot} {f : Nat × Nat × Nat} (h : f ∈ slotFields lo x) :
    lo ≤ f.1 ∧ f.1 + f.2.1 ≤ lo + 16 := by
  cases x with
  | empty => simp only [slotFields, List.mem_singleton] at h; subst h; simp
  | resolved v => simp only [slotFields, List.mem_singleton] at h; subst h; simp
  | pending t =>
    simp only [slotFields, List.mem_cons, List.not_mem_nil, or_false] at h
    rcases h with rfl | rfl <;> simp

theorem fieldsAre_slotsView (st : Station) :
    FieldsAre (slotsView st) (slotFields 0 st.j ++ slotFields 16 st.k) := by
  rw [slotsView, BitVec.or_assoc (_ ||| _)]
  refine fieldsAre_or _ _ _ _ (fieldsAre_slot st.j (by omega)) (fieldsAre_slot st.k (by omega)) fun f hf f' hf' => ?_
  exact .inl ((slotFields_bounds hf).2.trans (slotFields_bounds hf').1)

theorem isSlotValue_slotVal (fmt : Fmt) (x : Slot) : IsSlotValue fmt (lowFlen fmt (slotVal x)) x := by
  have hzero : lowFlen fmt 0#64 = 0#64 := by cases fmt <;> rfl
  cases x with
  | empty => exact ⟨nofun, fun _ => hzero⟩
  | pending t => exact ⟨nofun, fun _ => hzero⟩
  | resolved v =>
    refine ⟨fun u hu => ?_, fun h => absurd rfl (h v)⟩
    cases hu
    exact fieldsAre_lowFlen fmt v

/-! ### The outputs and the whole map (R37, R39) -/

theorem doneOut_iff (s : State) : doneOut s = true ↔ s.run = .done := by
  unfold doneOut
  cases s.run <;> simp

theorem faultOut_iff (s : State) : faultOut s = true ↔ ∃ e, s.run = .fault e := by
  unfold faultOut
  cases s.run <;> simp

theorem toNat_hostRead_cycle (s : State) : (hostRead s 0x00001#20).toNat = min s.cycle (2 ^ 64 - 1) := by
  have h : hostRead s 0x00001#20 = BitVec.ofNat 64 (min s.cycle (2 ^ 64 - 1)) := rfl
  rw [h, BitVec.toNat_ofNat]
  exact Nat.mod_eq_of_lt (by omega)

theorem fieldsAre_cfgLat (s : State) (op : Opcode) :
    FieldsAre (hostRegValue s (.cfgLat op)) [(0, 8, (latOf s.cfg op).toNat)] := fieldsAre_field _ _ _ (by omega)

theorem fieldsAre_cfgNsta (s : State) (cls : UnitClass) :
    FieldsAre (hostRegValue s (.cfgNsta cls)) [(0, 9, nstaOf s.cfg cls)] := fieldsAre_field _ _ _ (by omega)

/-- Settles O17: each number names its register, whose view holds the fields of the map. -/
theorem hostReadsShowTheState : Obligations.HostReadsShowTheState := by
  intro s
  refine ⟨doneOut_iff s, faultOut_iff s, rfl, fieldsAre_statusView s.run, toNat_hostRead_cycle s,
    fieldsAre_field s.cursor 16 0 (by omega), isTag_tagView s.cdbQ,
    fieldsAre_cfgLat s .add, fieldsAre_cfgLat s .sub, fieldsAre_cfgLat s .mul, fieldsAre_cfgLat s .div,
    fieldsAre_cfgLat s .load, fieldsAre_cfgLat s .store,
    fieldsAre_cfgNsta s .addSub, fieldsAre_cfgNsta s .mulDiv, fieldsAre_cfgNsta s .load, fieldsAre_cfgNsta s .store,
    fieldsAre_field s.cfg.nregs.toNat 9 0 (by omega), fieldsAre_field s.cfg.progLen.toNat 17 0 (by omega),
    fun i hi hn => ?_, fun i hi hlen => ?_, fun u hu hlen => ?_, fun n hn hlen => ?_⟩
  · rw [hostRead_init s hi, if_pos hn]
    exact fieldsAre_lowFlen ..
  · have hreg : s.regs[i]? = some (regAt s i) := by simp [regAt, hlen]
    obtain ⟨hval, htag⟩ := hostRead_regs s hi
    rw [hval, htag, hreg]
    exact ⟨fieldsAre_lowFlen .., isTag_tagView _⟩
  · have hst : s.stations[u]? = some (stationAt s u) := by simp [stationAt, hlen]
    obtain ⟨hctl, hslots, hj, hk⟩ := hostRead_stations s hu
    rw [hctl, hslots, hj, hk, hst]
    exact ⟨fieldsAre_ctlView .., fieldsAre_slotsView _, isSlotValue_slotVal .., isSlotValue_slotVal ..⟩
  · have he : s.table[n]? = some (entryAt s n) := by simp [entryAt, hlen]
    obtain ⟨hissue, hcomplete, hwb, hstation⟩ := hostRead_table s hn
    rw [hissue, hcomplete, hwb, hstation, he]
    exact ⟨isStamp_stampView _, isStamp_stampView _, isStamp_stampView _, isTag_tagView _⟩

end Sys2Proof.EngineState
end

