-- ==== Sys2Proof/Proofs/Program.lean ====
section
/-! PROOFS. The program store and the configuration: read-only while the engine runs (spec 20_memory.md R61, R74,
10_state.md R40), and the store's canonical form, which every step keeps (log entry 6). -/

namespace Sys2Proof.Memory

open Sys2Proof.Machine
open Sys2Proof.Laws
open Sys2Proof.EngineState

/-! ### Without reset nothing is loaded (R40, R61, R74) -/

/-- What a step without reset never writes: the configuration, the program store and the input ports. -/
def SameLoad (s t : State) : Prop := t.cfg = s.cfg ∧ t.prog = s.prog ∧ t.pins = s.pins

theorem SameLoad.refl (s : State) : SameLoad s s := ⟨rfl, rfl, rfl⟩

theorem sameLoad_writeBack {s s1 : State} (h : writeBack s = some s1) : SameLoad s s1 := by
  rcases writeBack_commits h with rfl | ⟨w, st, v, rfl⟩
  · exact .refl _
  · exact ⟨rfl, rfl, rfl⟩

theorem sameLoad_step {s t : State} (hrst : s.pins.rst = false) (hs : step s = .next t) : SameLoad s t := by
  rcases step_cases s with ⟨h, -⟩ | ⟨-, hrun, hc⟩ | ⟨-, -, hq⟩
  · simp [hrst] at h
  · rcases cycle_commits hrun (hc.symm.trans hs) with ⟨e, rfl⟩ | ⟨s1, hw, rfl⟩ | ⟨s1, i, u, hw, -, rfl⟩
    · exact ⟨rfl, rfl, rfl⟩
    · exact sameLoad_writeBack (s1 := s1) hw
    · exact sameLoad_writeBack (s1 := s1) hw
  · cases hq.symm.trans hs
    exact .refl _

/-- Settles O11: no phase of a cycle writes the configuration, the program store or the ports. -/
theorem programAndConfigurationAreImmutable : Obligations.ProgramAndConfigurationAreImmutable := by
  intro s t hrst hs
  obtain ⟨hcfg, hprog, hpins⟩ := sameLoad_step hrst hs
  exact ⟨hcfg, hprog, hpins, fun n => by rw [hprog]⟩

/-! ### The canonical form of the program store (log entry 6) -/

theorem progWf_loadProgram {p : ProgStore} (pins : Pins) (h : progWf p) : progWf (loadProgram p pins) := by
  unfold loadProgram
  split
  · exact progWf_progWrite _ _ _ pins.progAddr.isLt h
  · exact h

/-- Settles O12: a reset edge writes at most the one record at the program port, any other step none. -/
theorem programStoreStaysCanonical : Obligations.ProgramStoreStaysCanonical := by
  intro s t hwf hs
  cases hrst : s.pins.rst with
  | true =>
    cases (step_of_rst hrst).symm.trans hs
    exact progWf_loadProgram s.pins hwf
  | false =>
    obtain ⟨-, hprog, -⟩ := sameLoad_step hrst hs
    rwa [hprog]

/-- Settles O13: no program is loaded at power-on (log entry 5). -/
theorem programStoreCanonicalAtReset : Obligations.ProgramStoreCanonicalAtReset := progWf_nil

end Sys2Proof.Memory
end

