-- ==== Sys2Proof/Proofs/Sequential.lean ====
section
/-! PROOFS. Every value in the engine is the one sequential execution gives (spec 20_memory.md R70). Write-back computes
the sequential result of the winner's instruction and hands it to those alone that wait for their last writer; issue
captures sequential values, or the stations of the last writers. -/

namespace Sys2Proof.Memory

open Sys2Proof.Config
open Sys2Proof.Machine
open Sys2Proof.Safety
open Sys2Proof.Laws
open Sys2Proof.EngineState

/-! ### Sequential execution and last writers (R25, R70) -/

section
variable {cfg : Params} {prog : ProgStore}

theorem seqRegs_succ {n : Nat} {i : Instr} (h : instrAt cfg prog n = some i) :
    seqRegs cfg prog (n + 1) = (seqRegs cfg prog n).set i.rd.toNat (seqResult cfg.fmt i (seqRegs cfg prog n)) := by
  simp [seqRegs, h]

@[simp] theorem seqRegs_length (n : Nat) : (seqRegs cfg prog n).length = cfg.nregs.toNat := by
  induction n with
  | zero => simp [seqRegs]
  | succ n ih =>
    cases h : instrAt cfg prog n with
    | none => simpa [seqRegs, h] using ih
    | some i => simpa [seqRegs_succ h] using ih

/-- An instruction leaves every register but its destination. -/
theorem seqRegs_succ_of_ne {n r : Nat} (h : ∀ i, instrAt cfg prog n = some i → i.rd.toNat ≠ r) (d : Word) :
    (seqRegs cfg prog (n + 1)).getD r d = (seqRegs cfg prog n).getD r d := by
  cases hi : instrAt cfg prog n with
  | none => simp [seqRegs, hi]
  | some i => simp [seqRegs_succ hi, List.getD_eq_getElem?_getD, h i hi]

theorem seqRegs_succ_rd {n : Nat} {i : Instr} (h : instrAt cfg prog n = some i) (hr : i.rd.toNat < cfg.nregs.toNat)
    (d : Word) : (seqRegs cfg prog (n + 1)).getD i.rd.toNat d = seqResult cfg.fmt i (seqRegs cfg prog n) := by
  simp [seqRegs_succ h, List.getD_eq_getElem?_getD, hr]

/-- The last writer is the instruction just before, or it was the last writer already, and that instruction writes
another register. -/
theorem lastWriter_succ {c r m : Nat} (h : lastWriter cfg prog (c + 1) r = some m) :
    (m = c ∧ ∃ i, instrAt cfg prog c = some i ∧ i.rd.toNat = r) ∨
    (lastWriter cfg prog c r = some m ∧ ∀ i, instrAt cfg prog c = some i → i.rd.toNat ≠ r) := by
  unfold lastWriter at h
  split at h
  · next hany =>
    cases h
    exact .inl ⟨rfl, by simpa [Option.any_eq_true] using hany⟩
  · next hany =>
    exact .inr ⟨h, fun i hi => by simpa [hi] using hany⟩

theorem lastWriter_lt {c r m : Nat} (h : lastWriter cfg prog c r = some m) : m < c := by
  induction c with
  | zero => simp [lastWriter] at h
  | succ c ih =>
    rcases lastWriter_succ h with ⟨rfl, -⟩ | ⟨h, -⟩
    · exact Nat.lt_succ_self _
    · exact Nat.lt_succ_of_lt (ih h)

/-- A register holds the result of its last writer. -/
theorem seqRegs_of_lastWriter {c r m : Nat} {i : Instr} (h : lastWriter cfg prog c r = some m)
    (hi : instrAt cfg prog m = some i) (hr : r < cfg.nregs.toNat) (d : Word) :
    (seqRegs cfg prog c).getD r d = seqResult cfg.fmt i (seqRegs cfg prog m) := by
  induction c with
  | zero => simp [lastWriter] at h
  | succ c ih =>
    rcases lastWriter_succ h with ⟨rfl, x, hx, rfl⟩ | ⟨h, hne⟩
    · cases hx.symm.trans hi
      exact seqRegs_succ_rd hi hr d
    · rw [seqRegs_succ_of_ne hne, ih h]

end

/-! ### Slots that agree with sequential execution -/

/-- Station `u` is that of the last writer of register `r` before instruction `n`. -/
def OwnedByWriter (s : State) (n r u : Nat) : Prop :=
  lastWriter s.cfg s.prog n r ≠ none ∧ (stationAt s u).inst = lastWriter s.cfg s.prog n r

theorem slotFaithful_pending (s : State) (n : Nat) (r : RegIdx) (u : Nat) :
    SlotFaithful s n r (.pending u) ↔ OwnedByWriter s n r.toNat u := Iff.rfl

theorem slotFaithful_resolved (s : State) (n : Nat) (r : RegIdx) (v : Word) :
    SlotFaithful s n r (.resolved v) ↔ v = readWord (seqRegs s.cfg s.prog n) r := Iff.rfl

/-- The same program is loaded, and every station with an owner keeps it. -/
structure KeepsOwners (s t : State) : Prop where
  cfg : t.cfg = s.cfg
  prog : t.prog = s.prog
  owner : ∀ u, (stationAt s u).inst ≠ none → (stationAt t u).inst = (stationAt s u).inst

theorem OwnedByWriter.keep {s t : State} (hk : KeepsOwners s t) {n r u : Nat} (h : OwnedByWriter s n r u) :
    OwnedByWriter t n r u := by
  obtain ⟨hne, hinst⟩ := h
  rw [OwnedByWriter, hk.cfg, hk.prog, hk.owner u (hinst ▸ hne)]
  exact ⟨hne, hinst⟩

theorem slotFaithful_keep {s t : State} (hk : KeepsOwners s t) {n : Nat} {r : RegIdx} {x : Slot}
    (h : SlotFaithful s n r x) : SlotFaithful t n r x := by
  cases x with
  | empty => exact h
  | resolved v => rw [slotFaithful_resolved, hk.cfg, hk.prog]; exact h
  | pending u => exact OwnedByWriter.keep hk h

/-- Slots changed by `f` stay faithful, if `f` keeps a value and keeps the slot of every source faithful. -/
theorem slotsFaithful_map {s t : State} {n : Nat} {i : Instr} {st st' : Station} (f : Slot → Slot)
    (hj : st'.j = f st.j) (hk : st'.k = f st.k) (hv : ∀ v, f (.resolved v) = .resolved v)
    (hf : ∀ r ∈ i.sources, ∀ x, SlotFaithful s n r x → SlotFaithful t n r (f x)) (h : SlotsFaithful s n i st) :
    SlotsFaithful t n i st' := by
  cases i with
  | load rd imm => exact hj.trans (by rw [show st.j = .resolved imm from h, hv])
  | store rd rs1 =>
    rw [SlotsFaithful, hj]
    exact hf rs1 (by simp [Instr.sources]) _ h
  | add rd rs1 rs2 | sub rd rs1 rs2 | mul rd rs1 rs2 | div rd rs1 rs2 =>
    obtain ⟨h1, h2⟩ := h
    exact ⟨hj ▸ hf rs1 (by simp [Instr.sources]) _ h1, hk ▸ hf rs2 (by simp [Instr.sources]) _ h2⟩

theorem slotsFaithful_keep {s t : State} (hk : KeepsOwners s t) {n : Nat} {i : Instr} {st st' : Station}
    (hj : st'.j = st.j) (hk' : st'.k = st.k) (h : SlotsFaithful s n i st) : SlotsFaithful t n i st' :=
  slotsFaithful_map id hj hk' (fun _ => rfl) (fun _ _ _ => slotFaithful_keep hk) h

/-! ### What a station computes (R125) -/

/-- A station whose operands agree with sequential execution computes the sequential result of its instruction. -/
theorem computeStation_eq_seqResult {s : State} {n : Nat} {i : Instr} {st : Station} {v : Word}
    (hop : st.op = some i.op) (hf : SlotsFaithful s n i st) (h : computeStation s.cfg.fmt st = some v) :
    v = seqResult s.cfg.fmt i (seqRegs s.cfg s.prog n) := by
  rw [computeStation, hop] at h
  cases i with
  | load rd imm =>
    obtain ⟨a, ha, rfl⟩ := computeStation_one _ _ _ h
    cases ha.symm.trans hf
    rfl
  | store rd rs1 =>
    obtain ⟨a, ha, rfl⟩ := computeStation_one _ _ _ h
    rw [SlotsFaithful, ha] at hf
    exact hf
  | add rd rs1 rs2 | sub rd rs1 rs2 | mul rd rs1 rs2 | div rd rs1 rs2 =>
    obtain ⟨a, b, ha, hb, rfl⟩ := computeStation_both _ _ _ h
    rw [SlotsFaithful, ha, hb, slotFaithful_resolved, slotFaithful_resolved] at hf
    obtain ⟨rfl, rfl⟩ := hf
    rfl

/-! ### The owners of tags, between the phases of a cycle (R25, R28) -/

/-- Of the invariants of a coherent state, those that issue relies on after write-back: a register's tag names the
station of its last issued writer, and a free station has no owner. -/
structure TagsOwned (s : State) : Prop where
  regs_length : s.regs.length = s.cfg.nregs.toNat
  tag_owner : ∀ r, r < s.regs.length → ∀ u, (regAt s r).tag = some u → OwnedByWriter s s.cursor r u
  free_owner : ∀ u, (stationAt s u).busy = false → (stationAt s u).inst = none

theorem stationAt_of_le {s : State} {u : Nat} (h : s.stations.length ≤ u) : stationAt s u = freeStation :=
  List.getD_eq_default _ _ h

theorem tagsOwned_of_coherent {s : State} (h : Coherent s) : TagsOwned s where
  regs_length := h.regs_length
  tag_owner r hr u hu := by
    obtain ⟨m, hlast, hwb, hst⟩ := (h.tags r hr u).mp hu
    obtain ⟨-, u', hu', hown⟩ := h.issued_entry m (lastWriter_lt hlast)
    cases hst.symm.trans hu'
    obtain ⟨-, -, hinst⟩ := hown hwb
    rw [OwnedByWriter, hlast]
    exact ⟨by simp, hinst⟩
  free_owner u hu := by
    by_cases hlt : u < s.stations.length
    · rw [h.free_station u hlt hu]; rfl
    · rw [stationAt_of_le (Nat.le_of_not_lt hlt)]; rfl

/-! ### Phase 1: the broadcast (R121, R122, R124) -/

theorem regAt_commitWriteBack (w : Nat) (st : Station) (v : Word) {s : State} {r : Nat} (h : r < s.regs.length) :
    regAt (commitWriteBack w st v s) r =
      if (regAt s r).tag = some w then { val := v, tag := none } else regAt s r :=
  resolveRegs_getD s.regs w v r _ h

theorem stationAt_commitWriteBack_winner (w : Nat) (st : Station) (v : Word) (s : State) :
    stationAt (commitWriteBack w st v s) w = freeStation := by
  by_cases h : w < s.stations.length
  · exact (release_broadcast_getD s.stations w v w h).trans (if_pos rfl)
  · exact stationAt_of_le (by simpa using h)

theorem stationAt_commitWriteBack_of_ne {w u : Nat} (st : Station) (v : Word) (s : State) (h : u ≠ w) :
    stationAt (commitWriteBack w st v s) u = (stationAt s u).receive w v := by
  by_cases hu : u < s.stations.length
  · exact (release_broadcast_getD s.stations w v u hu).trans (if_neg h)
  · rw [stationAt_of_le (by simpa using hu), stationAt_of_le (Nat.le_of_not_lt hu)]
    rfl

/-- A station other than the winner keeps its owner. -/
theorem OwnedByWriter.commitWriteBack {s : State} {n r u w : Nat} (st : Station) (v : Word) (hne : u ≠ w)
    (h : OwnedByWriter s n r u) : OwnedByWriter (commitWriteBack w st v s) n r u := by
  rw [OwnedByWriter, stationAt_commitWriteBack_of_ne st v s hne, station_receive_inst]
  exact h

theorem tagsOwned_commitWriteBack {s : State} (h : TagsOwned s) (w : Nat) (st : Station) (v : Word) :
    TagsOwned (commitWriteBack w st v s) where
  regs_length := by simpa using h.regs_length
  tag_owner r hr u hu := by
    have hlt : r < s.regs.length := by simpa using hr
    rw [regAt_commitWriteBack w st v hlt] at hu
    split at hu
    · cases hu
    · next hw => exact (h.tag_owner r hlt u hu).commitWriteBack st v fun huw => hw (huw ▸ hu)
  free_owner u hu := by
    by_cases huw : u = w
    · rw [huw, stationAt_commitWriteBack_winner]; rfl
    · rw [stationAt_commitWriteBack_of_ne st v s huw, station_receive_busy] at hu
      rw [stationAt_commitWriteBack_of_ne st v s huw, station_receive_inst]
      exact h.free_owner u hu

/-- `v` is the value that register `r` has sequentially before instruction `n`, whenever the last writer of `r` before `n`
owns station `w`. -/
def SequentialBroadcast (s : State) (w : Nat) (v : Word) : Prop :=
  ∀ n r, r < s.cfg.nregs.toNat → OwnedByWriter s n r w → v = (seqRegs s.cfg s.prog n).getD r 0#64

/-- The winner's value is the sequential result of the instruction that owns it (R70, R125). -/
theorem sequentialBroadcast_of_winner {s : State} (hco : Coherent s) (hfa : Faithful s) {w : Nat} {st : Station}
    {v : Word} (hq : s.cdbQ = some w) (hst : s.stations[w]? = some st) (hv : computeStation s.cfg.fmt st = some v) :
    SequentialBroadcast s w v := by
  rintro n r hr ⟨hne, hown⟩
  obtain ⟨hlt, hcomplete, -⟩ := (arbitrate_eq_some ..).mp (hco.latch.symm.trans hq)
  obtain ⟨hbusy, -⟩ := (isComplete_iff _).mp hcomplete
  have hat : stationAt s w = st := by simp [stationAt, hst]
  obtain ⟨m, i, hinst, -, hi, -, hop, -⟩ := hco.busy_station w hlt hbusy
  have hf := hfa.slots w hlt hbusy m i hinst hi
  rw [hat] at hop hf
  rw [computeStation_eq_seqResult hop hf hv, seqRegs_of_lastWriter (hown.symm.trans hinst) hi hr]

theorem slotFaithful_receive {s : State} {w : Nat} (st : Station) {v : Word} (hv : SequentialBroadcast s w v) {n : Nat}
    {r : RegIdx} (hr : r.toNat < s.cfg.nregs.toNat) {x : Slot} (h : SlotFaithful s n r x) :
    SlotFaithful (commitWriteBack w st v s) n r (x.receive w v) := by
  cases x with
  | empty => exact h
  | resolved u => exact h
  | pending u =>
    rw [slotFaithful_pending] at h
    rw [receive_pending]
    split
    · next huw => exact hv n r.toNat hr (huw ▸ h)
    · next huw => exact h.commitWriteBack st v huw

theorem faithful_commitWriteBack {s : State} (hco : Coherent s) (hfa : Faithful s) {w : Nat} (st : Station) {v : Word}
    (hv : SequentialBroadcast s w v) : Faithful (commitWriteBack w st v s) where
  regs r hr htag := by
    have hlt : r < s.regs.length := by simpa using hr
    rw [regAt_commitWriteBack w st v hlt] at htag ⊢
    split
    · next hw =>
      exact hv s.cursor r (hco.regs_length ▸ hlt) ((tagsOwned_of_coherent hco).tag_owner r hlt w hw)
    · next hw =>
      rw [if_neg hw] at htag
      exact hfa.regs r hlt htag
  slots u hu hbusy n i hinst hi := by
    have hlt : u < s.stations.length := by simpa using hu
    by_cases huw : u = w
    · rw [huw, stationAt_commitWriteBack_winner] at hbusy
      cases hbusy
    rw [stationAt_commitWriteBack_of_ne st v s huw] at hbusy hinst ⊢
    rw [station_receive_busy] at hbusy
    rw [station_receive_inst] at hinst
    obtain ⟨m, x, hm, -, hx, ⟨-, hdeclared⟩, -⟩ := hco.busy_station u hlt hbusy
    cases hm.symm.trans hinst
    cases hx.symm.trans hi
    exact slotsFaithful_map (Slot.receive w v) (station_receive_j w v _ hbusy) (station_receive_k w v _ hbusy)
      (receive_resolved w v) (fun r hr _ => slotFaithful_receive st hv (hdeclared r hr))
      (hfa.slots u hlt hbusy _ _ hinst hi)

/-- What write-back leaves to issue. -/
theorem writeBack_keeps {s s1 : State} (hco : Coherent s) (hfa : Faithful s) (h : writeBack s = some s1) :
    Faithful s1 ∧ TagsOwned s1 := by
  have hown := tagsOwned_of_coherent hco
  rcases writeBack_cases s with ⟨-, hw⟩ | ⟨w, st, v, hq, hst, hv, hw⟩ | ⟨w, -, -, hw⟩ <;> cases hw.symm.trans h
  · exact ⟨hfa, hown⟩
  · exact ⟨faithful_commitWriteBack hco hfa st (sequentialBroadcast_of_winner hco hfa hq hst hv),
      tagsOwned_commitWriteBack hown w st v⟩

/-! ### Phase 2: issue (R107, R108) -/

/-- Issue captures from a register its sequential value, or the station of its last writer. -/
theorem slotFaithful_capture {s : State} (hfa : Faithful s) (hown : TagsOwned s) {r : RegIdx}
    (hr : r.toNat < s.cfg.nregs.toNat) : SlotFaithful s s.cursor r (capture s.regs r) := by
  have hlt : r.toNat < s.regs.length := hown.regs_length ▸ hr
  rw [capture_eq _ _ hlt]
  split
  · next htag => exact hfa.regs r.toNat hlt htag
  · next u htag => exact hown.tag_owner r.toNat hlt u htag

theorem sources_subset_usedFields (i : Instr) : i.sources ⊆ (usedFields i).map Prod.snd := by
  cases i <;> simp [Instr.sources, usedFields]

/-- An instruction that passes the field check names declared registers (R111). -/
theorem sources_declared_of_firstUnknown {nregs : Nat} {i : Instr} (h : firstUnknown nregs (usedFields i) = none)
    {r : RegIdx} (hr : r ∈ i.sources) : r.toNat < nregs := by
  obtain ⟨f, hf, rfl⟩ := List.mem_map.mp (sources_subset_usedFields i hr)
  simpa using List.find?_eq_none.mp h f hf

theorem slotsFaithful_operands {s : State} (hfa : Faithful s) (hown : TagsOwned s) {i : Instr}
    (hr : ∀ r ∈ i.sources, r.toNat < s.cfg.nregs.toNat) {st : Station} (hj : st.j = operandJ s.regs i)
    (hk : st.k = operandK s.regs i) : SlotsFaithful s s.cursor i st := by
  cases i with
  | load rd imm => exact hj
  | store rd rs1 =>
    rw [SlotsFaithful, hj]
    exact slotFaithful_capture hfa hown (hr rs1 (by simp [Instr.sources]))
  | add rd rs1 rs2 | sub rd rs1 rs2 | mul rd rs1 rs2 | div rd rs1 rs2 =>
    exact ⟨hj ▸ slotFaithful_capture hfa hown (hr rs1 (by simp [Instr.sources])),
      hk ▸ slotFaithful_capture hfa hown (hr rs2 (by simp [Instr.sources]))⟩

theorem stationAt_commitIssue_same (op : Opcode) (rd : RegIdx) (j k : Slot) {u : Nat} {s : State}
    (h : u < s.stations.length) :
    stationAt (commitIssue op rd j k u s) u = issuedStation s.cfg op s.cursor j k := by
  simp [stationAt, h]

theorem regAt_commitIssue_tag (op : Opcode) (rd : RegIdx) (j k : Slot) (u : Nat) {s : State}
    (h : rd.toNat < s.regs.length) : (regAt (commitIssue op rd j k u s) rd.toNat).tag = some u := by
  simp [regAt, renameReg, h]

/-- Issue takes a station without an owner. -/
theorem keepsOwners_commitIssue (op : Opcode) (rd : RegIdx) (j k : Slot) {u : Nat} {s : State}
    (hu : (stationAt s u).inst = none) : KeepsOwners s (commitIssue op rd j k u s) where
  cfg := rfl
  prog := rfl
  owner v hv := by
    have hvu : v ≠ u := fun h => hv (h ▸ hu)
    rw [stationAt_commitIssue_of_ne op rd j k s hvu]

theorem instrAt_of_fetch {s : State} {i : Instr} (h : fetch s = .instr i) :
    instrAt s.cfg s.prog s.cursor = some i := by
  rw [fetch] at h
  simp [instrAt, h]

theorem faithful_commitIssue {s : State} (hfa : Faithful s) (hown : TagsOwned s) {i : Instr} {u : Nat}
    (hi : instrAt s.cfg s.prog s.cursor = some i) (hu : u < s.stations.length) (hfree : (stationAt s u).busy = false)
    (hr : ∀ r ∈ i.sources, r.toNat < s.cfg.nregs.toNat) :
    Faithful (commitIssue i.op i.rd (operandJ s.regs i) (operandK s.regs i) u s) := by
  have hkeep := keepsOwners_commitIssue i.op i.rd (operandJ s.regs i) (operandK s.regs i) (hown.free_owner u hfree)
  refine ⟨fun r hlen htag => ?_, fun v hv hbusy n x hinst hx => ?_⟩
  · have hlt : r < s.regs.length := by simpa using hlen
    have hne : i.rd.toNat ≠ r := by
      rintro rfl
      rw [regAt_commitIssue_tag _ _ _ _ _ hlt] at htag
      cases htag
    rw [regAt_commitIssue_of_ne _ _ _ _ _ hne.symm] at htag ⊢
    rw [hfa.regs r hlt htag]
    exact (seqRegs_succ_of_ne (fun x hx => Option.some.inj (hi.symm.trans hx) ▸ hne) _).symm
  · by_cases hvu : v = u
    · subst hvu
      rw [stationAt_commitIssue_same _ _ _ _ hu] at hinst ⊢
      cases hinst
      cases hi.symm.trans hx
      exact slotsFaithful_keep hkeep rfl rfl
        (slotsFaithful_operands (st := issuedStation s.cfg i.op s.cursor _ _) hfa hown hr rfl rfl)
    · rw [stationAt_commitIssue_of_ne _ _ _ _ _ hvu] at hbusy hinst ⊢
      exact slotsFaithful_keep hkeep rfl rfl (hfa.slots v (by simpa using hv) hbusy n x hinst hx)

theorem faithful_raiseError {s : State} (h : Faithful s) (e : EngineError) : Faithful (raiseError s e) :=
  ⟨h.regs, h.slots⟩

theorem faithful_issuePhase {s t : State} (hfa : Faithful s) (hown : TagsOwned s) (h : issuePhase s = .next t) :
    Faithful t := by
  rcases issuePhase_cases s with ⟨-, ht⟩ | ⟨i, -, hf, ht⟩ | ⟨why, -, -, ht⟩
  · cases ht.symm.trans h
    exact hfa
  · rcases exec_cases i s with ⟨-, hx⟩ | ⟨u, f, r, -, -, hx⟩ | ⟨u, ha, hd, hx⟩ <;> cases (ht.trans hx).symm.trans h
    · exact hfa
    · exact faithful_raiseError hfa _
    · obtain ⟨hu, -, hfree, -⟩ := (allocate_eq_some ..).mp ha
      exact faithful_commitIssue hfa hown (instrAt_of_fetch hf) hu hfree fun r => sources_declared_of_firstUnknown hd
  · cases ht.symm.trans h
    exact faithful_raiseError hfa _

/-! ### Phases 3 and 4, and the whole step -/

/-- Phase 3 counts cycles; a station's owner and slots stay. -/
theorem stationAt_executePhase (s0 s : State) (u : Nat) :
    stationAt (executePhase s0 s) u = stationAt s u ∨ stationAt (executePhase s0 s) u = (stationAt s u).tick := by
  by_cases hu : u < s.stations.length
  · have h : stationAt (executePhase s0 s) u = _ := tickStations_getD s0.stations s0.cdbQ s.stations u hu
    rw [h]
    split
    · exact .inr rfl
    · exact .inl rfl
  · exact .inl ((stationAt_of_le (by simpa using hu)).trans (stationAt_of_le (Nat.le_of_not_lt hu)).symm)

theorem stationAt_executePhase_frame (s0 s : State) (u : Nat) :
    (stationAt (executePhase s0 s) u).busy = (stationAt s u).busy ∧
    (stationAt (executePhase s0 s) u).inst = (stationAt s u).inst ∧
    (stationAt (executePhase s0 s) u).j = (stationAt s u).j ∧
    (stationAt (executePhase s0 s) u).k = (stationAt s u).k := by
  rcases stationAt_executePhase s0 s u with h | h <;> simp [h]

theorem faithful_executePhase {s : State} (h : Faithful s) (s0 : State) : Faithful (executePhase s0 s) := by
  have hkeep : KeepsOwners s (executePhase s0 s) := by
    refine ⟨rfl, rfl, fun u _ => ?_⟩
    obtain ⟨-, hin, -⟩ := stationAt_executePhase_frame s0 s u
    exact hin
  refine ⟨h.regs, fun u hu hbusy n i hinst hi => ?_⟩
  obtain ⟨hb, hin, hj, hk⟩ := stationAt_executePhase_frame s0 s u
  exact slotsFaithful_keep hkeep hj hk (h.slots u (by simpa using hu) (hb ▸ hbusy) n i (hin ▸ hinst) hi)

theorem faithful_advancePhase {s : State} (h : Faithful s) : Faithful (advancePhase s) := ⟨h.regs, h.slots⟩

theorem faithful_finishCycle {s0 s : State} (h0 : Faithful s0) (h : Faithful s) : Faithful (finishCycle s0 s) := by
  unfold finishCycle
  split
  · exact faithful_raiseError h0 _
  · exact faithful_advancePhase (faithful_executePhase h s0)
  · exact faithful_advancePhase (faithful_executePhase h s0)

theorem faithful_cycle {s t : State} (hco : Coherent s) (hfa : Faithful s) (hc : cycle s = .next t) : Faithful t := by
  rcases cycle_cases s with ⟨-, ht⟩ | ⟨s1, s2, hw, hi, ht⟩ <;> cases ht.symm.trans hc
  · exact faithful_raiseError hfa _
  · obtain ⟨hfa1, hown1⟩ := writeBack_keeps hco hfa hw
    exact faithful_finishCycle hfa (faithful_issuePhase hfa1 hown1 hi)

/-- Settles O54: reset loads `INIT`, write-back broadcasts sequential results, issue captures sequential operands, and
no other phase touches a value. -/
theorem sequentialValuesAreKept : Obligations.SequentialValuesAreKept := by
  intro s t hco hfa hs
  rcases step_cases s with ⟨-, ht⟩ | ⟨-, -, ht⟩ | ⟨-, -, ht⟩
  · cases ht.symm.trans hs
    exact faithful_init ..
  · exact faithful_cycle hco hfa (ht.symm.trans hs)
  · cases ht.symm.trans hs
    exact hfa

/-! ### The end of a run (R70, R128) -/

theorem wb_of_allWrittenBack {s : State} (hco : Coherent s) (h : allWrittenBack s.table = true) {n : Nat}
    (hn : n < s.cfg.progLen.toNat) : (entryAt s n).wb ≠ none :=
  (allWrittenBack_iff s.table).mp h n (hco.table_length ▸ hn)

/-- When every instruction has written back, every one has issued. -/
theorem cursor_of_allWrittenBack {s : State} (hco : Coherent s) (h : allWrittenBack s.table = true) :
    s.cursor = s.cfg.progLen.toNat := by
  refine le_antisymm hco.cursor_le (Nat.le_of_not_lt fun hlt => ?_)
  exact wb_of_allWrittenBack hco h hlt (by rw [hco.waiting_entry s.cursor le_rfl]; rfl)

/-- When every instruction has written back, no register waits for one. -/
theorem tag_of_allWrittenBack {s : State} (hco : Coherent s) (h : allWrittenBack s.table = true) {r : Nat}
    (hr : r < s.regs.length) : (regAt s r).tag = none := by
  refine Option.eq_none_iff_forall_ne_some.mpr fun u hu => ?_
  obtain ⟨m, hlast, hwb, -⟩ := (hco.tags r hr u).mp hu
  exact wb_of_allWrittenBack hco h ((lastWriter_lt hlast).trans_le hco.cursor_le) hwb

/-- Settles O55: at the end no register has a tag, and the cursor stands behind the whole program. -/
theorem doneRegistersAreSequential : Obligations.DoneRegistersAreSequential := by
  intro s hco hfa hdone r hr
  have hall := hco.finished hdone
  have hlt : r < s.regs.length := hco.regs_length ▸ hr
  have htag := tag_of_allWrittenBack hco hall hlt
  have hval := hfa.regs r hlt htag
  rw [cursor_of_allWrittenBack hco hall] at hval
  rw [← hval, ← htag]

end Sys2Proof.Memory
end

