-- ==== Sys2Proof/Proofs/Encoding.lean ====
section
/-! PROOFS. Records, instructions and the match and mask table say the same (spec 30_encoding.md R80 to R91). A record is
its five fields; its opcode and its reserved fields alone decide whether it decodes, and they are what a row tests. -/

namespace Sys2Proof.Encoding

open Sys2Proof.Laws
open Sys2Proof.Scope

/-! ### A record is its five fields (R80) -/

section
variable (imm : Word) (rs2 rs1 rd : RegIdx) (op : BitVec 8)

@[simp] theorem opField_recordOf : opField (recordOf imm rs2 rs1 rd op) = op :=
  BitVec.extractLsb'_append_eq_right

@[simp] theorem rdField_recordOf : rdField (recordOf imm rs2 rs1 rd op) = rd :=
  (BitVec.extractLsb'_append_eq_of_le (by decide)).trans BitVec.extractLsb'_append_eq_right

@[simp] theorem rs1Field_recordOf : rs1Field (recordOf imm rs2 rs1 rd op) = rs1 := by
  simp only [rs1Field, recordOf]
  rw [BitVec.extractLsb'_append_eq_of_le (by decide), BitVec.extractLsb'_append_eq_of_le (by decide)]
  exact BitVec.extractLsb'_append_eq_right

@[simp] theorem rs2Field_recordOf : rs2Field (recordOf imm rs2 rs1 rd op) = rs2 := by
  simp only [rs2Field, recordOf]
  rw [BitVec.extractLsb'_append_eq_of_le (by decide), BitVec.extractLsb'_append_eq_of_le (by decide),
    BitVec.extractLsb'_append_eq_of_le (by decide)]
  exact BitVec.extractLsb'_append_eq_right

@[simp] theorem immField_recordOf : immField (recordOf imm rs2 rs1 rd op) = imm := by
  simp only [immField, recordOf]
  rw [BitVec.extractLsb'_append_eq_of_le (by decide), BitVec.extractLsb'_append_eq_of_le (by decide),
    BitVec.extractLsb'_append_eq_of_le (by decide)]
  exact BitVec.extractLsb'_append_eq_left

end

theorem recordOf_fields (w : Record) :
    recordOf (immField w) (rs2Field w) (rs1Field w) (rdField w) (opField w) = w := by
  simp only [recordOf, immField, rs2Field, rs1Field, rdField, opField]
  rw [BitVec.extractLsb'_append_extractLsb'_eq_extractLsb' (by rfl),
    BitVec.extractLsb'_append_extractLsb'_eq_extractLsb' (by rfl),
    BitVec.extractLsb'_append_extractLsb'_eq_extractLsb' (by rfl),
    BitVec.extractLsb'_append_extractLsb'_eq_extractLsb' (by rfl)]
  exact BitVec.extractLsb'_eq_self

theorem recordOf_inj {imm imm' : Word} {rs2 rs1 rd rs2' rs1' rd' : RegIdx} {op op' : BitVec 8} :
    recordOf imm rs2 rs1 rd op = recordOf imm' rs2' rs1' rd' op' ↔
      op = op' ∧ rd = rd' ∧ rs1 = rs1' ∧ rs2 = rs2' ∧ imm = imm' := by
  constructor
  · intro h
    exact ⟨by simpa using congrArg opField h, by simpa using congrArg rdField h, by simpa using congrArg rs1Field h,
      by simpa using congrArg rs2Field h, by simpa using congrArg immField h⟩
  · rintro ⟨rfl, rfl, rfl, rfl, rfl⟩
    rfl

theorem recordOf_and (imm imm' : Word) (rs2 rs1 rd rs2' rs1' rd' : RegIdx) (op op' : BitVec 8) :
    recordOf imm rs2 rs1 rd op &&& recordOf imm' rs2' rs1' rd' op' =
      recordOf (imm &&& imm') (rs2 &&& rs2') (rs1 &&& rs1') (rd &&& rd') (op &&& op') := by
  simp only [recordOf]
  rw [BitVec.and_append, BitVec.and_append, BitVec.and_append, BitVec.and_append]

/-! ### The immediate of a LOAD (R83, R91) -/

theorem immFits_iff {fmt : Fmt} {imm : Word} : immFits fmt imm = true ↔ imm.toNat < 2 ^ fmt.flen := by
  cases fmt with
  | binary32 => exact decide_eq_true_iff
  | binary64 => exact iff_of_true rfl imm.isLt

/-- The decoder's cut to FLEN bits keeps an immediate that fits. -/
theorem lowFlen_of_immFits {fmt : Fmt} {imm : Word} (h : immFits fmt imm = true) : lowFlen fmt imm = imm :=
  fitsFmt_of_toNat_lt (immFits_iff.mp h)

/-- The mask of LOAD in binary32 tests exactly the reserved half of the immediate. -/
theorem and_highHalf_eq_zero_iff (imm : Word) :
    imm &&& 0xFFFFFFFF00000000#64 = 0#64 ↔ immFits .binary32 imm = true := by
  refine ⟨fun h => immFits_iff.mpr ?_, fun h => RowMatch.imm_high_zero imm (immFits_iff.mp h)⟩
  have hlow : imm = imm &&& 0xFFFFFFFF#64 := by
    calc imm = imm &&& (0xFFFFFFFF00000000#64 ||| 0xFFFFFFFF#64) := (BitVec.and_allOnes (x := imm)).symm
      _ = imm &&& 0xFFFFFFFF#64 := by rw [BitVec.and_or_distrib_left, h, BitVec.zero_or]
  rw [hlow, BitVec.toNat_and]
  exact Nat.and_lt_two_pow _ (by decide)

/-! ### Opcode and reserved fields decide (R81 to R84, R86) -/

/-- The reserved fields of opcode `op` are 0 in record `w` (R81 to R83). -/
def ReservedZero (fmt : Fmt) (op : Opcode) (w : Record) : Prop :=
  match op with
  | .add | .sub | .mul | .div => immField w = 0
  | .load => rs1Field w = 0 ∧ rs2Field w = 0 ∧ immFits fmt (immField w) = true
  | .store => rs2Field w = 0 ∧ immField w = 0

/-- The instruction with opcode `op` and the operand fields of record `w`. -/
def instrOfFields (op : Opcode) (w : Record) : Instr :=
  match op with
  | .add => .add (rdField w) (rs1Field w) (rs2Field w)
  | .sub => .sub (rdField w) (rs1Field w) (rs2Field w)
  | .mul => .mul (rdField w) (rs1Field w) (rs2Field w)
  | .div => .div (rdField w) (rs1Field w) (rs2Field w)
  | .load => .load (rdField w) (immField w)
  | .store => .store (rdField w) (rs1Field w)

@[simp] theorem op_instrOfFields (op : Opcode) (w : Record) : (instrOfFields op w).op = op := by
  cases op <;> rfl

/-- The opcode field holds a number of 6 or more, or the code of one of the six (R84). -/
theorem opField_cases (w : Record) : 6 ≤ (opField w).toNat ∨ ∃ op : Opcode, opField w = op.code := by
  refine (Nat.lt_or_ge (opField w).toNat 6).symm.imp_right fun hlt => ?_
  interval_cases hn : (opField w).toNat
  exacts [⟨.add, BitVec.eq_of_toNat_eq hn⟩, ⟨.sub, BitVec.eq_of_toNat_eq hn⟩, ⟨.mul, BitVec.eq_of_toNat_eq hn⟩,
    ⟨.div, BitVec.eq_of_toNat_eq hn⟩, ⟨.load, BitVec.eq_of_toNat_eq hn⟩, ⟨.store, BitVec.eq_of_toNat_eq hn⟩]

theorem decode_of_six_le {fmt : Fmt} {w : Record} (h : 6 ≤ (opField w).toNat) :
    decode fmt w = .invalid .unknownOpcode := if_pos h

section
variable {fmt : Fmt} {op : Opcode} {w : Record} (hop : opField w = op.code)
include hop

theorem decode_of_reservedZero (hz : ReservedZero fmt op w) : decode fmt w = .instr (instrOfFields op w) := by
  cases op with
  | add | sub | mul | div =>
    have himm : immField w = 0#64 := hz
    simp [decode, instrOfFields, hop, Opcode.code, himm]
  | load =>
    obtain ⟨hrs1, hrs2, himm⟩ := hz
    simp [decode, instrOfFields, hop, Opcode.code, hrs1, hrs2, himm, lowFlen_of_immFits himm]
  | store =>
    obtain ⟨hrs2, himm⟩ := hz
    simp [decode, instrOfFields, hop, Opcode.code, hrs2, himm]

theorem decode_of_not_reservedZero (hz : ¬ ReservedZero fmt op w) : decode fmt w = .invalid .reservedNonzero := by
  cases op with
  | add | sub | mul | div =>
    have himm : immField w ≠ 0#64 := hz
    simp [decode, hop, Opcode.code, himm]
  | load | store => simpa [decode, hop, Opcode.code, ReservedZero] using hz

theorem decode_eq_reservedNonzero_iff : decode fmt w = .invalid .reservedNonzero ↔ ¬ ReservedZero fmt op w := by
  refine ⟨fun h hz => ?_, decode_of_not_reservedZero hop⟩
  cases (decode_of_reservedZero hop hz).symm.trans h

end

/-- What the decoder answers, by the opcode and the reserved fields. -/
theorem decode_cases (fmt : Fmt) (w : Record) :
    (6 ≤ (opField w).toNat ∧ decode fmt w = .invalid .unknownOpcode) ∨
    ∃ op : Opcode, opField w = op.code ∧
      (ReservedZero fmt op w ∧ decode fmt w = .instr (instrOfFields op w) ∨
        ¬ ReservedZero fmt op w ∧ decode fmt w = .invalid .reservedNonzero) := by
  rcases opField_cases w with h | ⟨op, hop⟩
  · exact .inl ⟨h, decode_of_six_le h⟩
  · refine .inr ⟨op, hop, ?_⟩
    by_cases hz : ReservedZero fmt op w
    · exact .inl ⟨hz, decode_of_reservedZero hop hz⟩
    · exact .inr ⟨hz, decode_of_not_reservedZero hop hz⟩

theorem decode_eq_instr_iff {fmt : Fmt} {w : Record} {i : Instr} :
    decode fmt w = .instr i ↔ opField w = i.op.code ∧ ReservedZero fmt i.op w ∧ instrOfFields i.op w = i := by
  constructor
  · intro h
    rcases decode_cases fmt w with ⟨-, hd⟩ | ⟨op, hop, ⟨hz, hd⟩ | ⟨-, hd⟩⟩ <;> cases hd.symm.trans h
    rw [op_instrOfFields]
    exact ⟨hop, hz, rfl⟩
  · rintro ⟨hop, hz, hi⟩
    rw [decode_of_reservedZero hop hz, hi]

/-! ### Encoder and decoder are inverse (R87, R90) -/

theorem opField_encode (i : Instr) : opField (encode i) = i.op.code := by
  cases i <;> exact opField_recordOf ..

theorem reservedZero_encode {fmt : Fmt} {i : Instr} (h : i.wf fmt = true) : ReservedZero fmt i.op (encode i) := by
  cases i with
  | add | sub | mul | div => exact immField_recordOf ..
  | load rd imm =>
    refine ⟨rs1Field_recordOf .., rs2Field_recordOf .., ?_⟩
    rw [encode, immField_recordOf]
    exact h
  | store => exact ⟨rs2Field_recordOf .., immField_recordOf ..⟩

theorem instrOfFields_encode (i : Instr) : instrOfFields i.op (encode i) = i := by
  cases i <;> simp [instrOfFields, Instr.op, encode]

/-- Settles O1: the record has the instruction's opcode, its reserved fields are 0, and its operand fields are the
instruction's own. -/
theorem decodeOfEncodeIsTheInstruction : Obligations.DecodeOfEncodeIsTheInstruction :=
  fun _ i hwf => decode_eq_instr_iff.mpr ⟨opField_encode i, reservedZero_encode hwf, instrOfFields_encode i⟩

theorem encode_instrOfFields {fmt : Fmt} {op : Opcode} {w : Record} (hop : opField w = op.code)
    (hz : ReservedZero fmt op w) : encode (instrOfFields op w) = w := by
  refine Eq.trans ?_ (recordOf_fields w)
  rw [hop]
  cases op with
  | add | sub | mul | div =>
    have himm : immField w = 0#64 := hz
    rw [himm]
    rfl
  | load =>
    obtain ⟨hrs1, hrs2, -⟩ := hz
    rw [hrs1, hrs2]
    rfl
  | store =>
    obtain ⟨hrs2, himm⟩ := hz
    rw [hrs2, himm]
    rfl

theorem wf_instrOfFields {fmt : Fmt} {op : Opcode} {w : Record} (hz : ReservedZero fmt op w) :
    (instrOfFields op w).wf fmt = true := by
  cases op with
  | add | sub | mul | div | store => rfl
  | load =>
    obtain ⟨-, -, himm⟩ := hz
    exact himm

/-- Settles O2: with its reserved fields 0, the operand fields and the opcode make up the whole record. -/
theorem encodeOfDecodeIsTheRecord : Obligations.EncodeOfDecodeIsTheRecord := by
  intro fmt w i h
  obtain ⟨hop, hz, hi⟩ := decode_eq_instr_iff.mp h
  rw [← hi]
  exact ⟨encode_instrOfFields hop hz, wf_instrOfFields hz⟩

/-! ### The match and mask table (R85) -/

theorem and_recordOf_eq_iff (w : Record) (imm imm' : Word) (rs2 rs1 rd rs2' rs1' rd' : RegIdx) (op op' : BitVec 8) :
    w &&& recordOf imm rs2 rs1 rd op = recordOf imm' rs2' rs1' rd' op' ↔
      opField w &&& op = op' ∧ rdField w &&& rd = rd' ∧ rs1Field w &&& rs1 = rs1' ∧ rs2Field w &&& rs2 = rs2' ∧
        immField w &&& imm = imm' := by
  rw [← recordOf_inj, ← recordOf_and, recordOf_fields]

theorem rowMatch_eq_recordOf (op : Opcode) : rowMatch op = recordOf 0#64 0#8 0#8 0#8 op.code := by
  cases op <;> decide

/-- A row of the table tests the opcode and the reserved fields, and nothing else. -/
theorem and_rowMask_eq_rowMatch_iff (fmt : Fmt) (op : Opcode) (w : Record) :
    w &&& rowMask fmt op = rowMatch op ↔ opField w = op.code ∧ ReservedZero fmt op w := by
  cases op with
  | add | sub | mul | div =>
    have hmask : 0xFFFFFFFFFFFFFFFF000000FF#96 = recordOf (.allOnes 64) 0#8 0#8 0#8 (.allOnes 8) := by decide
    simp [rowMask, hmask, rowMatch_eq_recordOf, and_recordOf_eq_iff, ReservedZero, -BitVec.reduceAllOnes]
  | load =>
    cases fmt with
    | binary32 =>
      have hmask : 0xFFFFFFFF00000000FFFF00FF#96 =
          recordOf 0xFFFFFFFF00000000#64 (.allOnes 8) (.allOnes 8) 0#8 (.allOnes 8) := by decide
      simp [rowMask, hmask, rowMatch_eq_recordOf, and_recordOf_eq_iff, and_highHalf_eq_zero_iff, ReservedZero,
        -BitVec.reduceAllOnes]
    | binary64 =>
      have hmask : 0x0000000000000000FFFF00FF#96 = recordOf 0#64 (.allOnes 8) (.allOnes 8) 0#8 (.allOnes 8) := by decide
      simp [rowMask, hmask, rowMatch_eq_recordOf, and_recordOf_eq_iff, ReservedZero, immFits, -BitVec.reduceAllOnes]
  | store =>
    have hmask : 0xFFFFFFFFFFFFFFFFFF0000FF#96 = recordOf (.allOnes 64) (.allOnes 8) 0#8 0#8 (.allOnes 8) := by decide
    simp [rowMask, hmask, rowMatch_eq_recordOf, and_recordOf_eq_iff, ReservedZero, -BitVec.reduceAllOnes]

/-- Settles O3: the row of X and the decoder test the same fields. -/
theorem tableRowsAgreeWithDecoder : Obligations.TableRowsAgreeWithDecoder := by
  intro fmt op w
  rw [and_rowMask_eq_rowMatch_iff]
  constructor
  · rintro ⟨hop, hz⟩
    exact ⟨instrOfFields op w, decode_of_reservedZero hop hz, op_instrOfFields op w⟩
  · rintro ⟨i, hd, rfl⟩
    obtain ⟨hop, hz, -⟩ := decode_eq_instr_iff.mp hd
    exact ⟨hop, hz⟩

/-! ### Illegal records (R86) -/

theorem decode_eq_unknownOpcode_iff {fmt : Fmt} {w : Record} :
    decode fmt w = .invalid .unknownOpcode ↔ 6 ≤ (opField w).toNat := by
  refine ⟨fun h => ?_, decode_of_six_le⟩
  rcases decode_cases fmt w with ⟨hle, -⟩ | ⟨_, -, ⟨-, hd⟩ | ⟨-, hd⟩⟩
  · exact hle
  · cases hd.symm.trans h
  · cases hd.symm.trans h

/-- Some field that R81 to R83 reserve for the opcode is nonzero exactly in the cases R86 lists. -/
theorem not_reservedZero_iff {fmt : Fmt} {op : Opcode} {w : Record} (hop : opField w = op.code) :
    ¬ ReservedZero fmt op w ↔
      (opField w).toNat ≤ 3 ∧ immField w ≠ 0 ∨
      (opField w).toNat = 5 ∧ (rs2Field w ≠ 0 ∨ immField w ≠ 0) ∨
      (opField w).toNat = 4 ∧
        (rs1Field w ≠ 0 ∨ rs2Field w ≠ 0 ∨ (fmt = .binary32 ∧ 2 ^ 32 ≤ (immField w).toNat)) := by
  cases op with
  | add | sub | mul | div => simp [hop, Opcode.code, ReservedZero]
  | load => cases fmt <;> simp [hop, Opcode.code, ReservedZero, immFits, not_and_or, -not_and]
  | store => simp [hop, Opcode.code, ReservedZero, not_and_or, -not_and]

/-- Settles O4: an opcode of 6 or more answers detail 1 before any field is read; for one of the six, detail 2 says that
its reserved fields are not all 0. -/
theorem illegalRecordsAndTheirDetail : Obligations.IllegalRecordsAndTheirDetail := by
  refine fun fmt w => ⟨decode_eq_unknownOpcode_iff, ?_⟩
  rcases opField_cases w with hle | ⟨op, hop⟩
  · rw [decode_of_six_le hle]
    exact iff_of_false (by simp) (by omega)
  · rw [decode_eq_reservedNonzero_iff hop, not_reservedZero_iff hop]

end Sys2Proof.Encoding
end

