-- ==== Sys2Proof/Proofs/CyclePhases.lean ====
section
/-! PROOFS. What issue and write-back do, each on its own (spec 40_engine_cycle.md R105 to R111, R121 to R126). -/

namespace Sys2Proof.EngineCycle

open Sys2Proof.Machine
open Sys2Proof.Safety
open Sys2Proof.Laws
open Sys2Proof.EngineState
open Sys2Proof.Memory

/-! ### Phase 2: stall, unknown register, capture (R105, R107, R109, R111) -/

theorem allocate_eq_none_iff (s : State) (cls : UnitClass) :
    allocate s.cfg s.stations cls = none ↔
      ∀ t, t < s.stations.length → classOf s.cfg t = cls → (stationAt s t).busy = true :=
  allocate_eq_none ..

theorem allocate_eq_some_iff (s : State) (cls : UnitClass) (t : Nat) :
    allocate s.cfg s.stations cls = some t ↔ FirstFree s cls t :=
  allocate_eq_some ..

/-- Settles O29: an unknown register changes RUN and the commit moves the cursor, so a stall alone leaves the state. -/
theorem stallIsTheOnlyWait : Obligations.StallIsTheOnlyWait := by
  intro i s hrun
  rw [← allocate_eq_none_iff]
  rcases exec_cases i s with ⟨ha, hx⟩ | ⟨t, f, r, ha, -, hx⟩ | ⟨t, ha, -, hx⟩ <;> rw [ha, hx]
  · exact iff_of_true rfl rfl
  · refine iff_of_false (fun h => ?_) (by simp)
    have h := congrArg State.run (Host.Outcome.next.inj h)
    rw [raiseError_run, hrun] at h
    cases h
  · refine iff_of_false (fun h => ?_) (by simp)
    have h := congrArg State.cursor (Host.Outcome.next.inj h)
    rw [commitIssue_cursor] at h
    omega

/-- The first field that names no declared register is the one that fails (R111). -/
theorem firstUnknown_eq_some {nregs k : Nat} {fields : List (RegField × RegIdx)} {f : RegField} {r : RegIdx}
    (hk : fields[k]? = some (f, r)) (hr : nregs ≤ r.toNat)
    (hlt : ∀ (m : Nat) (c : RegField × RegIdx), m < k → fields[m]? = some c → c.2.toNat < nregs) :
    firstUnknown nregs fields = some (f, r) := by
  obtain ⟨hlen, hget⟩ := List.getElem?_eq_some_iff.mp hk
  refine List.find?_eq_some_iff_getElem.mpr ⟨by simpa using hr, k, hlen, hget, fun m hm => ?_⟩
  simpa using hlt m _ hm (List.getElem?_eq_getElem (hm.trans hlen))

/-- Settles O30: with a free station, issue raises for the first field that the check refuses. -/
theorem unknownRegisterIsRaisedAtIssue : Obligations.UnknownRegisterIsRaisedAtIssue := by
  intro i s t k f r hfree hk hr hlt
  have ha := (allocate_eq_some_iff ..).mpr hfree
  have hu := firstUnknown_eq_some hk hr hlt
  rw [exec_eq_issueInto, issueInto, ha]
  simp only [hu]
  rfl

/-- Settles O31: `capture` reads the tag first. -/
theorem captureIsValueOrTag : Obligations.CaptureIsValueOrTag := by
  intro s r hr
  have h : capture s.regs r = match (regAt s r.toNat).tag with
    | none => .resolved (regAt s r.toNat).val
    | some t => .pending t := capture_eq s.regs r hr
  refine ⟨fun htag => ?_, fun t htag => ?_⟩ <;> rw [h, htag]

/-! ### Phase 1: the winner's result and its broadcast (R121 to R126) -/

/-- Settles O32: an opcode of two operands reads both slots, LOAD and STORE read the first alone. -/
theorem computeAppliesTheOpcode : Obligations.ComputeAppliesTheOpcode := by
  intro fmt st a hj
  refine ⟨fun b hk => ⟨fun h => ?_, fun h => ?_, fun h => ?_, fun h => ?_⟩, ?_⟩
  · simp [computeStation, h, hj, hk, Slot.value, computeAdd]
  · simp [computeStation, h, hj, hk, Slot.value, computeSub]
  · simp [computeStation, h, hj, hk, Slot.value, computeMul]
  · simp [computeStation, h, hj, hk, Slot.value, computeDiv]
  · rintro (h | h) <;> simp [computeStation, h, hj, Slot.value, computeLoad, computeStore]

theorem writeBack_of_winner {s : State} {w : Nat} {st : Station} {v : Word} (hq : s.cdbQ = some w)
    (hst : s.stations[w]? = some st) (hv : computeStation s.cfg.fmt st = some v) :
    writeBack s = some (commitWriteBack w st v s) := by
  simp [writeBack, hq, hst, hv]

/-- Settles O33: a register takes the broadcast exactly if it has the winner's tag. -/
theorem broadcastResolvesTaggedRegisters : Obligations.BroadcastResolvesTaggedRegisters := by
  intro s w st v hq hst hv
  refine ⟨_, writeBack_of_winner hq hst hv, by simp, fun i hi => ⟨fun h => ?_, fun h => ?_⟩⟩
  · rw [regAt_commitWriteBack w st v hi, if_pos h]
  · rw [regAt_commitWriteBack w st v hi, if_neg h]

theorem receive_eq_ite (w : Nat) (v : Word) (x : Slot) :
    x.receive w v = if x = .pending w then .resolved v else x := by
  cases x with
  | empty => rfl
  | resolved u => rfl
  | pending t => by_cases h : t = w <;> simp [h]

/-- Settles O34: a busy station receives in both slots, a free one stays, and the winner is released. -/
theorem broadcastFillsWaitingSlots : Obligations.BroadcastFillsWaitingSlots := by
  intro s w st v hq hst hv
  refine ⟨_, writeBack_of_winner hq hst hv, by simp, stationAt_commitWriteBack_winner .., fun u hu => ?_⟩
  rw [stationAt_commitWriteBack_of_ne st v s hu]
  refine ⟨station_receive_of_free w v _, fun hb => ?_⟩
  rw [Station.receive, if_pos hb, receive_eq_ite, receive_eq_ite]

/-- Write-back leaves every entry but the owner's. -/
theorem entryAt_commitWriteBack_of_ne {w n : Nat} {st : Station} (v : Word) (s : State) (h : st.inst ≠ some n) :
    entryAt (commitWriteBack w st v s) n = entryAt s n := by
  cases hst : st.inst with
  | none => simp [entryAt, hst, stampOwner]
  | some m =>
    have hne : m ≠ n := fun hmn => h (hmn ▸ hst)
    simp [entryAt, hst, stampOwner, stampWb, List.getD_eq_getElem?_getD, hne]

/-- Write-back stamps the owner, if it has no write-back stamp. -/
theorem entryAt_commitWriteBack_owner (w : Nat) {n : Nat} {st : Station} (v : Word) {s : State} (h : st.inst = some n)
    (hlt : n < s.table.length) (hwb : (entryAt s n).wb = none) :
    entryAt (commitWriteBack w st v s) n = { entryAt s n with wb := some s.cycle } := by
  have ht : (commitWriteBack w st v s).table = stampWb s.table n s.cycle := by simp [h, stampOwner]
  have he := stampWb_getD s.table n s.cycle n hlt
  rw [if_pos ⟨rfl, hwb⟩, ← ht] at he
  exact he

/-- Settles O35: the stamp goes to the owner's entry alone, and a set stamp stays. -/
theorem writeBackStampsTheOwner : Obligations.WriteBackStampsTheOwner := by
  intro s w st v hq hst hv
  refine ⟨_, writeBack_of_winner hq hst hv, fun n hn hlt hwb => entryAt_commitWriteBack_owner w v hn hlt hwb,
    fun n hn => ?_⟩
  rcases hn with hn | hwb
  · exact entryAt_commitWriteBack_of_ne v s hn
  · rcases entryAt_commitWriteBack w st v s n with he | ⟨hnone, -⟩
    · exact he
    · exact absurd hnone hwb

/-! ### What phase 2 commits -/

/-- The states that phase 2 can leave without a fatal error: no instruction left, a stall, or the instruction at the
cursor in the first free station of its class, with its registers declared (R106, R108, R109). -/
inductive Issues (s : State) : State → Prop where
  | exhausted (hle : s.cfg.progLen.toNat ≤ s.cursor) : Issues s s
  | stalled (i : Instr) (hi : instrAt s.cfg s.prog s.cursor = some i)
      (hbusy : ∀ t, t < s.stations.length → classOf s.cfg t = i.op.unit → (stationAt s t).busy = true) : Issues s s
  | issued (i : Instr) (u : Nat) (hlt : s.cursor < s.cfg.progLen.toNat) (hi : instrAt s.cfg s.prog s.cursor = some i)
      (hfree : FirstFree s i.op.unit u) (hdecl : firstUnknown s.cfg.nregs.toNat (usedFields i) = none) :
      Issues s (commitIssue i.op i.rd (operandJ s.regs i) (operandK s.regs i) u s)

theorem issuePhase_commits {s t : State} (h : issuePhase s = .next t) :
    (∃ e, t = raiseError s e) ∨ Issues s t := by
  rcases issuePhase_cases s with ⟨hle, h2⟩ | ⟨i, hlt, hf, h2⟩ | ⟨why, -, -, h2⟩
  · cases h2.symm.trans h
    exact .inr (.exhausted hle)
  · have hi := instrAt_of_fetch hf
    rcases exec_cases i s with ⟨ha, hx⟩ | ⟨u, f, r, -, -, hx⟩ | ⟨u, ha, hd, hx⟩ <;> cases (h2.trans hx).symm.trans h
    · exact .inr (.stalled i hi ((allocate_eq_none_iff ..).mp ha))
    · exact .inl ⟨_, rfl⟩
    · exact .inr (.issued i u hlt hi ((allocate_eq_some_iff ..).mp ha) hd)
  · cases h2.symm.trans h
    exact .inl ⟨_, rfl⟩

theorem Issues.run {s t : State} (h : Issues s t) : t.run = s.run := by cases h <;> rfl

end Sys2Proof.EngineCycle
end

