-- ==== Sys2Proof/Proofs/CycleResults.lean ====
section
/-! PROOFS. What a whole cycle of a running engine leaves (spec 40_engine_cycle.md R100 to R103, R110 to R119, R126,
R127): everything it commits is phases 1 and 2 without a fatal error, then phases 3 and 4. -/

namespace Sys2Proof.EngineCycle

open Sys2Proof.Config
open Sys2Proof.Machine
open Sys2Proof.Safety
open Sys2Proof.Laws
open Sys2Proof.EngineState
open Sys2Proof.Memory

/-! ### Committed and discarded cycles (R101, R103, R111) -/

theorem step_of_running {s : State} (hrst : s.pins.rst = false) (hrun : s.run = .run) : step s = cycle s := by
  simp [step, hrst, hrun]

theorem step_of_quiet {s : State} (hrst : s.pins.rst = false) (hrun : s.run ≠ .run) : step s = .next s := by
  rcases step_cases s with ⟨h, -⟩ | ⟨-, h, -⟩ | ⟨-, -, h⟩
  · simp [hrst] at h
  · exact absurd h hrun
  · exact h

theorem finishCycle_of_not_fault (s0 : State) {s : State} (h : ∀ e, s.run ≠ .fault e) :
    finishCycle s0 s = advancePhase (executePhase s0 s) := by
  unfold finishCycle
  split
  · next e he => exact absurd he (h e)
  · rfl
  · rfl

/-- A cycle from `s` that commits `t`, with what phase 1 and phase 2 leave between (R101). -/
structure CycleCommits (s s1 s2 t : State) : Prop where
  writesBack : writeBack s = some s1
  issues : Issues s1 s2
  next : t = advancePhase (executePhase s s2)

/-- A running engine discards its cycle at a fatal error or commits it. -/
theorem step_commits {s t : State} (hrst : s.pins.rst = false) (hrun : s.run = .run) (hs : step s = .next t) :
    (∃ e, t = raiseError s e) ∨ ∃ s1 s2, CycleCommits s s1 s2 t := by
  rw [step_of_running hrst hrun] at hs
  rcases cycle_cases s with ⟨-, hc⟩ | ⟨s1, s2, hw, hi, hc⟩ <;> cases hc.symm.trans hs
  · exact .inl ⟨_, rfl⟩
  · rcases issuePhase_commits hi with ⟨e, rfl⟩ | his
    · exact .inl ⟨e, finishCycle_of_fault rfl⟩
    · exact .inr ⟨s1, s2, hw, his, finishCycle_of_run (his.run.trans ((writeBack_run hw).trans hrun))⟩

theorem cycleCommits_of_no_fault {s t : State} (hrst : s.pins.rst = false) (hrun : s.run = .run)
    (hs : step s = .next t) (ht : ∀ e, t.run ≠ .fault e) : ∃ s1 s2, CycleCommits s s1 s2 t := by
  rcases step_commits hrst hrun hs with ⟨e, rfl⟩ | h
  · exact absurd rfl (ht e)
  · exact h

theorem advancePhase_not_fault {s : State} (h : ∀ e, s.run ≠ .fault e) (e : EngineError) :
    (advancePhase s).run ≠ .fault e := by
  rw [advancePhase_run]
  split
  · simp
  · exact h e

/-- Settles O18: `cycle` runs the phases in this order, and only the end of the cycle looks for a fatal error. -/
theorem stepRunsTheDecodedInstruction : Obligations.StepRunsTheDecodedInstruction := by
  intro s s1 s2 i hrst hrun hw hlt hf hx
  have hi : issuePhase s1 = .next s2 := by
    have hf : fetch s1 = .instr i := hf
    simp only [issuePhase, hlt, if_true, hf, hx]
  have hs : step s = .next (finishCycle s s2) := by
    rw [step_of_running hrst hrun, cycle, hw]
    simp only [hi]
  exact ⟨fun e he => by rw [hs, finishCycle_of_fault he]; rfl, fun h => by rw [hs, finishCycle_of_not_fault s h]⟩

/-- Settles O20: a fatal error of phase 1 or 2 is all that its cycle leaves, and phases 3 and 4 raise none. -/
theorem clockEdgesAreWholeCycles : Obligations.ClockEdgesAreWholeCycles := by
  intro s t hs
  refine ⟨fun hrst => ?_, fun hrst hrun => ?_, fun hrst hrun => ?_⟩
  · cases (step_of_rst hrst).symm.trans hs
    rfl
  · cases (step_of_quiet hrst hrun).symm.trans hs
    rfl
  · rw [step_of_running hrst hrun] at hs
    rcases cycle_cases s with ⟨hw, hc⟩ | ⟨s1, s2, hw, hi, hc⟩ <;> cases hc.symm.trans hs
    · exact .inr ⟨_, rfl, .inl ⟨hw, rfl⟩⟩
    · by_cases hfault : ∃ e, s2.run = .fault e
      · obtain ⟨e, he⟩ := hfault
        exact .inr ⟨e, finishCycle_of_fault he, .inr ⟨s1, s2, hw, hi, he⟩⟩
      · have hno : ∀ e, s2.run ≠ .fault e := not_exists.mp hfault
        have hcyc : s2.cycle = s.cycle := by
          rcases issuePhase_commits hi with ⟨e, rfl⟩ | his
          · exact absurd rfl (hno e)
          · obtain ⟨-, -, hcyc, -⟩ := writeBack_frame hw
            cases his <;> exact hcyc
        rw [finishCycle_of_not_fault s hno]
        exact .inl ⟨s1, s2, hw, hi, hno, rfl, by simp [hcyc], advancePhase_not_fault hno⟩

/-- Settles O22: a cycle that commits raises no fatal error. -/
theorem faultingCycleIsDiscarded : Obligations.FaultingCycleIsDiscarded := by
  intro s t e hrst hrun hs ht
  rcases step_commits hrst hrun hs with ⟨e', rfl⟩ | ⟨s1, s2, hw, hi, rfl⟩
  · cases ht
    rfl
  · have hrun2 : s2.run = .run := hi.run.trans ((writeBack_run hw).trans hrun)
    exact absurd ht (advancePhase_not_fault (fun e => by simp [hrun2]) e)

/-! ### One issue and one write-back (R110, R127) -/

theorem Issues.entryAt_of_ne {s t : State} (h : Issues s t) {n : Nat} (hn : n ≠ s.cursor) :
    entryAt t n = entryAt s n := by
  cases h with
  | exhausted => rfl
  | stalled => rfl
  | issued => exact entryAt_commitIssue_of_ne _ _ _ _ _ hn

theorem Issues.entryAt_complete_wb {s t : State} (h : Issues s t) (n : Nat) :
    (entryAt t n).complete = (entryAt s n).complete ∧ (entryAt t n).wb = (entryAt s n).wb := by
  cases h with
  | exhausted => exact ⟨rfl, rfl⟩
  | stalled => exact ⟨rfl, rfl⟩
  | issued => exact entryAt_commitIssue_complete_wb ..

theorem entryAt_executePhase_wb (s0 s : State) (n : Nat) :
    (entryAt (executePhase s0 s) n).wb = (entryAt s n).wb := by
  rcases entryAt_executePhase s0 s n with h | ⟨-, h⟩ <;> rw [h]

/-- Write-back stamps no entry, or that of one owner. -/
theorem writeBack_entryAt_of_ne {s s1 : State} (h : writeBack s = some s1) :
    ∃ m, ∀ n, n ≠ m → entryAt s1 n = entryAt s n := by
  rcases writeBack_commits h with rfl | ⟨w, st, v, rfl⟩
  · exact ⟨0, fun _ _ => rfl⟩
  · refine ⟨st.inst.getD 0, fun n hn => entryAt_commitWriteBack_of_ne v s fun hst => hn ?_⟩
    rw [hst, Option.getD_some]

/-- Each of the two stamps changes in at most one entry. -/
theorem step_stamps_of_ne {s t : State} (hrst : s.pins.rst = false) (hs : step s = .next t) :
    (∃ m, ∀ n, n ≠ m → (entryAt t n).issue = (entryAt s n).issue) ∧
    (∃ m, ∀ n, n ≠ m → (entryAt t n).wb = (entryAt s n).wb) := by
  by_cases hrun : s.run = .run
  · rcases step_commits hrst hrun hs with ⟨e, rfl⟩ | ⟨s1, s2, hw, hi, rfl⟩
    · exact ⟨⟨0, fun _ _ => rfl⟩, ⟨0, fun _ _ => rfl⟩⟩
    · obtain ⟨m, hm⟩ := writeBack_entryAt_of_ne hw
      refine ⟨⟨s1.cursor, fun n hn => ?_⟩, ⟨m, fun n hn => ?_⟩⟩
      · rw [entryAt_advancePhase, entryAt_executePhase_issue, hi.entryAt_of_ne hn, entryAt_writeBack_issue hw]
      · rw [entryAt_advancePhase, entryAt_executePhase_wb, (hi.entryAt_complete_wb n).2, hm n hn]
  · cases (step_of_quiet hrst hrun).symm.trans hs
    exact ⟨⟨0, fun _ _ => rfl⟩, ⟨0, fun _ _ => rfl⟩⟩

/-- Settles O23: two entries that both change are the one entry that can. -/
theorem oneIssueAndOneWriteBackPerCycle : Obligations.OneIssueAndOneWriteBackPerCycle := by
  intro s t hrst hs
  obtain ⟨⟨a, ha⟩, ⟨b, hb⟩⟩ := step_stamps_of_ne hrst hs
  exact ⟨fun n m hn hm => (not_imp_comm.mp (ha n) hn).trans (not_imp_comm.mp (ha m) hm).symm,
    fun n m hn hm => (not_imp_comm.mp (hb n) hn).trans (not_imp_comm.mp (hb m) hm).symm⟩

/-! ### Registers (R121, R126) -/

theorem Issues.regAt_val {s t : State} (h : Issues s t) (r : Nat) : (regAt t r).val = (regAt s r).val := by
  cases h with
  | exhausted => rfl
  | stalled => rfl
  | issued => exact regAt_commitIssue_val ..

/-- Settles O36: write-back writes the result, and issue renames a register without touching its value. -/
theorem resultReachesItsRegisters : Obligations.ResultReachesItsRegisters := by
  intro s w st v hrst hrun hq hst hv
  obtain ⟨t, hs⟩ := Scope.everyStepHasANextState s
  refine ⟨t, hs, fun hno r hr htag => ?_⟩
  obtain ⟨s1, s2, hw, hi, rfl⟩ := cycleCommits_of_no_fault hrst hrun hs hno
  cases (writeBack_of_winner hq hst hv).symm.trans hw
  calc (regAt (advancePhase (executePhase s s2)) r).val
      = (regAt s2 r).val := rfl
    _ = (regAt (commitWriteBack w st v s) r).val := hi.regAt_val r
    _ = v := by rw [regAt_commitWriteBack w st v hr, if_pos htag]

/-! ### Stations through a cycle (R113, R114, R122) -/

theorem eligible_iff_ready (s : State) (u : Nat) :
    eligible s.stations s.cdbQ u = true ↔ (stationAt s u).ready = true ∧ s.cdbQ ≠ some u :=
  eligible_iff ..

theorem stationAt_executePhase_eq (s0 s : State) (u : Nat) :
    stationAt (executePhase s0 s) u =
      if eligible s0.stations s0.cdbQ u then (stationAt s u).tick else stationAt s u := by
  by_cases hu : u < s.stations.length
  · exact tickStations_getD s0.stations s0.cdbQ s.stations u hu
  · rw [stationAt_of_le (by simpa using hu), stationAt_of_le (Nat.le_of_not_lt hu)]
    split <;> rfl

/-- Phase 1 leaves a station that is not the winner's as it is, or lets it receive the broadcast. -/
theorem stationAt_writeBack {s s1 : State} (h : writeBack s = some s1) {u : Nat} (hu : s.cdbQ ≠ some u) :
    stationAt s1 u = stationAt s u ∨ ∃ w v, stationAt s1 u = (stationAt s u).receive w v := by
  rcases writeBack_cases s with ⟨-, hw⟩ | ⟨w, st, v, hq, -, -, hw⟩ | ⟨w, -, -, hw⟩ <;> cases hw.symm.trans h
  · exact .inl rfl
  · exact .inr ⟨w, v, stationAt_commitWriteBack_of_ne st v s fun huw => hu (huw ▸ hq)⟩

theorem stationAt_writeBack_busy {s s1 : State} (h : writeBack s = some s1) {u : Nat} (hu : s.cdbQ ≠ some u) :
    (stationAt s1 u).busy = (stationAt s u).busy := by
  rcases stationAt_writeBack h hu with h | ⟨w, v, h⟩ <;> simp [h]

/-- Issue takes no busy station. -/
theorem Issues.stationAt_of_busy {s t : State} (h : Issues s t) {u : Nat} (hb : (stationAt s u).busy = true) :
    stationAt t u = stationAt s u := by
  cases h with
  | exhausted => rfl
  | stalled => rfl
  | issued i v _ _ hfree =>
    obtain ⟨-, -, hvb, -⟩ := hfree
    exact stationAt_commitIssue_of_ne _ _ _ _ _ fun huv => by simp [huv ▸ hb] at hvb

section
variable {s s1 s2 t : State} (h : CycleCommits s s1 s2 t)
include h

/-- A ready station that does not write back comes through phases 1 and 2 unchanged. -/
theorem CycleCommits.stationAt_of_ready {u : Nat} (hq : s.cdbQ ≠ some u) (hr : (stationAt s u).ready = true) :
    stationAt s2 u = stationAt s u := by
  obtain ⟨hb, -, -⟩ := (ready_iff _).mp hr
  have h1 : stationAt s1 u = stationAt s u := by
    rcases stationAt_writeBack h.writesBack hq with h | ⟨w, v, h⟩
    · exact h
    · rw [h, station_receive_of_ready w v _ hr]
  rw [h.issues.stationAt_of_busy (h1 ▸ hb), h1]

theorem CycleCommits.stationAt_eq (u : Nat) :
    stationAt t u = if eligible s.stations s.cdbQ u then (stationAt s u).tick else stationAt s2 u := by
  have ht : stationAt t u = stationAt (executePhase s s2) u := by rw [h.next]; rfl
  rw [ht, stationAt_executePhase_eq]
  split
  · next he =>
    obtain ⟨hr, hq⟩ := (eligible_iff_ready ..).mp he
    rw [h.stationAt_of_ready hq hr]
  · rfl

theorem CycleCommits.stations_length : t.stations.length = s.stations.length := by
  have h1 : s1.stations.length = s.stations.length := by
    rcases writeBack_commits h.writesBack with rfl | ⟨w, st, v, rfl⟩ <;> simp
  have h2 : s2.stations.length = s1.stations.length := by
    cases h.issues <;> simp
  rw [h.next]
  simp [h1, h2]

/-- In the cycle of its issue a station does not count: at the start it was free, or it was the winner's. -/
theorem CycleCommits.not_eligible_of_free {u : Nat} (hb : (stationAt s1 u).busy = false) :
    eligible s.stations s.cdbQ u = false := by
  rw [Bool.eq_false_iff, ne_eq, eligible_iff_ready, ready_iff]
  rintro ⟨⟨hbusy, -⟩, hq⟩
  rw [stationAt_writeBack_busy h.writesBack hq, hbusy] at hb
  cases hb

end

/-- Settles O37: a ready station is eligible and ticks; one that waits can only receive the broadcast. -/
theorem readyStationsCountOneCycle : Obligations.ReadyStationsCountOneCycle := by
  intro s t hrst hrun hs hno u _ hq hb
  obtain ⟨s1, s2, h⟩ := cycleCommits_of_no_fault hrst hrun hs hno
  refine ⟨fun hj hk => ?_, fun hwait => ?_⟩
  · have he := (eligible_iff_ready s u).mpr ⟨(ready_iff _).mpr ⟨hb, hj, hk⟩, hq⟩
    rw [h.stationAt_eq, if_pos he]
    rfl
  · have he : eligible s.stations s.cdbQ u ≠ true := by
      rw [ne_eq, eligible_iff_ready, ready_iff]
      rintro ⟨⟨-, hj, hk⟩, -⟩
      rcases hwait with hwait | hwait <;> simp_all
    have hb1 : (stationAt s1 u).busy = true := (stationAt_writeBack_busy h.writesBack hq).trans hb
    rw [h.stationAt_eq, if_neg he, h.issues.stationAt_of_busy hb1]
    rcases stationAt_writeBack h.writesBack hq with h | ⟨w, v, h⟩ <;> simp [h, hb]

/-- Settles O38: the station that issue fills is not eligible in its cycle. -/
theorem issuedStationStartsAtZero : Obligations.IssuedStationStartsAtZero := by
  intro s t hrst hrun hs hcur
  rcases step_commits hrst hrun hs with ⟨e, rfl⟩ | ⟨s1, s2, h⟩
  · exact absurd hcur (by simp)
  obtain ⟨hw, hi, hnext⟩ := id h
  obtain ⟨hcur1, -⟩ := writeBack_frame hw
  have hcur2 : t.cursor = s2.cursor := by rw [hnext]; rfl
  cases hi with
  | exhausted => omega
  | stalled => omega
  | issued i u _ _ hfree =>
    obtain ⟨hu, -, hb, -⟩ := hfree
    have hat := h.stationAt_eq u
    rw [h.not_eligible_of_free hb, stationAt_commitIssue_same _ _ _ _ hu] at hat
    refine ⟨u, by rw [hnext]; simpa using hu, by rw [hat]; rfl, by rw [hat]; exact congrArg some hcur1,
      by rw [hat]; rfl, ?_⟩
    by_cases hq : s.cdbQ = some u
    · exact .inr hq
    · exact .inl ((stationAt_writeBack_busy hw hq).symm.trans hb)

/-! ### Completion stamps (R117) -/

theorem entryAt_writeBack_complete {s s1 : State} (h : writeBack s = some s1) (n : Nat) :
    (entryAt s1 n).complete = (entryAt s n).complete := by
  rcases entryAt_writeBack h n with h | ⟨-, h⟩ <;> rw [h]

/-- The station counts in the cycle that begins in `s`, and this brings it to its latency (R113, R114, R117). -/
def ReachesLatency (s : State) (u : Nat) : Prop :=
  (stationAt s u).ready = true ∧ s.cdbQ ≠ some u ∧ (stationAt s u).lat.toNat ≤ (stationAt s u).elapsed.toNat + 1

theorem tick_elapsed_eq_lat (st : Station) : st.tick.elapsed = st.tick.lat ↔ st.lat.toNat ≤ st.elapsed.toNat + 1 := by
  rw [BitVec.toNat_inj.symm, tick_elapsed, tick_lat]
  omega

/-- Which instructions phase 3 stamps, by the stations at the start of the cycle. -/
theorem CycleCommits.completesNow_iff {s s1 s2 t : State} (h : CycleCommits s s1 s2 t) (n : Nat) :
    completesNow s.stations s.cdbQ t.stations n = true ↔
      ∃ u, u < s.stations.length ∧ ReachesLatency s u ∧ (stationAt s u).inst = some n := by
  rw [Laws.completesNow_iff, h.stations_length]
  refine exists_congr fun u => and_congr_right fun _ => ?_
  change _ ∧ (stationAt t u).inst = _ ∧ (stationAt t u).elapsed = (stationAt t u).lat ↔ _
  rw [h.stationAt_eq]
  by_cases he : eligible s.stations s.cdbQ u = true
  · obtain ⟨hr, hq⟩ := (eligible_iff_ready ..).mp he
    simp only [he, if_true, tick_inst, tick_elapsed_eq_lat, ReachesLatency, hr, true_and, ne_eq, hq, not_false_eq_true]
    exact and_comm
  · refine iff_of_false (fun hc => he hc.1) fun hc => he ?_
    obtain ⟨⟨hr, hq, -⟩, -⟩ := hc
    exact (eligible_iff_ready ..).mpr ⟨hr, hq⟩

theorem CycleCommits.table_length {s s1 s2 t : State} (h : CycleCommits s s1 s2 t) :
    s2.table.length = s.table.length := by
  obtain ⟨-, -, -, hlen⟩ := writeBack_frame h.writesBack
  cases h.issues <;> simpa using hlen

/-- Phase 3 leaves of a status entry what phase 2 left, but for the completion stamp. -/
theorem CycleCommits.entryAt_eq {s s1 s2 t : State} (h : CycleCommits s s1 s2 t) {n : Nat} (hn : n < s.table.length) :
    entryAt t n =
      if (entryAt s2 n).complete = none ∧ completesNow s.stations s.cdbQ t.stations n = true then
        { entryAt s2 n with complete := some s.cycle }
      else entryAt s2 n := by
  obtain rfl := h.next
  exact stampComplete_getD s.stations s.cdbQ _ s.cycle s2.table n (h.table_length ▸ hn)

theorem CycleCommits.entryAt_complete {s s1 s2 t : State} (h : CycleCommits s s1 s2 t) (n : Nat) :
    (entryAt s2 n).complete = (entryAt s n).complete :=
  (h.issues.entryAt_complete_wb n).1.trans (entryAt_writeBack_complete h.writesBack n)

/-- Settles O39: phase 3 stamps an unset entry exactly if a station of its instruction reaches its latency. -/
theorem completionIsStampedOnce : Obligations.CompletionIsStampedOnce := by
  intro s t hrst hrun hs hno n hn
  obtain ⟨s1, s2, h⟩ := cycleCommits_of_no_fault hrst hrun hs hno
  have he := h.entryAt_eq hn
  rw [h.entryAt_complete n] at he
  have hiff := h.completesNow_iff n
  refine ⟨fun hset => ?_, fun hunset => ?_⟩
  · rw [he, if_neg fun hc => hset hc.1, h.entryAt_complete n]
  by_cases hc : completesNow s.stations s.cdbQ t.stations n = true
  · have ht : (entryAt t n).complete = some s.cycle := by rw [he, if_pos ⟨hunset, hc⟩]
    obtain ⟨u, hu, ⟨hr, hq, hlat⟩, hinst⟩ := hiff.mp hc
    exact ⟨iff_of_true ht ⟨u, hu, hr, hq, hinst, hlat⟩, .inl ht⟩
  · have ht : (entryAt t n).complete = none := by rw [he, if_neg fun h => hc h.2, h.entryAt_complete n, hunset]
    refine ⟨iff_of_false (by simp [ht]) ?_, .inr ht⟩
    rintro ⟨u, hu, hr, hq, hinst, hlat⟩
    exact hc (hiff.mpr ⟨u, hu, ⟨hr, hq, hlat⟩, hinst⟩)

/-! ### Arbitration (R26, R118, R119) -/

theorem isComplete_eq_false_iff (st : Station) :
    st.isComplete = false ↔ (st.busy = true → st.elapsed ≠ st.lat) := by
  rw [Bool.eq_false_iff, ne_eq, isComplete_iff, not_and]

/-- Settles O40: phase 3 arbitrates over the stations that it leaves. -/
theorem latchHoldsTheSmallestComplete : Obligations.LatchHoldsTheSmallestComplete := by
  intro s t hrst hrun hs hno
  obtain ⟨s1, s2, h⟩ := cycleCommits_of_no_fault hrst hrun hs hno
  have hq : t.cdbQ = arbitrate t.stations := by rw [h.next]; rfl
  refine ⟨fun u => ?_, ?_⟩
  · rw [hq, arbitrate_eq_some]
    simp only [isComplete_iff, isComplete_eq_false_iff, and_assoc]
    rfl
  · rw [hq, arbitrate_eq_none]
    simp only [isComplete_eq_false_iff]
    rfl

/-- The class of a station by the ranges of R26, the last one open. -/
theorem classOf_iff (cfg : Params) (t : Nat) :
    (classOf cfg t = .addSub ↔ t < cfg.nsta.addSub.toNat) ∧
    (classOf cfg t = .mulDiv ↔ cfg.nsta.addSub.toNat ≤ t ∧ t < cfg.nsta.addSub.toNat + cfg.nsta.mulDiv.toNat) ∧
    (classOf cfg t = .load ↔ cfg.nsta.addSub.toNat + cfg.nsta.mulDiv.toNat ≤ t ∧
      t < cfg.nsta.addSub.toNat + cfg.nsta.mulDiv.toNat + cfg.nsta.load.toNat) ∧
    (classOf cfg t = .store ↔ cfg.nsta.addSub.toNat + cfg.nsta.mulDiv.toNat + cfg.nsta.load.toNat ≤ t) := by
  simp only [classOf, nstaOf]
  by_cases h1 : t < cfg.nsta.addSub.toNat
  · simp [h1]; omega
  by_cases h2 : t < cfg.nsta.addSub.toNat + cfg.nsta.mulDiv.toNat
  · simp [h1, h2]; omega
  by_cases h3 : t < cfg.nsta.addSub.toNat + cfg.nsta.mulDiv.toNat + cfg.nsta.load.toNat
  · simp [h1, h2, h3]; omega
  · simp [h1, h2, h3]; omega

theorem stationClassNumber_mono (cfg : Params) {u v : Nat} (h : u ≤ v) :
    stationClassNumber cfg u ≤ stationClassNumber cfg v := by
  unfold stationClassNumber
  split_ifs <;> omega

/-- Settles O41: the ranges follow each other, so the smallest id has the earliest class. -/
theorem arbitrationFollowsClassThenId : Obligations.ArbitrationFollowsClassThenId := by
  refine ⟨fun cfg t _ => classOf_iff cfg t, fun cfg stations u v st hu hv hb hl => ?_⟩
  obtain ⟨-, -, hmin⟩ := (arbitrate_eq_some ..).mp hu
  have hle : u ≤ v := by
    refine Nat.le_of_not_lt fun hlt => ?_
    have hc := (isComplete_eq_false_iff _).mp (hmin v hlt)
    simp only [List.getD_eq_getElem?_getD, hv, Option.getD_some] at hc
    exact hc hb hl
  exact ⟨stationClassNumber_mono cfg hle, hle⟩

end Sys2Proof.EngineCycle
end

