-- ==== Sys2Proof/Proofs/MidCycle.lean ====
section
/-! PROOFS. The invariants between the phases of a running engine's cycle (spec 10_state.md R25, R28, R29, R33): those
of `Coherent` without the latch and the end of the run, which phases 3 and 4 set. Write-back and issue keep them. -/

namespace Sys2Proof.EngineCycle

open Sys2Proof.Config
open Sys2Proof.Machine
open Sys2Proof.Safety
open Sys2Proof.Laws
open Sys2Proof.EngineState
open Sys2Proof.Memory

/-! ### Legal configurations (R6, R201) -/

theorem configChecks_all_iff (cfg : Params) :
    (∀ c ∈ configChecks cfg, c.2 = true) ↔
      (∀ op, 1 ≤ (latOf cfg op).toNat) ∧ (∀ cls, 1 ≤ nstaOf cfg cls) ∧
        (1 ≤ cfg.nregs.toNat ∧ cfg.nregs.toNat ≤ 256) ∧ cfg.progLen.toNat ≤ 65535 := by
  have hop : (∀ op, 1 ≤ (latOf cfg op).toNat) ↔ 1 ≤ cfg.lat.add.toNat ∧ 1 ≤ cfg.lat.sub.toNat ∧
      1 ≤ cfg.lat.mul.toNat ∧ 1 ≤ cfg.lat.div.toNat ∧ 1 ≤ cfg.lat.load.toNat ∧ 1 ≤ cfg.lat.store.toNat :=
    ⟨fun h => ⟨h .add, h .sub, h .mul, h .div, h .load, h .store⟩,
      fun ⟨h1, h2, h3, h4, h5, h6⟩ op => by cases op <;> assumption⟩
  have hcls : (∀ cls, 1 ≤ nstaOf cfg cls) ↔ 1 ≤ cfg.nsta.addSub.toNat ∧ 1 ≤ cfg.nsta.mulDiv.toNat ∧
      1 ≤ cfg.nsta.load.toNat ∧ 1 ≤ cfg.nsta.store.toNat :=
    ⟨fun h => ⟨h .addSub, h .mulDiv, h .load, h .store⟩, fun ⟨h1, h2, h3, h4⟩ cls => by cases cls <;> assumption⟩
  rw [hop, hcls]
  simp only [configChecks, List.forall_mem_cons, List.not_mem_nil, false_implies, implies_true, and_true,
    decide_eq_true_eq, and_assoc]

/-- Reset finds no configuration error exactly in a legal configuration. -/
theorem firstConfigError_eq_none_iff (cfg : Params) : firstConfigError cfg = none ↔ LegalConfig cfg := by
  have hfind : (configChecks cfg).find? (fun c => !c.2) = none ↔ ∀ c ∈ configChecks cfg, c.2 = true := by
    simp [List.find?_eq_none]
  have hsplit : firstConfigError cfg = none ↔
      (configChecks cfg).find? (fun c => !c.2) = none ∧ stationCount cfg ≤ 256 := by
    unfold firstConfigError
    cases (configChecks cfg).find? (fun c => !c.2) <;> simp
  rw [hsplit, hfind, configChecks_all_iff, LegalConfig]
  tauto

theorem legalConfig_of_validate {cfg : Params} {prog : ProgStore} (h : validate cfg prog = .run) :
    LegalConfig cfg := by
  rw [← firstConfigError_eq_none_iff]
  unfold validate at h
  cases he : firstConfigError cfg with
  | none => rfl
  | some r => simp [he] at h

/-- In a legal configuration every class has a station (R6, R26). -/
theorem exists_station_of_class {cfg : Params} (h : LegalConfig cfg) (cls : UnitClass) :
    ∃ t, t < stationCount cfg ∧ classOf cfg t = cls := by
  obtain ⟨-, hsta, -⟩ := h
  have h0 := hsta .addSub
  have h1 := hsta .mulDiv
  have h2 := hsta .load
  have h3 := hsta .store
  simp only [nstaOf] at h0 h1 h2 h3
  simp only [stationCount, nstaOf]
  cases cls with
  | addSub => exact ⟨0, by omega, (classOf_iff cfg _).1.mpr (by omega)⟩
  | mulDiv => exact ⟨cfg.nsta.addSub.toNat, by omega, (classOf_iff cfg _).2.1.mpr (by omega)⟩
  | load =>
    exact ⟨cfg.nsta.addSub.toNat + cfg.nsta.mulDiv.toNat, by omega, (classOf_iff cfg _).2.2.1.mpr (by omega)⟩
  | store =>
    exact ⟨cfg.nsta.addSub.toNat + cfg.nsta.mulDiv.toNat + cfg.nsta.load.toNat, by omega,
      (classOf_iff cfg _).2.2.2.mpr le_rfl⟩

/-! ### A busy station and its instruction (R29) -/

/-- What `BusyStation` says of the station `st` with id `t`, for its owner `n` and instruction `i`. -/
structure InFlight (s : State) (t : Nat) (st : Station) (n : Nat) (i : Instr) : Prop where
  inst : st.inst = some n
  issued : n < s.cursor
  instr : instrAt s.cfg s.prog n = some i
  declared : RegistersDeclared s i
  op : st.op = some i.op
  unit : classOf s.cfg t = i.op.unit
  lat : st.lat = latOf s.cfg i.op
  shaped : SlotsShaped i st
  lat_pos : 1 ≤ st.lat.toNat
  elapsed_le : st.elapsed.toNat ≤ st.lat.toNat
  counts : st.elapsed ≠ 0#8 → st.ready = true
  station : (entryAt s n).station = some t
  wb : (entryAt s n).wb = none
  complete : (entryAt s n).complete ≠ none ↔ st.elapsed = st.lat

theorem busyStation_iff (s : State) (t : Nat) (st : Station) :
    BusyStation s t st ↔ ∃ n i, InFlight s t st n i := by
  refine exists_congr fun n => exists_congr fun i => ⟨?_, fun h => ⟨h.inst, h.issued, h.instr, h.declared, h.op, h.unit,
    h.lat, h.shaped, h.lat_pos, h.elapsed_le, h.counts, h.station, h.wb, h.complete⟩⟩
  rintro ⟨hinst, hissued, hinstr, hdeclared, hop, hunit, hlat, hshaped, hpos, hle, hcounts, hstation, hwb, hcomplete⟩
  exact ⟨hinst, hissued, hinstr, hdeclared, hop, hunit, hlat, hshaped, hpos, hle, hcounts, hstation, hwb, hcomplete⟩

/-- An instruction is in flight in one station at most. -/
theorem InFlight.station_unique {s : State} {t u n : Nat} {st st' : Station} {i i' : Instr}
    (h : InFlight s t st n i) (h' : InFlight s u st' n i') : t = u :=
  Option.some.inj (h.station.symm.trans h'.station)

theorem InFlight.of_frame {s s' : State} {t n : Nat} {st : Station} {i : Instr} (h : InFlight s t st n i)
    (hcfg : s'.cfg = s.cfg) (hprog : s'.prog = s.prog) (hcur : s.cursor ≤ s'.cursor)
    (he : entryAt s' n = entryAt s n) : InFlight s' t st n i where
  inst := h.inst
  issued := h.issued.trans_le hcur
  instr := by rw [hcfg, hprog]; exact h.instr
  declared := by rw [RegistersDeclared, hcfg]; exact h.declared
  op := h.op
  unit := by rw [hcfg]; exact h.unit
  lat := by rw [hcfg]; exact h.lat
  shaped := h.shaped
  lat_pos := h.lat_pos
  elapsed_le := h.elapsed_le
  counts := h.counts
  station := by rw [he]; exact h.station
  wb := by rw [he]; exact h.wb
  complete := by rw [he]; exact h.complete

theorem slotsShaped_receive {i : Instr} {st : Station} (w : Nat) (v : Word) (h : SlotsShaped i st) :
    SlotsShaped i (st.receive w v) := by
  by_cases hb : st.busy = true
  · have hfill : ∀ x : Slot, Filled x → Filled (x.receive w v) := fun x => (receive_ne_empty w v x).mpr
    cases i with
    | load rd imm =>
      obtain ⟨hj, hk⟩ := h
      exact ⟨by rw [station_receive_j w v st hb, hj]; rfl, by rw [station_receive_k w v st hb, hk]; rfl⟩
    | store rd rs1 =>
      obtain ⟨hj, hk⟩ := h
      exact ⟨station_receive_j w v st hb ▸ hfill _ hj, by rw [station_receive_k w v st hb, hk]; rfl⟩
    | add rd rs1 rs2 | sub rd rs1 rs2 | mul rd rs1 rs2 | div rd rs1 rs2 =>
      obtain ⟨hj, hk⟩ := h
      exact ⟨station_receive_j w v st hb ▸ hfill _ hj, station_receive_k w v st hb ▸ hfill _ hk⟩
  · rw [station_receive_of_free w v st (by simpa using hb)]
    exact h

theorem InFlight.receive {s : State} {t n : Nat} {st : Station} {i : Instr} (h : InFlight s t st n i) (w : Nat)
    (v : Word) : InFlight s t (st.receive w v) n i where
  inst := by simpa using h.inst
  issued := h.issued
  instr := h.instr
  declared := h.declared
  op := by simpa using h.op
  unit := h.unit
  lat := by simpa using h.lat
  shaped := slotsShaped_receive w v h.shaped
  lat_pos := by simpa using h.lat_pos
  elapsed_le := by simpa using h.elapsed_le
  counts he := by
    have hr := h.counts (by simpa using he)
    rw [station_receive_of_ready w v st hr, hr]
  station := h.station
  wb := h.wb
  complete := by simpa using h.complete

/-! ### The invariants between the phases -/

theorem lt_length_of_busy {s : State} {t : Nat} (h : (stationAt s t).busy = true) : t < s.stations.length := by
  by_contra hle
  rw [stationAt_of_le (Nat.le_of_not_lt hle)] at h
  cases h

/-- What holds between the phases of a running engine's cycle. Stamps of this cycle are allowed. -/
structure MidCycle (s : State) : Prop where
  regs_length : s.regs.length = s.cfg.nregs.toNat
  stations_length : s.stations.length = stationCount s.cfg
  table_length : s.table.length = s.cfg.progLen.toNat
  cursor_le : s.cursor ≤ s.cfg.progLen.toNat
  validated : validate s.cfg s.prog = .run
  free_station : ∀ t, (stationAt s t).busy = false → stationAt s t = freeStation
  busy_station : ∀ t, (stationAt s t).busy = true → ∃ n i, InFlight s t (stationAt s t) n i
  waits : ∀ t, (stationAt s t).busy = true →
    WaitsForEarlier s (stationAt s t) (stationAt s t).j ∧ WaitsForEarlier s (stationAt s t) (stationAt s t).k
  issued_entry : ∀ n, n < s.cursor → (entryAt s n).issue ≠ none ∧ ∃ t, (entryAt s n).station = some t ∧
    ((entryAt s n).wb = none → (stationAt s t).busy = true ∧ (stationAt s t).inst = some n)
  waiting_entry : ∀ n, s.cursor ≤ n → entryAt s n = blankEntry
  stamps : ∀ n, n < s.cursor → StampsOrdered (s.cycle + 1) (entryAt s n)
  tags : ∀ r, r < s.regs.length → ∀ t, (regAt s r).tag = some t ↔
    ∃ n, lastWriter s.cfg s.prog s.cursor r = some n ∧ (entryAt s n).wb = none ∧ (entryAt s n).station = some t

theorem StampsOrdered.succ {c : Nat} {e : ItEntry} (h : StampsOrdered c e) : StampsOrdered (c + 1) e := by
  obtain ⟨hi, hc, hw⟩ := h
  exact ⟨fun a ha => (hi a ha).trans (Nat.lt_succ_self c),
    fun d hd => ⟨(hc d hd).1.trans (Nat.lt_succ_self c), (hc d hd).2⟩,
    fun d hd => ⟨(hw d hd).1.trans (Nat.lt_succ_self c), (hw d hd).2⟩⟩

theorem inFlight_of_coherent {s : State} (h : Coherent s) {t : Nat} (hb : (stationAt s t).busy = true) :
    ∃ n i, InFlight s t (stationAt s t) n i :=
  (busyStation_iff ..).mp (h.busy_station t (lt_length_of_busy hb) hb)

theorem midCycle_of_coherent {s : State} (h : Coherent s) (hrun : s.run = .run) : MidCycle s where
  regs_length := h.regs_length
  stations_length := h.stations_length
  table_length := h.table_length
  cursor_le := h.cursor_le
  validated := h.validated hrun
  free_station t hb := by
    by_cases ht : t < s.stations.length
    · exact h.free_station t ht hb
    · exact stationAt_of_le (Nat.le_of_not_lt ht)
  busy_station _ := inFlight_of_coherent h
  waits t hb := h.waits t (lt_length_of_busy hb) hb
  issued_entry n hn := by
    obtain ⟨hi, t, ht, hown⟩ := h.issued_entry n hn
    exact ⟨hi, t, ht, fun hwb => (hown hwb).2⟩
  waiting_entry := h.waiting_entry
  stamps n hn := StampsOrdered.succ (h.stamps n hn)
  tags := h.tags

/-! ### Phase 1 keeps them (R121 to R124) -/

section
variable {s : State} (hm : MidCycle s) {w : Nat} {st : Station} {n : Nat} {i : Instr} (hw : InFlight s w st n i)
include hm hw

theorem MidCycle.entryAt_winner (v : Word) :
    entryAt (commitWriteBack w st v s) n = { entryAt s n with wb := some s.cycle } :=
  entryAt_commitWriteBack_owner w v hw.inst (hm.table_length ▸ hw.issued.trans_le hm.cursor_le) hw.wb

/-- An entry that has no write-back stamp even now is not the winner's, and it is unchanged. -/
theorem MidCycle.entryAt_of_wb_none (v : Word) {m : Nat} (h : (entryAt (commitWriteBack w st v s) m).wb = none) :
    m ≠ n ∧ entryAt (commitWriteBack w st v s) m = entryAt s m := by
  have hne : m ≠ n := by
    rintro rfl
    rw [hm.entryAt_winner hw v] at h
    cases h
  exact ⟨hne, entryAt_commitWriteBack_of_ne v s fun h => hne (Option.some.inj (h.symm.trans hw.inst))⟩

omit hm in
theorem inFlight_commitWriteBack (v : Word) {t m : Nat} {i' : Instr} (ht : t ≠ w)
    (h : InFlight s t (stationAt s t) m i') :
    InFlight (commitWriteBack w st v s) t (stationAt (commitWriteBack w st v s) t) m i' := by
  have hne : st.inst ≠ some m := fun hst => by
    cases hw.inst.symm.trans hst
    exact ht (h.station_unique hw)
  rw [stationAt_commitWriteBack_of_ne st v s ht]
  exact (h.receive w v).of_frame rfl rfl le_rfl (entryAt_commitWriteBack_of_ne v s hne)

omit hm hw in
/-- Who still waits after the broadcast waits for a station that is still busy. -/
theorem waitsForEarlier_receive (st : Station) (v : Word) {st' : Station} {x : Slot}
    (h : WaitsForEarlier s st' x) :
    WaitsForEarlier (commitWriteBack w st v s) (st'.receive w v) (x.receive w v) := by
  intro u hu
  obtain ⟨hx, hne⟩ := (receive_eq_pending w v x u).mp hu
  obtain ⟨hlt, hb, m, k, hum, hk, hmk⟩ := h u hx
  rw [stationAt_commitWriteBack_of_ne st v s hne]
  exact ⟨by simpa using hlt, by simpa using hb, m, k, by simpa using hum, by simpa using hk, hmk⟩

/-- Write-back releases the winner and stamps its instruction; everything else keeps its owner. -/
theorem midCycle_commitWriteBack (hst : stationAt s w = st)
    (hcomplete : ∃ b, (entryAt s n).complete = some b ∧ b < s.cycle) (v : Word) :
    MidCycle (commitWriteBack w st v s) where
  regs_length := by simpa using hm.regs_length
  stations_length := by simpa using hm.stations_length
  table_length := by simpa using hm.table_length
  cursor_le := hm.cursor_le
  validated := hm.validated
  free_station t hb := by
    by_cases ht : t = w
    · rw [ht, stationAt_commitWriteBack_winner]
    · rw [stationAt_commitWriteBack_of_ne st v s ht, station_receive_busy] at hb
      rw [stationAt_commitWriteBack_of_ne st v s ht, station_receive_of_free w v _ hb, hm.free_station t hb]
  busy_station t hb := by
    by_cases ht : t = w
    · rw [ht, stationAt_commitWriteBack_winner] at hb
      cases hb
    · rw [stationAt_commitWriteBack_of_ne st v s ht, station_receive_busy] at hb
      obtain ⟨m, i', h⟩ := hm.busy_station t hb
      exact ⟨m, i', inFlight_commitWriteBack hw v ht h⟩
  waits t hb := by
    by_cases ht : t = w
    · rw [ht, stationAt_commitWriteBack_winner] at hb
      cases hb
    · rw [stationAt_commitWriteBack_of_ne st v s ht, station_receive_busy] at hb
      obtain ⟨hj, hk⟩ := hm.waits t hb
      rw [stationAt_commitWriteBack_of_ne st v s ht]
      exact ⟨station_receive_j w v _ hb ▸ waitsForEarlier_receive st v hj,
        station_receive_k w v _ hb ▸ waitsForEarlier_receive st v hk⟩
  issued_entry m hmc := by
    obtain ⟨hi, t, ht, hown⟩ := hm.issued_entry m hmc
    have hstay : (entryAt (commitWriteBack w st v s) m).issue = (entryAt s m).issue ∧
        (entryAt (commitWriteBack w st v s) m).station = (entryAt s m).station := by
      rcases entryAt_commitWriteBack w st v s m with h | ⟨-, h⟩ <;> rw [h] <;> exact ⟨rfl, rfl⟩
    refine ⟨hstay.1 ▸ hi, t, hstay.2 ▸ ht, fun hwb => ?_⟩
    obtain ⟨hne, he⟩ := hm.entryAt_of_wb_none hw v hwb
    obtain ⟨hb, hinst⟩ := hown (he ▸ hwb)
    have htw : t ≠ w := by
      rintro rfl
      rw [hst, hw.inst] at hinst
      exact hne (Option.some.inj hinst).symm
    rw [stationAt_commitWriteBack_of_ne st v s htw]
    exact ⟨by simpa using hb, by simpa using hinst⟩
  waiting_entry m hmc := by
    rw [entryAt_commitWriteBack_of_ne v s fun h => ?_, hm.waiting_entry m hmc]
    cases hw.inst.symm.trans h
    exact absurd hw.issued (Nat.not_lt.mpr hmc)
  stamps m hmc := by
    obtain ⟨hi, hc, hs⟩ := hm.stamps m hmc
    by_cases hne : m = n
    · subst hne
      rw [hm.entryAt_winner hw v]
      exact ⟨hi, hc, fun d hd => Option.some.inj hd ▸ ⟨Nat.lt_succ_self _, hcomplete⟩⟩
    · rw [entryAt_commitWriteBack_of_ne v s fun h => hne (Option.some.inj (h.symm.trans hw.inst))]
      exact ⟨hi, hc, hs⟩
  tags r hr t := by
    have hlt : r < s.regs.length := by simpa using hr
    have hiff := hm.tags r hlt
    rw [regAt_commitWriteBack w st v hlt]
    constructor
    · intro htag
      split at htag
      · cases htag
      · next hrw =>
        obtain ⟨m, hlast, hwb, hstation⟩ := (hiff t).mp htag
        have he : entryAt (commitWriteBack w st v s) m = entryAt s m :=
          entryAt_commitWriteBack_of_ne v s fun h => by
            cases hw.inst.symm.trans h
            cases hw.station.symm.trans hstation
            exact hrw htag
        exact ⟨m, hlast, he ▸ hwb, he ▸ hstation⟩
    · rintro ⟨m, hlast, hwb, hstation⟩
      obtain ⟨hne, he⟩ := hm.entryAt_of_wb_none hw v hwb
      rw [he] at hwb hstation
      have htag := (hiff t).mpr ⟨m, hlast, hwb, hstation⟩
      rwa [if_neg]
      intro hrw
      obtain ⟨m', hlast', -, hstation'⟩ := (hiff w).mp hrw
      cases hlast.symm.trans hlast'
      cases hstation.symm.trans hstation'
      obtain ⟨-, t', ht', hown⟩ := hm.issued_entry m (lastWriter_lt hlast)
      cases ht'.symm.trans hstation
      have hinst := (hown hwb).2
      rw [hst, hw.inst] at hinst
      exact hne (Option.some.inj hinst).symm

end

/-- The latched winner is in flight and complete, so its instruction has a completion stamp (R116, R118). -/
theorem winner_of_coherent {s : State} (h : Coherent s) {w : Nat} (hq : s.cdbQ = some w) :
    ∃ n i, InFlight s w (stationAt s w) n i ∧ (stationAt s w).elapsed = (stationAt s w).lat := by
  obtain ⟨-, hc, -⟩ := (arbitrate_eq_some ..).mp (h.latch.symm.trans hq)
  obtain ⟨hb, hl⟩ := (isComplete_iff (stationAt s w)).mp hc
  obtain ⟨n, i, hin⟩ := inFlight_of_coherent h hb
  exact ⟨n, i, hin, hl⟩

theorem midCycle_writeBack {s s1 : State} (hco : Coherent s) (hrun : s.run = .run) (h : writeBack s = some s1) :
    MidCycle s1 := by
  have hm := midCycle_of_coherent hco hrun
  rcases writeBack_cases s with ⟨-, hw⟩ | ⟨w, st, v, hq, hst, -, hw⟩ | ⟨w, -, -, hw⟩ <;> cases hw.symm.trans h
  · exact hm
  · obtain ⟨n, i, hin, hl⟩ := winner_of_coherent hco hq
    obtain ⟨b, hb⟩ := Option.ne_none_iff_exists'.mp (hin.complete.mpr hl)
    have hat : stationAt s w = st := by simp [stationAt, hst]
    obtain ⟨-, hc, -⟩ := hco.stamps n hin.issued
    exact midCycle_commitWriteBack hm (hat ▸ hin) hat ⟨b, hb, (hc b hb).1⟩ v

/-! ### Phase 2 keeps them (R107, R108) -/

theorem lastWriter_succ_rd {cfg : Params} {prog : ProgStore} {c : Nat} {i : Instr} (h : instrAt cfg prog c = some i) :
    lastWriter cfg prog (c + 1) i.rd.toNat = some c := by
  simp [lastWriter, h]

theorem lastWriter_succ_of_ne {cfg : Params} {prog : ProgStore} {c r : Nat} {i : Instr}
    (h : instrAt cfg prog c = some i) (hr : r ≠ i.rd.toNat) :
    lastWriter cfg prog (c + 1) r = lastWriter cfg prog c r := by
  simp [lastWriter, h, Ne.symm hr]

theorem registersDeclared_of_firstUnknown {s : State} {i : Instr}
    (h : firstUnknown s.cfg.nregs.toNat (usedFields i) = none) : RegistersDeclared s i := by
  refine ⟨?_, fun r => sources_declared_of_firstUnknown h⟩
  have hrd : (RegField.rd, i.rd) ∈ usedFields i := by cases i <;> simp [usedFields, Instr.rd]
  simpa using List.find?_eq_none.mp h _ hrd

theorem capture_ne_empty {regs : List Reg} {r : RegIdx} (h : r.toNat < regs.length) : Filled (capture regs r) := by
  rw [Filled, capture_eq regs r h]
  split <;> simp

theorem capture_eq_pending {regs : List Reg} {r : RegIdx} {u : Nat} (h : capture regs r = .pending u) :
    ∃ hr : r.toNat < regs.length, regs[r.toNat].tag = some u := by
  unfold capture at h
  cases hreg : regs[r.toNat]? with
  | none => simp [hreg] at h
  | some reg =>
    obtain ⟨hr, hget⟩ := List.getElem?_eq_some_iff.mp hreg
    refine ⟨hr, ?_⟩
    cases htag : reg.tag <;> simp_all

/-- An operand waits only where some register was captured as a tag. -/
theorem operand_eq_pending {regs : List Reg} {i : Instr} {u : Nat}
    (h : operandJ regs i = .pending u ∨ operandK regs i = .pending u) : ∃ r, capture regs r = .pending u := by
  cases i with
  | load rd imm => simp [operandJ, operandK] at h
  | store rd rs1 => exact ⟨rs1, by simpa [operandJ, operandK] using h⟩
  | add rd rs1 rs2 | sub rd rs1 rs2 | mul rd rs1 rs2 | div rd rs1 rs2 =>
    exact h.elim (fun h => ⟨rs1, h⟩) (fun h => ⟨rs2, h⟩)

theorem slotsShaped_operands {s : State} {i : Instr} {st : Station} (hlen : s.regs.length = s.cfg.nregs.toNat)
    (hd : RegistersDeclared s i) (hj : st.j = operandJ s.regs i) (hk : st.k = operandK s.regs i) :
    SlotsShaped i st := by
  obtain ⟨-, hsrc⟩ := hd
  have hfill : ∀ r ∈ i.sources, Filled (capture s.regs r) := fun r hr => capture_ne_empty (hlen ▸ hsrc r hr)
  cases i with
  | load rd imm => exact ⟨hj, hk⟩
  | store rd rs1 => exact ⟨hj ▸ hfill rs1 (by simp [Instr.sources]), hk⟩
  | add rd rs1 rs2 | sub rd rs1 rs2 | mul rd rs1 rs2 | div rd rs1 rs2 =>
    exact ⟨hj ▸ hfill rs1 (by simp [Instr.sources]), hk ▸ hfill rs2 (by simp [Instr.sources])⟩

/-- A tag captured by issue names a busy station of an issued instruction (R25). -/
theorem MidCycle.capture_owner {s : State} (hm : MidCycle s) {r : RegIdx} {u : Nat}
    (h : capture s.regs r = .pending u) :
    (stationAt s u).busy = true ∧ ∃ m, m < s.cursor ∧ (stationAt s u).inst = some m := by
  obtain ⟨hr, htag⟩ := capture_eq_pending h
  have htag : (regAt s r.toNat).tag = some u := by simpa [regAt, hr] using htag
  obtain ⟨m, hlast, hwb, hst⟩ := (hm.tags _ hr u).mp htag
  obtain ⟨-, t, ht, hown⟩ := hm.issued_entry m (lastWriter_lt hlast)
  cases ht.symm.trans hst
  exact ⟨(hown hwb).1, m, lastWriter_lt hlast, (hown hwb).2⟩

section
variable {s : State} (hm : MidCycle s) {i : Instr} {u : Nat} (hlt : s.cursor < s.cfg.progLen.toNat)
  (hi : instrAt s.cfg s.prog s.cursor = some i) (hfree : FirstFree s i.op.unit u)
  (hd : firstUnknown s.cfg.nregs.toNat (usedFields i) = none)

/-- The state after the instruction at the cursor has issued into station `u`. -/
abbrev afterIssue (s : State) (i : Instr) (u : Nat) : State :=
  commitIssue i.op i.rd (operandJ s.regs i) (operandK s.regs i) u s

include hm hlt in
theorem MidCycle.entryAt_issued : entryAt (afterIssue s i u) s.cursor =
    { issue := some s.cycle, complete := none, wb := none, station := some u } := by
  rw [entryAt_commitIssue_cursor _ _ _ _ _ (hm.table_length ▸ hlt), hm.waiting_entry s.cursor le_rfl]
  rfl

include hm hlt hi hfree hd in
/-- The station that issue fills holds the instruction at the cursor. -/
theorem MidCycle.inFlight_issued :
    InFlight (afterIssue s i u) u (stationAt (afterIssue s i u) u) s.cursor i := by
  obtain ⟨hu, hclass, -, -⟩ := hfree
  have hdecl := registersDeclared_of_firstUnknown hd
  obtain ⟨hlat, -⟩ := legalConfig_of_validate hm.validated
  have he := hm.entryAt_issued (i := i) (u := u) hlt
  rw [stationAt_commitIssue_same _ _ _ _ hu]
  refine ⟨rfl, Nat.lt_succ_self _, hi, hdecl, rfl, hclass, rfl,
    slotsShaped_operands hm.regs_length hdecl rfl rfl, hlat i.op, Nat.zero_le _, fun h => absurd rfl h, by rw [he],
    by rw [he], ?_⟩
  rw [he]
  refine iff_of_false (fun h => h rfl) fun h => ?_
  have hz : (0#8).toNat = (latOf s.cfg i.op).toNat := congrArg BitVec.toNat h
  have := hlat i.op
  simp only [BitVec.toNat_ofNat] at hz
  omega

include hfree in
theorem ne_of_busy_of_firstFree {t : Nat} (hb : (stationAt s t).busy = true) : t ≠ u := by
  obtain ⟨-, -, hub, -⟩ := hfree
  rintro rfl
  rw [hub] at hb
  cases hb

include hfree in
/-- Who waits for a busy station still does, and issue fills no busy station. -/
theorem waitsForEarlier_issued {st : Station} {x : Slot} (h : WaitsForEarlier s st x) :
    WaitsForEarlier (afterIssue s i u) st x := by
  intro t ht
  obtain ⟨hlen, hb, m, n, hm', hn, hmn⟩ := h t ht
  rw [stationAt_commitIssue_of_ne _ _ _ _ s (ne_of_busy_of_firstFree hfree hb)]
  exact ⟨by simpa using hlen, hb, m, n, hm', hn, hmn⟩

include hm in
theorem MidCycle.waitsForEarlier_operand {st : Station} {x : Slot} (hinst : st.inst = some s.cursor)
    (hx : ∀ t, x = .pending t → operandJ s.regs i = .pending t ∨ operandK s.regs i = .pending t) :
    WaitsForEarlier s st x := by
  intro t ht
  obtain ⟨r, hr⟩ := operand_eq_pending (hx t ht)
  obtain ⟨hb, m, hlt, hm⟩ := hm.capture_owner hr
  exact ⟨lt_length_of_busy hb, hb, m, s.cursor, hm, hinst, hlt⟩

include hm hlt hi hfree hd in
/-- Issue fills a free station, renames the destination and stamps the cursor's entry. -/
theorem midCycle_commitIssue : MidCycle (afterIssue s i u) where
  regs_length := by simpa using hm.regs_length
  stations_length := by simpa using hm.stations_length
  table_length := by simpa using hm.table_length
  cursor_le := hlt
  validated := hm.validated
  free_station t hb := by
    obtain ⟨hu, -⟩ := hfree
    by_cases ht : t = u
    · rw [ht, stationAt_commitIssue_same _ _ _ _ hu] at hb
      cases hb
    · rw [stationAt_commitIssue_of_ne _ _ _ _ s ht] at hb ⊢
      exact hm.free_station t hb
  busy_station t hb := by
    by_cases ht : t = u
    · rw [ht]
      exact ⟨s.cursor, i, hm.inFlight_issued hlt hi hfree hd⟩
    · rw [stationAt_commitIssue_of_ne _ _ _ _ s ht] at hb ⊢
      obtain ⟨n, i', h⟩ := hm.busy_station t hb
      exact ⟨n, i', h.of_frame rfl rfl (Nat.le_succ _) (entryAt_commitIssue_of_ne _ _ _ _ _ h.issued.ne)⟩
  waits t hb := by
    by_cases ht : t = u
    · obtain ⟨hu, -⟩ := id hfree
      rw [ht, stationAt_commitIssue_same _ _ _ _ hu]
      exact ⟨waitsForEarlier_issued hfree (hm.waitsForEarlier_operand rfl fun _ h => .inl h),
        waitsForEarlier_issued hfree (hm.waitsForEarlier_operand rfl fun _ h => .inr h)⟩
    · rw [stationAt_commitIssue_of_ne _ _ _ _ s ht] at hb ⊢
      obtain ⟨hj, hk⟩ := hm.waits t hb
      exact ⟨waitsForEarlier_issued hfree hj, waitsForEarlier_issued hfree hk⟩
  issued_entry n hn := by
    by_cases hnc : n = s.cursor
    · have h := hm.inFlight_issued hlt hi hfree hd
      rw [hnc, hm.entryAt_issued hlt]
      refine ⟨by simp, u, rfl, fun _ => ⟨?_, h.inst⟩⟩
      obtain ⟨hu, -⟩ := hfree
      rw [stationAt_commitIssue_same _ _ _ _ hu]
      rfl
    · have hn : n < s.cursor + 1 := hn
      rw [entryAt_commitIssue_of_ne _ _ _ _ _ hnc]
      obtain ⟨hissue, t, ht, hown⟩ := hm.issued_entry n (by omega)
      refine ⟨hissue, t, ht, fun hwb => ?_⟩
      obtain ⟨hb, hinst⟩ := hown hwb
      rw [stationAt_commitIssue_of_ne _ _ _ _ s (ne_of_busy_of_firstFree hfree hb)]
      exact ⟨hb, hinst⟩
  waiting_entry n hn := by
    have hn : s.cursor + 1 ≤ n := hn
    rw [entryAt_commitIssue_of_ne _ _ _ _ _ (by omega), hm.waiting_entry n (by omega)]
  stamps n hn := by
    by_cases hnc : n = s.cursor
    · rw [hnc, hm.entryAt_issued hlt]
      exact ⟨fun a ha => Option.some.inj ha ▸ Nat.lt_succ_self _, fun d hd => absurd hd (by simp),
        fun d hd => absurd hd (by simp)⟩
    · have hn : n < s.cursor + 1 := hn
      rw [entryAt_commitIssue_of_ne _ _ _ _ _ hnc]
      exact hm.stamps n (by omega)
  tags r hr t := by
    have hlen : r < s.regs.length := by simpa using hr
    by_cases hrd : r = i.rd.toNat
    · subst hrd
      have hlast : lastWriter s.cfg s.prog (s.cursor + 1) i.rd.toNat = some s.cursor := lastWriter_succ_rd hi
      have he := hm.entryAt_issued (i := i) (u := u) hlt
      rw [regAt_commitIssue_tag _ _ _ _ _ hlen]
      constructor
      · intro h
        exact ⟨s.cursor, hlast, by rw [he], by rw [he, ← h]⟩
      · rintro ⟨n, hn, -, hst⟩
        cases hlast.symm.trans hn
        rw [← hst, he]
    · rw [regAt_commitIssue_of_ne _ _ _ _ s hrd, hm.tags r hlen t]
      have hlast : lastWriter s.cfg s.prog (s.cursor + 1) r = lastWriter s.cfg s.prog s.cursor r :=
        lastWriter_succ_of_ne hi hrd
      refine exists_congr fun n => ?_
      change _ ↔ lastWriter s.cfg s.prog (s.cursor + 1) r = some n ∧ _
      rw [hlast]
      refine and_congr_right fun hn => ?_
      rw [entryAt_commitIssue_of_ne _ _ _ _ _ (lastWriter_lt hn).ne]

end

theorem midCycle_issues {s t : State} (hm : MidCycle s) (h : Issues s t) : MidCycle t := by
  cases h with
  | exhausted => exact hm
  | stalled => exact hm
  | issued i u hlt hi hfree hd => exact midCycle_commitIssue hm hlt hi hfree hd

end Sys2Proof.EngineCycle
end

