-- ==== Sys2Proof/Proofs/Coherence.lean ====
section
/-! PROOFS. Every step keeps the invariants of registers, stations, status table and latch (spec 40_engine_cycle.md
R130), and what they say of the end of a run (R128). -/

namespace Sys2Proof.EngineCycle

open Sys2Proof.Config
open Sys2Proof.Machine
open Sys2Proof.Safety
open Sys2Proof.Laws
open Sys2Proof.EngineState
open Sys2Proof.Memory

/-! ### Phase 3: counts and completion stamps (R113, R117) -/

section
variable {s s1 s2 t : State} (hco : Coherent s) (h : CycleCommits s s1 s2 t) (hm : MidCycle s2)

include h in
theorem CycleCommits.stationAt_frame (u : Nat) :
    (stationAt t u).busy = (stationAt s2 u).busy ∧ (stationAt t u).inst = (stationAt s2 u).inst ∧
    (stationAt t u).j = (stationAt s2 u).j ∧ (stationAt t u).k = (stationAt s2 u).k := by
  rw [h.next]
  exact stationAt_executePhase_frame s s2 u

include h in
theorem CycleCommits.stationAt_of_eligible {u : Nat} (he : eligible s.stations s.cdbQ u = true) :
    stationAt t u = (stationAt s2 u).tick ∧ (stationAt s2 u).ready = true := by
  obtain ⟨hr, hq⟩ := (eligible_iff_ready ..).mp he
  rw [h.stationAt_eq, if_pos he, h.stationAt_of_ready hq hr]
  exact ⟨rfl, hr⟩

include h in
theorem CycleCommits.stationAt_of_not_eligible {u : Nat} (he : ¬ eligible s.stations s.cdbQ u = true) :
    stationAt t u = stationAt s2 u := by
  rw [h.stationAt_eq, if_neg he]

include h hm in
/-- A station that reaches its latency for instruction `n` is the one that `n` is in flight in. -/
theorem CycleCommits.inFlight_of_reachesLatency {u n : Nat} (hr : ReachesLatency s u)
    (hinst : (stationAt s u).inst = some n) : ∃ i, InFlight s2 u (stationAt s2 u) n i := by
  obtain ⟨hready, hq, -⟩ := hr
  have hat := h.stationAt_of_ready hq hready
  obtain ⟨hb, -, -⟩ := (ready_iff _).mp hready
  obtain ⟨m, i, hin⟩ := hm.busy_station u (hat ▸ hb)
  have hmn := hin.inst
  rw [hat, hinst] at hmn
  cases hmn
  exact ⟨i, hin⟩

include h hm in
/-- Phase 3 stamps an instruction in flight exactly if its own station reaches the latency. -/
theorem CycleCommits.completesNow_iff_owner {u n : Nat} {i : Instr} (hin : InFlight s2 u (stationAt s2 u) n i) :
    completesNow s.stations s.cdbQ t.stations n = true ↔ ReachesLatency s u := by
  rw [h.completesNow_iff]
  constructor
  · rintro ⟨v, -, hr, hinst⟩
    obtain ⟨i', hin'⟩ := h.inFlight_of_reachesLatency hm hr hinst
    exact hin.station_unique hin' ▸ hr
  · intro hr
    obtain ⟨hready, hq, -⟩ := id hr
    obtain ⟨hb, -, -⟩ := (ready_iff _).mp hready
    exact ⟨u, lt_length_of_busy hb, hr, h.stationAt_of_ready hq hready ▸ hin.inst⟩

include h hm in
theorem CycleCommits.length_table : s.table.length = t.cfg.progLen.toNat := by
  rw [← h.table_length, hm.table_length, h.next]
  rfl

include h hm in
/-- The completion stamp of an instruction in flight is set exactly if its station's count is now full. -/
theorem CycleCommits.complete_iff {u n : Nat} {i : Instr} (hin : InFlight s2 u (stationAt s2 u) n i) :
    (entryAt t n).complete ≠ none ↔ (stationAt t u).elapsed = (stationAt t u).lat := by
  have hn : n < s.table.length := by
    rw [← h.table_length, hm.table_length]
    exact hin.issued.trans_le hm.cursor_le
  have hstamp : (entryAt t n).complete ≠ none ↔ (entryAt s2 n).complete ≠ none ∨ ReachesLatency s u := by
    rw [h.entryAt_eq hn, ← h.completesNow_iff_owner hm hin]
    split
    · next hc => simp [hc.2]
    · next hc =>
      refine ⟨.inl, fun hor hnone => ?_⟩
      rcases hor with hset | hr
      · exact hset hnone
      · exact hc ⟨hnone, hr⟩
  rw [hstamp, hin.complete]
  by_cases he : eligible s.stations s.cdbQ u = true
  · obtain ⟨hr, hq⟩ := (eligible_iff_ready ..).mp he
    have hle := hin.elapsed_le
    rw [(h.stationAt_of_eligible he).1, tick_elapsed_eq_lat, ReachesLatency, ← h.stationAt_of_ready hq hr]
    have hr2 : (stationAt s2 u).ready = true := (h.stationAt_of_eligible he).2
    simp only [hr2, ne_eq, hq, not_false_eq_true, true_and, BitVec.toNat_inj.symm]
    omega
  · rw [h.stationAt_of_not_eligible he]
    refine or_iff_left fun hr => he ?_
    obtain ⟨hready, hq, -⟩ := hr
    exact (eligible_iff_ready ..).mpr ⟨hready, hq⟩

include h hm in
/-- Phase 3 leaves an entry as it is, or it stamps the completion of an instruction in flight. -/
theorem CycleCommits.entryAt_cases (n : Nat) :
    entryAt t n = entryAt s2 n ∨
    (entryAt t n = { entryAt s2 n with complete := some s.cycle } ∧
      ∃ u i, ReachesLatency s u ∧ (stationAt s u).inst = some n ∧ InFlight s2 u (stationAt s2 u) n i) := by
  by_cases hn : n < s.table.length
  · rw [h.entryAt_eq hn]
    split
    · next hc =>
      obtain ⟨u, -, hr, hinst⟩ := (h.completesNow_iff n).mp hc.2
      obtain ⟨i, hin⟩ := h.inFlight_of_reachesLatency hm hr hinst
      exact .inr ⟨rfl, u, i, hr, hinst, hin⟩
    · exact .inl rfl
  · rw [h.length_table hm] at hn
    have ht : t.table.length = t.cfg.progLen.toNat := by
      rw [← h.length_table hm, ← h.table_length, h.next]
      simp
    have hn2 : s2.table.length ≤ n := by
      rw [h.table_length, h.length_table hm]
      exact Nat.le_of_not_lt hn
    exact .inl (by rw [entryAt_of_le (ht ▸ Nat.le_of_not_lt hn), entryAt_of_le hn2])

include h hm in
theorem CycleCommits.entryAt_frame (n : Nat) : (entryAt t n).issue = (entryAt s2 n).issue ∧
    (entryAt t n).wb = (entryAt s2 n).wb ∧ (entryAt t n).station = (entryAt s2 n).station := by
  rcases h.entryAt_cases hm n with he | ⟨he, -⟩ <;> rw [he] <;> exact ⟨rfl, rfl, rfl⟩

include h hm in
/-- An instruction in flight stays so, one cycle further if its station counts. -/
theorem CycleCommits.inFlight {u n : Nat} {i : Instr} (hin : InFlight s2 u (stationAt s2 u) n i) :
    InFlight t u (stationAt t u) n i := by
  obtain ⟨hcfg, hprog, hcur⟩ : t.cfg = s2.cfg ∧ t.prog = s2.prog ∧ t.cursor = s2.cursor := by
    rw [h.next]
    exact ⟨rfl, rfl, rfl⟩
  obtain ⟨-, hwb, hst⟩ := h.entryAt_frame hm n
  have hsame : (stationAt t u).inst = (stationAt s2 u).inst ∧ (stationAt t u).op = (stationAt s2 u).op ∧
      (stationAt t u).lat = (stationAt s2 u).lat ∧ SlotsShaped i (stationAt t u) ∧
      (stationAt t u).elapsed.toNat ≤ (stationAt t u).lat.toNat ∧
      ((stationAt t u).elapsed ≠ 0#8 → (stationAt t u).ready = true) := by
    by_cases he : eligible s.stations s.cdbQ u = true
    · obtain ⟨hat, hr⟩ := h.stationAt_of_eligible he
      rw [hat, tick_elapsed]
      exact ⟨rfl, rfl, rfl, hin.shaped, min_le_right _ _, fun _ => hr⟩
    · rw [h.stationAt_of_not_eligible he]
      exact ⟨rfl, rfl, rfl, hin.shaped, hin.elapsed_le, hin.counts⟩
  obtain ⟨hinst, hop, hlat, hshaped, hle, hcounts⟩ := hsame
  exact {
    inst := hinst.trans hin.inst
    issued := hcur ▸ hin.issued
    instr := by rw [hcfg, hprog]; exact hin.instr
    declared := by rw [RegistersDeclared, hcfg]; exact hin.declared
    op := hop.trans hin.op
    unit := by rw [hcfg]; exact hin.unit
    lat := by rw [hcfg]; exact hlat.trans hin.lat
    shaped := hshaped
    lat_pos := hlat ▸ hin.lat_pos
    elapsed_le := hle
    counts := hcounts
    station := hst.trans hin.station
    wb := hwb.trans hin.wb
    complete := h.complete_iff hm hin }

include h in
theorem CycleCommits.waitsForEarlier {st st' : Station} {x : Slot} (hinst : st'.inst = st.inst)
    (hw : WaitsForEarlier s2 st x) : WaitsForEarlier t st' x := by
  intro u hu
  obtain ⟨hlt, hb, m, n, hum, hn, hmn⟩ := hw u hu
  obtain ⟨hb', hi', -, -⟩ := h.stationAt_frame u
  rw [← hb'] at hb
  exact ⟨lt_length_of_busy hb, hb, m, n, hi'.trans hum, hinst.trans hn, hmn⟩

include hco h in
/-- An instruction that a station counts for has an issue stamp of an earlier cycle (R102). -/
theorem CycleCommits.issue_of_reachesLatency {u n : Nat} (hr : ReachesLatency s u)
    (hinst : (stationAt s u).inst = some n) : ∃ a, (entryAt s2 n).issue = some a ∧ a < s.cycle := by
  obtain ⟨hready, -, -⟩ := hr
  obtain ⟨hb, -, -⟩ := (ready_iff _).mp hready
  obtain ⟨m, i, hin⟩ := inFlight_of_coherent hco hb
  cases hin.inst.symm.trans hinst
  obtain ⟨hcur, -⟩ := writeBack_frame h.writesBack
  obtain ⟨a, ha⟩ := Option.ne_none_iff_exists'.mp (hco.issued_entry n hin.issued).1
  obtain ⟨hpast, -, -⟩ := hco.stamps n hin.issued
  refine ⟨a, ?_, hpast a ha⟩
  rw [h.issues.entryAt_of_ne (hcur ▸ hin.issued.ne), entryAt_writeBack_issue h.writesBack, ha]

include hco h hm in
theorem CycleCommits.stampsOrdered (hcyc : s2.cycle = s.cycle) {n : Nat} (hn : n < s2.cursor) :
    StampsOrdered (s.cycle + 1) (entryAt t n) := by
  obtain ⟨hi, hc, hw⟩ := hcyc ▸ hm.stamps n hn
  rcases h.entryAt_cases hm n with he | ⟨he, u, i, hr, hinst, hin⟩ <;> rw [he]
  · exact ⟨hi, hc, hw⟩
  · refine ⟨hi, fun d hd => ?_, fun d hd => ?_⟩
    · cases hd
      exact ⟨Nat.lt_succ_self _, h.issue_of_reachesLatency hco hr hinst⟩
    · exact absurd (hin.wb.symm.trans hd) (by simp)

/-! ### Phase 4: the end of the run (R128, R134) -/

theorem exists_unfinished {s : State} (h : allWrittenBack s.table = false) :
    ∃ n, n < s.table.length ∧ (entryAt s n).wb = none := by
  by_contra hno
  rw [(allWrittenBack_iff s.table).mpr fun n hn hwb => hno ⟨n, hn, hwb⟩] at h
  cases h

include h hm in
/-- A cycle that does not end the run leaves an instruction in flight: it issues one, or it stalls on a busy class, or
every instruction has issued. -/
theorem CycleCommits.in_flight (hopen : allWrittenBack t.table = false) : ∃ u, (stationAt t u).busy = true := by
  have hbusy : ∀ {u}, (stationAt s2 u).busy = true → ∃ u, (stationAt t u).busy = true :=
    fun {u} hb => ⟨u, (h.stationAt_frame u).1.trans hb⟩
  obtain ⟨hw, hi, hnext⟩ := id h
  cases hi with
  | exhausted hle =>
    obtain ⟨n, hn, hwb⟩ := exists_unfinished hopen
    obtain ⟨-, hwb2, -⟩ := h.entryAt_frame hm n
    have hlen : n < s1.cfg.progLen.toNat := by
      rw [← hm.table_length]
      simpa [hnext] using hn
    obtain ⟨-, u, -, hown⟩ := hm.issued_entry n (hlen.trans_le hle)
    exact hbusy (hown (hwb2.symm.trans hwb)).1
  | stalled i _ hall =>
    obtain ⟨u, hu, hclass⟩ := exists_station_of_class (legalConfig_of_validate hm.validated) i.op.unit
    exact hbusy (hall u (hm.stations_length ▸ hu) hclass)
  | issued i u _ _ hfree _ =>
    obtain ⟨hu, -⟩ := hfree
    exact hbusy (u := u) (by rw [stationAt_commitIssue_same _ _ _ _ hu]; rfl)

theorem Issues.frame {s t : State} (h : Issues s t) : t.cycle = s.cycle ∧ t.cfg = s.cfg ∧ t.prog = s.prog := by
  cases h <;> exact ⟨rfl, rfl, rfl⟩

include hco h hm in
/-- Phases 3 and 4 lead from the invariants between phases to those between cycles. -/
theorem coherent_of_cycleCommits (hrun : s2.run = .run) : Coherent t := by
  have hcyc : s2.cycle = s.cycle := h.issues.frame.1.trans (writeBack_frame h.writesBack).2.2.1
  have hrun' : t.run = if allWrittenBack t.table then .done else .run := by rw [h.next, ← hrun]; rfl
  have hregs : ∀ r, regAt t r = regAt s2 r := fun r => by rw [h.next]; rfl
  obtain ⟨hcfg, hprog, hcur, hlen⟩ : t.cfg = s2.cfg ∧ t.prog = s2.prog ∧ t.cursor = s2.cursor ∧
      t.regs = s2.regs := by
    rw [h.next]
    exact ⟨rfl, rfl, rfl, rfl⟩
  exact {
    regs_length := by rw [hlen, hcfg, hm.regs_length]
    stations_length := by rw [hcfg, ← hm.stations_length, h.next]; simp
    table_length := by rw [hcfg, ← hm.table_length, h.next]; simp
    cursor_le := by rw [hcur, hcfg]; exact hm.cursor_le
    validated := fun _ => by rw [hcfg, hprog, hm.validated]
    unfinished := fun ht => by
      rw [hrun'] at ht
      split at ht
      · cases ht
      · next hf => simpa using hf
    finished := fun ht => by
      rw [hrun'] at ht
      split at ht
      · next hf => exact hf
      · cases ht
    in_flight := fun ht _ => by
      rw [hrun'] at ht
      split at ht
      · cases ht
      · next hf =>
        obtain ⟨u, hu⟩ := h.in_flight hm (by simpa using hf)
        exact ⟨u, lt_length_of_busy hu, hu⟩
    free_station := fun u _ hb => by
      rw [(h.stationAt_frame u).1] at hb
      have hfree := hm.free_station u hb
      rw [h.stationAt_of_not_eligible fun he => ?_, hfree]
      have hr := (h.stationAt_of_eligible he).2
      rw [hfree] at hr
      cases hr
    busy_station := fun u _ hb => by
      rw [(h.stationAt_frame u).1] at hb
      obtain ⟨n, i, hin⟩ := hm.busy_station u hb
      exact (busyStation_iff ..).mpr ⟨n, i, h.inFlight hm hin⟩
    waits := fun u _ hb => by
      obtain ⟨hbusy, hinst, hj, hk⟩ := h.stationAt_frame u
      obtain ⟨hwj, hwk⟩ := hm.waits u (hbusy ▸ hb)
      exact ⟨hj ▸ h.waitsForEarlier hinst hwj, hk ▸ h.waitsForEarlier hinst hwk⟩
    issued_entry := fun n hn => by
      obtain ⟨hissue, hwb, hst⟩ := h.entryAt_frame hm n
      obtain ⟨hi, u, hu, hown⟩ := hm.issued_entry n (hcur ▸ hn)
      refine ⟨hissue ▸ hi, u, hst.trans hu, fun hnone => ?_⟩
      obtain ⟨hb, hinst⟩ := hown (hwb.symm.trans hnone)
      obtain ⟨hb', hinst', -, -⟩ := h.stationAt_frame u
      exact ⟨lt_length_of_busy (hb'.trans hb), hb'.trans hb, hinst'.trans hinst⟩
    waiting_entry := fun n hn => by
      rw [hcur] at hn
      rcases h.entryAt_cases hm n with he | ⟨-, u, i, -, -, hin⟩
      · rw [he, hm.waiting_entry n hn]
      · exact absurd hin.issued (Nat.not_lt.mpr hn)
    stamps := fun n hn => by
      rw [show t.cycle = s.cycle + 1 by rw [h.next, ← hcyc]; rfl]
      exact h.stampsOrdered hco hm hcyc (hcur ▸ hn)
    tags := fun r hr u => by
      rw [hregs, hm.tags r (hlen ▸ hr) u, hcfg, hprog, hcur]
      refine exists_congr fun n => ?_
      obtain ⟨-, hwb, hst⟩ := h.entryAt_frame hm n
      rw [hwb, hst]
    latch := by rw [h.next]; rfl }

end

/-! ### Every step (R130) -/

theorem coherent_raiseError {s : State} (h : Coherent s) (e : EngineError) : Coherent (raiseError s e) :=
  { h with
    validated := fun hr => by cases hr
    unfinished := fun hr => by cases hr
    finished := fun hr => by cases hr
    in_flight := fun hr => by cases hr }

theorem midCycle_of_cycleCommits {s s1 s2 t : State} (hco : Coherent s) (hrun : s.run = .run)
    (h : CycleCommits s s1 s2 t) : MidCycle s2 :=
  midCycle_issues (midCycle_writeBack hco hrun h.writesBack) h.issues

/-- Settles O51: reset makes a coherent state, and the phases of a committed cycle keep the invariants in turn. -/
theorem coherenceIsKept : Obligations.CoherenceIsKept := by
  intro s t hco hs
  by_cases hrst : s.pins.rst = true
  · cases (step_of_rst hrst).symm.trans hs
    exact coherent_init ..
  · have hrst : s.pins.rst = false := by simpa using hrst
    by_cases hrun : s.run = .run
    · rcases step_commits hrst hrun hs with ⟨e, rfl⟩ | ⟨s1, s2, h⟩
      · exact coherent_raiseError hco e
      · exact coherent_of_cycleCommits hco h (midCycle_of_cycleCommits hco hrun h)
          (h.issues.run.trans ((writeBack_run h.writesBack).trans hrun))
    · cases (step_of_quiet hrst hrun).symm.trans hs
      exact hco

/-! ### The end of a run (R128) -/

/-- Settles O56: a busy station, a tag or an instruction that has not issued would be one that has not written back. -/
theorem doneStateIsQuiet : Obligations.DoneStateIsQuiet := by
  intro s hco hdone
  have hall := hco.finished hdone
  have hfree : ∀ t, (stationAt s t).busy = false := fun t => by
    by_contra hb
    obtain ⟨n, i, hin⟩ := inFlight_of_coherent hco (by simpa using hb)
    exact wb_of_allWrittenBack hco hall (hin.issued.trans_le hco.cursor_le) hin.wb
  refine ⟨cursor_of_allWrittenBack hco hall, ?_, fun t _ => hfree t, fun r hr => tag_of_allWrittenBack hco hall hr⟩
  rw [hco.latch, arbitrate_eq_none]
  intro t _
  exact (isComplete_eq_false_iff _).mpr fun hb => by
    rw [show (s.stations.getD t freeStation).busy = false from hfree t] at hb
    cases hb

end Sys2Proof.EngineCycle
end

