-- ==== Sys2Proof/Proofs/Progress.lean ====
section
/-! PROOFS. Every cycle of a running engine makes progress, so every run ends (spec 40_engine_cycle.md R129, R134): a
cycle writes back the latched winner, or counts for the oldest instruction in flight, or is the cycle of the first
issue; and no cycle adds to what an instruction still has to be charged. -/

namespace Sys2Proof.EngineCycle

open Sys2Proof.Config
open Sys2Proof.Machine
open Sys2Proof.Safety
open Sys2Proof.Laws
open Sys2Proof.EngineState
open Sys2Proof.Memory

/-! ### What an instruction still has to be charged (R134) -/

section
variable {s : State} {n : Nat}

theorem remaining_of_wb (h : (entryAt s n).wb ≠ none) : remaining s n = 0 := by
  simp [remaining, h]

theorem remaining_of_station {u : Nat} (hwb : (entryAt s n).wb = none) (hst : (entryAt s n).station = some u) :
    remaining s n = (stationAt s u).lat.toNat - (stationAt s u).elapsed.toNat + 1 := by
  simp [remaining, hwb, hst]

theorem remaining_of_waiting (h : entryAt s n = blankEntry) : remaining s n = latencyAt s.cfg s.prog n + 1 := by
  simp [remaining, h, blankEntry]

theorem remaining_pos (h : (entryAt s n).wb = none) : 1 ≤ remaining s n := by
  cases hst : (entryAt s n).station with
  | none => simp [remaining, h, hst]
  | some u => simp [remaining_of_station h hst]

/-- An issued instruction that has not written back is in flight. -/
theorem inFlight_of_wb_none (hco : Coherent s) (hn : n < s.cursor) (hwb : (entryAt s n).wb = none) :
    ∃ u i, InFlight s u (stationAt s u) n i := by
  obtain ⟨-, u, -, hown⟩ := hco.issued_entry n hn
  obtain ⟨-, hb, hinst⟩ := hown hwb
  obtain ⟨m, i, hin⟩ := inFlight_of_coherent hco hb
  cases hin.inst.symm.trans hinst
  exact ⟨u, i, hin⟩

/-- No charge is above that of an instruction that waits to issue. -/
theorem remaining_le_latency (hco : Coherent s) (n : Nat) : remaining s n ≤ latencyAt s.cfg s.prog n + 1 := by
  by_cases hn : n < s.cursor
  · by_cases hwb : (entryAt s n).wb = none
    · obtain ⟨u, i, hin⟩ := inFlight_of_wb_none hco hn hwb
      have hlat : latencyAt s.cfg s.prog n = (latOf s.cfg i.op).toNat := by simp [latencyAt, hin.instr]
      rw [remaining_of_station hwb hin.station, hlat, hin.lat]
      omega
    · rw [remaining_of_wb hwb]
      exact Nat.zero_le _
  · exact (remaining_of_waiting (hco.waiting_entry n (Nat.le_of_not_lt hn))).le

end

/-! ### Some station is ready while an instruction is in flight (R29, R134) -/

/-- Whoever waits, waits for an earlier instruction, so from an instruction in flight one comes to a ready station. -/
theorem exists_ready {s : State} (hco : Coherent s) (n : Nat) :
    ∀ {u : Nat} {i : Instr}, (stationAt s u).busy = true → InFlight s u (stationAt s u) n i →
      ∃ v, (stationAt s v).ready = true := by
  induction n using Nat.strong_induction_on with
  | _ n ih =>
    intro u i hb hin
    have hearlier : ∀ x : Slot, WaitsForEarlier s (stationAt s u) x → x.isPending = true →
        ∃ v, (stationAt s v).ready = true := by
      intro x hw hx
      cases x with
      | empty => cases hx
      | resolved a => cases hx
      | pending v =>
        obtain ⟨-, hv, m, k, hvm, huk, hmk⟩ := hw v rfl
        cases hin.inst.symm.trans huk
        obtain ⟨m', i', hin'⟩ := inFlight_of_coherent hco hv
        cases hin'.inst.symm.trans hvm
        exact ih m hmk hv hin'
    obtain ⟨hj, hk⟩ := hco.waits u (lt_length_of_busy hb) hb
    by_cases hjp : (stationAt s u).j.isPending = true
    · exact hearlier _ hj hjp
    by_cases hkp : (stationAt s u).k.isPending = true
    · exact hearlier _ hk hkp
    exact ⟨u, (ready_iff _).mpr ⟨hb, by simpa using hjp, by simpa using hkp⟩⟩

/-! ### What a committed cycle does to the charges -/

section
variable {s s1 s2 t : State} (hco : Coherent s) (hrst : s.pins.rst = false) (hrun : s.run = .run)
  (hs : step s = .next t) (h : CycleCommits s s1 s2 t)

include h in
/-- A station keeps its latency and its count does not fall, unless it writes back. -/
theorem CycleCommits.count_le {u : Nat} (hb : (stationAt s u).busy = true) (hq : s.cdbQ ≠ some u)
    (hle : (stationAt s u).elapsed.toNat ≤ (stationAt s u).lat.toNat) :
    (stationAt t u).lat = (stationAt s u).lat ∧ (stationAt s u).elapsed.toNat ≤ (stationAt t u).elapsed.toNat := by
  rw [h.stationAt_eq]
  split
  · rw [tick_elapsed]
    exact ⟨rfl, le_min (Nat.le_succ _) hle⟩
  · have hb1 : (stationAt s1 u).busy = true := (stationAt_writeBack_busy h.writesBack hq).trans hb
    rw [h.issues.stationAt_of_busy hb1]
    rcases stationAt_writeBack h.writesBack hq with h | ⟨w, v, h⟩ <;> simp [h]

include hco hrun h in
/-- The winner's instruction has written back. -/
theorem CycleCommits.wb_of_winner {w n : Nat} {i : Instr} (hq : s.cdbQ = some w)
    (hin : InFlight s w (stationAt s w) n i) : (entryAt t n).wb ≠ none := by
  have hwb1 : (entryAt s1 n).wb ≠ none := by
    have hw := h.writesBack
    rcases writeBack_cases s with ⟨hq', -⟩ | ⟨w', st, v, hq', hst, -, hw'⟩ | ⟨w', -, -, hw'⟩
    · cases hq'.symm.trans hq
    · cases hq'.symm.trans hq
      cases hw'.symm.trans hw
      have hat : stationAt s w = st := by simp [stationAt, hst]
      rw [(midCycle_of_coherent hco hrun).entryAt_winner (hat ▸ hin) v]
      simp
    · cases hw'.symm.trans hw
  obtain ⟨-, hwb, -⟩ := h.entryAt_frame (midCycle_of_cycleCommits hco hrun h) n
  rwa [hwb, (h.issues.entryAt_complete_wb n).2]

include hco hrst hs in
/-- An instruction keeps its station, so what is left of its count can be read there, unless it has written back. -/
theorem remaining_next {u n : Nat} {i : Instr} (hin : InFlight s u (stationAt s u) n i)
    (hwb : (entryAt t n).wb = none) :
    remaining t n = (stationAt t u).lat.toNat - (stationAt t u).elapsed.toNat + 1 :=
  remaining_of_station hwb (((kept_step hco hrst hs n).station (by simp [hin.station])).trans hin.station)

include hco hrst hrun hs h in
theorem CycleCommits.remaining_le (n : Nat) : remaining t n ≤ remaining s n := by
  obtain ⟨hcfg, hprog, -⟩ := sameLoad_step hrst hs
  by_cases hwb : (entryAt t n).wb = none
  swap
  · rw [remaining_of_wb hwb]
    exact Nat.zero_le _
  have hwb0 : (entryAt s n).wb = none := by
    by_contra hset
    exact hset (((kept_step hco hrst hs n).wb hset).symm.trans hwb)
  by_cases hn : n < s.cursor
  · obtain ⟨u, i, hin⟩ := inFlight_of_wb_none hco hn hwb0
    have hq : s.cdbQ ≠ some u := fun hq => h.wb_of_winner hco hrun hq hin hwb
    have hb : (stationAt s u).busy = true := by
      by_contra hb
      have hinst := hin.inst
      rw [(midCycle_of_coherent hco hrun).free_station u (by simpa using hb)] at hinst
      cases hinst
    obtain ⟨hlat, hle⟩ := h.count_le hb hq hin.elapsed_le
    rw [remaining_next hco hrst hs hin hwb, remaining_of_station hwb0 hin.station, hlat]
    omega
  · rw [remaining_of_waiting (hco.waiting_entry n (Nat.le_of_not_lt hn)), ← hcfg, ← hprog]
    exact remaining_le_latency (coherenceIsKept s t hco hs) n

include hco hrst hrun hs h in
/-- With an instruction in flight, the winner's charge falls to 0, or that of a ready instruction falls by one. -/
theorem CycleCommits.exists_remaining_lt (hcur : 0 < s.cursor) :
    ∃ n, n < s.cursor ∧ remaining t n < remaining s n := by
  cases hq : s.cdbQ with
  | some w =>
    obtain ⟨n, i, hin, -⟩ := winner_of_coherent hco hq
    refine ⟨n, hin.issued, ?_⟩
    rw [remaining_of_wb (h.wb_of_winner hco hrun hq hin)]
    exact remaining_pos hin.wb
  | none =>
    obtain ⟨u, -, hb⟩ := hco.in_flight hrun hcur
    obtain ⟨n, i, hin⟩ := inFlight_of_coherent hco hb
    obtain ⟨v, hr⟩ := exists_ready hco n hb hin
    obtain ⟨hvb, -, -⟩ := (ready_iff _).mp hr
    obtain ⟨m, i', hin'⟩ := inFlight_of_coherent hco hvb
    refine ⟨m, hin'.issued, ?_⟩
    have hq' : s.cdbQ ≠ some v := by simp [hq]
    have hcount : (stationAt s v).elapsed.toNat < (stationAt s v).lat.toNat := by
      have hnone := (arbitrate_eq_none s.stations).mp (hco.latch.symm.trans hq) v (lt_length_of_busy hvb)
      have hne : (stationAt s v).elapsed ≠ (stationAt s v).lat := (isComplete_eq_false_iff _).mp hnone hvb
      exact lt_of_le_of_ne hin'.elapsed_le fun he => hne (BitVec.eq_of_toNat_eq he)
    have hat : stationAt t v = (stationAt s v).tick := by
      rw [h.stationAt_eq, if_pos ((eligible_iff_ready ..).mpr ⟨hr, hq'⟩)]
    by_cases hwb : (entryAt t m).wb = none
    · rw [remaining_next hco hrst hs hin' hwb, remaining_of_station hin'.wb hin'.station, hat, tick_lat, tick_elapsed]
      omega
    · rw [remaining_of_wb hwb]
      exact remaining_pos hin'.wb

include hco hrun h in
/-- The first cycle issues: every station is free, and there is an instruction. -/
theorem CycleCommits.cursor_of_first (hcur : s.cursor = 0) : 0 < t.cursor := by
  obtain ⟨hw, hi, hnext⟩ := id h
  obtain ⟨hcur1, hcfg1, -⟩ := writeBack_frame hw
  have hm1 := midCycle_writeBack hco hrun hw
  have ht : t.cursor = s2.cursor := by rw [hnext]; rfl
  rw [ht]
  cases hi with
  | exhausted hle =>
    obtain ⟨n, hn, -⟩ := exists_unfinished (hco.unfinished hrun)
    rw [hco.table_length, ← hcfg1] at hn
    omega
  | stalled i _ hall =>
    obtain ⟨u, hu, hclass⟩ := exists_station_of_class (legalConfig_of_validate hm1.validated) i.op.unit
    obtain ⟨n, i', hin⟩ := hm1.busy_station u (hall u (hm1.stations_length ▸ hu) hclass)
    have hlt := hin.issued
    omega
  | issued => exact Nat.succ_pos _

include h in
theorem CycleCommits.cursor_le : s.cursor ≤ t.cursor := by
  obtain ⟨hw, hi, hnext⟩ := id h
  obtain ⟨hcur, -⟩ := writeBack_frame hw
  have ht : t.cursor = s2.cursor := by rw [hnext]; rfl
  rw [ht, ← hcur]
  cases hi with
  | exhausted => exact le_rfl
  | stalled => exact le_rfl
  | issued => exact Nat.le_succ _

include hco hrst hrun hs h in
theorem CycleCommits.workLeft_lt : workLeft t < workLeft s := by
  obtain ⟨hcfg, -⟩ := sameLoad_step hrst hs
  have hle : ∀ n ∈ List.range s.cfg.progLen.toNat, remaining t n ≤ remaining s n :=
    fun n _ => h.remaining_le hco hrst hrun hs n
  unfold workLeft
  rw [hcfg]
  by_cases hcur : s.cursor = 0
  · rw [if_pos hcur, if_neg (h.cursor_of_first hco hrun hcur).ne']
    have hsum := List.sum_le_sum hle
    omega
  · obtain ⟨n, hn, hlt⟩ := h.exists_remaining_lt hco hrst hrun hs (Nat.pos_of_ne_zero hcur)
    have hsum := List.sum_lt_sum _ _ hle ⟨n, List.mem_range.mpr (hn.trans_le hco.cursor_le), hlt⟩
    have hcur' : t.cursor ≠ 0 := (Nat.pos_of_ne_zero hcur).trans_le h.cursor_le |>.ne'
    rw [if_neg hcur, if_neg hcur']
    omega

end

/-- Settles O57: a cycle that is not discarded lowers the charges, or moves the cursor off 0. -/
theorem everyCycleMakesProgress : Obligations.EveryCycleMakesProgress := by
  intro s t hco hrst hrun hs
  rcases step_commits hrst hrun hs with ⟨e, rfl⟩ | ⟨s1, s2, h⟩
  · exact .inl ⟨e, rfl⟩
  · exact .inr (h.workLeft_lt hco hrst hrun hs)

/-! ### Every run ends (R134) -/

theorem workLeft_pos {s : State} (hco : Coherent s) (hrun : s.run = .run) : 1 ≤ workLeft s := by
  obtain ⟨n, hn, hwb⟩ := exists_unfinished (hco.unfinished hrun)
  rw [hco.table_length] at hn
  have hmem : remaining s n ∈ (List.range s.cfg.progLen.toNat).map (remaining s) :=
    List.mem_map_of_mem (List.mem_range.mpr hn)
  exact ((remaining_pos hwb).trans (List.le_sum_of_mem hmem)).trans (Nat.le_add_left _ _)

theorem core_run_succ {s t : State} (k : Nat) (h : step s = .next t) :
    Host.Core.run core (k + 1) s = Host.Core.run core k t := by
  have h : core.step s = .next t := h
  simp only [Host.Core.run, h]

/-- From a coherent state the engine leaves RUN within as many cycles as it has work left. -/
theorem run_ends_within {b : Nat} : ∀ {s : State}, Coherent s → s.pins.rst = false → workLeft s ≤ b →
    ∃ k t, k ≤ b ∧ Host.Core.run core k s = .next t ∧ t.run ≠ .run := by
  induction b with
  | zero =>
    intro s hco _ hb
    refine ⟨0, s, le_rfl, rfl, fun hrun => ?_⟩
    have hpos := workLeft_pos hco hrun
    omega
  | succ b ih =>
    intro s hco hrst hb
    by_cases hrun : s.run = .run
    · obtain ⟨t, hs⟩ := Scope.everyStepHasANextState s
      rcases everyCycleMakesProgress s t hco hrst hrun hs with ⟨e, he⟩ | hlt
      · exact ⟨1, t, Nat.succ_le_succ (Nat.zero_le b), core_run_succ 0 hs, by simp [he]⟩
      · obtain ⟨-, -, hpins⟩ := sameLoad_step hrst hs
        obtain ⟨k, t', hk, hkt, ht'⟩ := ih (coherenceIsKept s t hco hs) (hpins ▸ hrst) (by omega)
        exact ⟨k + 1, t', Nat.succ_le_succ hk, (core_run_succ k hs).trans hkt, ht'⟩
    · exact ⟨0, s, Nat.zero_le _, rfl, hrun⟩

/-- At reset every instruction waits, and the first issue is still to come. -/
theorem workLeft_init (cfg : Params) (prog : ProgStore) (pins : Pins) :
    workLeft (State.init cfg prog pins) = cycleBound cfg prog := by
  have hrem : ∀ n, remaining (State.init cfg prog pins) n = latencyAt cfg prog n + 1 :=
    fun n => remaining_of_waiting (entryAt_init cfg prog pins n)
  simp [workLeft, cycleBound, funext hrem]

/-- Settles O58: reset leaves the work that the bound counts. -/
theorem everyRunEndsWithinTheBound : Obligations.EveryRunEndsWithinTheBound := fun cfg prog pins hrst _ =>
  run_ends_within (coherent_init cfg prog pins) hrst (workLeft_init cfg prog pins).le

/-! ### The empty program (R129) -/

theorem validate_of_empty {cfg : Params} (prog : ProgStore) (h : LegalConfig cfg) (hn : cfg.progLen.toNat = 0) :
    validate cfg prog = .done := by
  simp [validate, (firstConfigError_eq_none_iff cfg).mpr h, firstIllegal, hn]

/-- Settles O10: validation answers DONE, where a clock edge changes nothing. -/
theorem emptyProgramIsDoneAtReset : Obligations.EmptyProgramIsDoneAtReset := by
  intro cfg prog pins hlegal hn hrst
  have hdone : (State.init cfg prog pins).run = .done := validate_of_empty prog hlegal hn
  exact ⟨hdone, rfl, step_of_quiet hrst fun hrun => by cases hdone.symm.trans hrun⟩

end Sys2Proof.EngineCycle
end

