-- ==== Sys2Proof/Proofs/Rounding.lean ====
section
/-! PROOFS. Rounding is to the nearest magnitude, ties to even (spec 41_arithmetic.md R140). A magnitude
`k * 2^fracBits + m` stands for `m * 2^k` units, so units rise strictly with magnitudes, two neighbours bracket the exact
value, and the nearest of all magnitudes is one of the two. -/

namespace Sys2Proof.Arithmetic

open Sys2Proof.Machine
open Sys2Proof.Safety

/-! ### Units rise with magnitudes -/

/-- `m` is a significand at exponent `k`: a full one, or any below a full one at the lowest exponent. -/
def IsSignificand (fmt : Fmt) (k m : Nat) : Prop :=
  m < 2 * 2 ^ fracBits fmt ∧ (k = 0 ∨ 2 ^ fracBits fmt ≤ m)

theorem exists_significand (fmt : Fmt) (mag : Nat) :
    ∃ k m, IsSignificand fmt k m ∧ mag = k * 2 ^ fracBits fmt + m := by
  have hF : 0 < 2 ^ fracBits fmt := Nat.two_pow_pos _
  have hdm := Nat.div_add_mod' mag (2 ^ fracBits fmt)
  have hlt := Nat.mod_lt mag hF
  unfold IsSignificand
  cases he : mag / 2 ^ fracBits fmt with
  | zero => exact ⟨0, mag, by simp_all; omega⟩
  | succ k =>
    rw [he, Nat.succ_mul] at hdm
    exact ⟨k, 2 ^ fracBits fmt + mag % 2 ^ fracBits fmt, by omega, by omega⟩

variable {fmt : Fmt} {num den : Nat}

theorem magUnits_of_subnormal {m : Nat} (h : m < 2 ^ fracBits fmt) : magUnits fmt m = m := by
  simp [magUnits, Nat.div_eq_of_lt h, Nat.mod_eq_of_lt h]

theorem magUnits_of_normal (k : Nat) {f : Nat} (h : f < 2 ^ fracBits fmt) :
    magUnits fmt ((k + 1) * 2 ^ fracBits fmt + f) = (2 ^ fracBits fmt + f) * 2 ^ k := by
  have hF : 0 < 2 ^ fracBits fmt := Nat.two_pow_pos _
  have he : ((k + 1) * 2 ^ fracBits fmt + f) / 2 ^ fracBits fmt = k + 1 := by
    rw [Nat.mul_comm, Nat.mul_add_div hF, Nat.div_eq_of_lt h, Nat.add_zero]
  have hf : ((k + 1) * 2 ^ fracBits fmt + f) % 2 ^ fracBits fmt = f := by
    rw [Nat.mul_comm, Nat.mul_add_mod, Nat.mod_eq_of_lt h]
  simp [magUnits, he, hf]

theorem magUnits_significand {k m : Nat} (h : IsSignificand fmt k m) :
    magUnits fmt (k * 2 ^ fracBits fmt + m) = m * 2 ^ k := by
  obtain ⟨hlt, hfull⟩ := h
  by_cases hm : m < 2 ^ fracBits fmt
  · obtain rfl : k = 0 := by omega
    simpa using magUnits_of_subnormal hm
  · obtain ⟨f, rfl⟩ := Nat.exists_eq_add_of_le (Nat.le_of_not_lt hm)
    rw [← Nat.add_assoc, ← Nat.succ_mul]
    exact magUnits_of_normal k (by omega)

/-- One more in the significand is the next magnitude, also where the significand carries into the next binade. -/
theorem magUnits_significand_succ {k m : Nat} (h : IsSignificand fmt k m) :
    magUnits fmt (k * 2 ^ fracBits fmt + m + 1) = (m + 1) * 2 ^ k := by
  obtain ⟨hlt, hfull⟩ := h
  by_cases hm : m + 1 < 2 * 2 ^ fracBits fmt
  · exact magUnits_significand ⟨hm, hfull.imp id fun h => by omega⟩
  · have hcarry : m + 1 = 2 * 2 ^ fracBits fmt := by omega
    have hnext := magUnits_of_normal (k + 1) (Nat.two_pow_pos (fracBits fmt))
    rw [Nat.add_assoc, hcarry, ← Nat.add_mul]
    calc magUnits fmt ((k + 2) * 2 ^ fracBits fmt) = 2 ^ fracBits fmt * 2 ^ (k + 1) := hnext
      _ = 2 * 2 ^ fracBits fmt * 2 ^ k := by ring

theorem magUnits_strictMono (fmt : Fmt) : StrictMono (magUnits fmt) := by
  refine strictMono_nat_of_lt_succ fun mag => ?_
  obtain ⟨k, m, hs, rfl⟩ := exists_significand fmt mag
  rw [magUnits_significand hs, magUnits_significand_succ hs]
  exact Nat.mul_lt_mul_of_pos_right (Nat.lt_succ_self m) (Nat.two_pow_pos k)

@[simp] theorem magUnits_zero (fmt : Fmt) : magUnits fmt 0 = 0 :=
  magUnits_of_subnormal (Nat.two_pow_pos _)

theorem magUnits_eq_zero_iff {mag : Nat} : magUnits fmt mag = 0 ↔ mag = 0 := by
  simpa using (magUnits_strictMono fmt).injective.eq_iff (a := mag) (b := 0)

/-! ### Distances from the exact value -/

theorem roundingError_of_le {m : Nat} (h : magUnits fmt m * den ≤ num) :
    roundingError fmt num den m = num - magUnits fmt m * den := by
  simp only [roundingError, Int.ofNat_eq_natCast]
  omega

theorem roundingError_of_ge {m : Nat} (h : num ≤ magUnits fmt m * den) :
    roundingError fmt num den m = magUnits fmt m * den - num := by
  simp only [roundingError, Int.ofNat_eq_natCast]
  omega

theorem roundingError_lt_of_below (hden : 0 < den) {m m' : Nat} (hlt : m' < m) (h : magUnits fmt m * den ≤ num) :
    roundingError fmt num den m < roundingError fmt num den m' := by
  have hu := Nat.mul_lt_mul_of_pos_right (magUnits_strictMono fmt hlt) hden
  rw [roundingError_of_le h, roundingError_of_le (hu.le.trans h)]
  omega

theorem roundingError_lt_of_above (hden : 0 < den) {m m' : Nat} (hlt : m < m') (h : num ≤ magUnits fmt m * den) :
    roundingError fmt num den m < roundingError fmt num den m' := by
  have hu := Nat.mul_lt_mul_of_pos_right (magUnits_strictMono fmt hlt) hden
  rw [roundingError_of_ge h, roundingError_of_ge (h.trans hu.le)]
  omega

/-- `m` is at least as near to the exact value as `m'`, and the even one where they are equally near. -/
def Beats (fmt : Fmt) (num den m m' : Nat) : Prop :=
  roundingError fmt num den m ≤ roundingError fmt num den m' ∧
    (roundingError fmt num den m = roundingError fmt num den m' → m ≠ m' → m % 2 = 0)

theorem beats_of_lt {m m' : Nat} (h : roundingError fmt num den m < roundingError fmt num den m') :
    Beats fmt num den m m' :=
  ⟨h.le, fun he => absurd he h.ne⟩

/-- Of all magnitudes only the two that bracket the exact value can be nearest to it. -/
theorem beats_of_bracket (hden : 0 < den) {lo m : Nat} (hlo : magUnits fmt lo * den ≤ num)
    (hhi : num ≤ magUnits fmt (lo + 1) * den) (h : Beats fmt num den m lo) (h' : Beats fmt num den m (lo + 1))
    (m' : Nat) : Beats fmt num den m m' := by
  rcases Nat.lt_trichotomy m' lo with hlt | rfl | hgt
  · exact beats_of_lt (h.1.trans_lt (roundingError_lt_of_below hden hlt hlo))
  · exact h
  · rcases Nat.eq_or_lt_of_le (Nat.succ_le_of_lt hgt) with rfl | hlt
    · exact h'
    · exact beats_of_lt (h'.1.trans_lt (roundingError_lt_of_above hden hlt hhi))

/-! ### The rounded magnitude -/

/-- The exponent that `roundMag` chooses for a quotient whose whole part is `n`. -/
def roundExp (fmt : Fmt) (n : Nat) : Nat := Nat.log2 n - fracBits fmt

theorem isSignificand_roundExp (fmt : Fmt) (n : Nat) :
    IsSignificand fmt (roundExp fmt n) (n / 2 ^ roundExp fmt n) := by
  have hn : n < 2 ^ (Nat.log2 n + 1) := Nat.lt_log2_self
  have hF : 2 * 2 ^ fracBits fmt = 2 ^ (fracBits fmt + 1) := by ring
  unfold IsSignificand roundExp
  rw [hF, Nat.div_lt_iff_lt_mul (Nat.two_pow_pos _), Nat.le_div_iff_mul_le (Nat.two_pow_pos _), ← pow_add,
    ← pow_add]
  refine ⟨hn.trans_le (Nat.pow_le_pow_right two_pos (by omega)), ?_⟩
  by_cases hk : Nat.log2 n ≤ fracBits fmt
  · exact .inl (by omega)
  · refine .inr ((Nat.pow_le_pow_right two_pos (by omega)).trans (Nat.log2_self_le (n := n) ?_))
    rintro rfl
    simp at hk

/-- The units between two magnitudes around `num / den`, times `den`. -/
def roundStep (fmt : Fmt) (num den : Nat) : Nat := den * 2 ^ roundExp fmt (num / den)

/-- The largest magnitude that does not exceed `num / den`, were there no infinity. -/
def lowerMag (fmt : Fmt) (num den : Nat) : Nat :=
  roundExp fmt (num / den) * 2 ^ fracBits fmt + num / roundStep fmt num den

/-- The magnitude that `roundMag` chooses, were there no infinity. -/
def nearestMag (fmt : Fmt) (num den : Nat) : Nat :=
  roundExp fmt (num / den) * 2 ^ fracBits fmt + divNearestEven num (roundStep fmt num den)

theorem roundMag_eq_min (fmt : Fmt) (num den : Nat) :
    roundMag fmt num den = min (nearestMag fmt num den) (infMag fmt) := rfl

theorem isSignificand_lowerMag (fmt : Fmt) (num den : Nat) :
    IsSignificand fmt (roundExp fmt (num / den)) (num / roundStep fmt num den) := by
  rw [roundStep, ← Nat.div_div_eq_div_mul]
  exact isSignificand_roundExp fmt (num / den)

theorem magUnits_lowerMag (fmt : Fmt) (num den : Nat) :
    magUnits fmt (lowerMag fmt num den) * den = num / roundStep fmt num den * roundStep fmt num den := by
  rw [lowerMag, magUnits_significand (isSignificand_lowerMag fmt num den), roundStep]
  ring

theorem magUnits_lowerMag_succ (fmt : Fmt) (num den : Nat) :
    magUnits fmt (lowerMag fmt num den + 1) * den = (num / roundStep fmt num den + 1) * roundStep fmt num den := by
  rw [lowerMag, magUnits_significand_succ (isSignificand_lowerMag fmt num den), roundStep]
  ring

theorem magUnits_lowerMag_le (fmt : Fmt) (num den : Nat) : magUnits fmt (lowerMag fmt num den) * den ≤ num :=
  (magUnits_lowerMag fmt num den).trans_le (Nat.div_mul_le_self _ _)

theorem le_magUnits_lowerMag_succ (fmt : Fmt) (num : Nat) {den : Nat} (hden : 0 < den) :
    num ≤ magUnits fmt (lowerMag fmt num den + 1) * den := by
  rw [magUnits_lowerMag_succ, Nat.mul_comm]
  exact (Nat.lt_mul_div_succ num (Nat.mul_pos hden (Nat.two_pow_pos _))).le

/-- The distances of the two neighbours: the remainder, and what it lacks of a whole step. -/
theorem roundingError_lowerMag (fmt : Fmt) (num den : Nat) :
    roundingError fmt num den (lowerMag fmt num den) = num % roundStep fmt num den := by
  have hdm := Nat.div_add_mod' num (roundStep fmt num den)
  rw [roundingError_of_le (magUnits_lowerMag_le fmt num den), magUnits_lowerMag]
  omega

theorem roundingError_lowerMag_succ (fmt : Fmt) (num : Nat) {den : Nat} (hden : 0 < den) :
    roundingError fmt num den (lowerMag fmt num den + 1) = roundStep fmt num den - num % roundStep fmt num den := by
  have hdm := Nat.div_add_mod' num (roundStep fmt num den)
  rw [roundingError_of_ge (le_magUnits_lowerMag_succ fmt num hden), magUnits_lowerMag_succ, Nat.succ_mul]
  omega

theorem lowerMag_mod_two (fmt : Fmt) (num den : Nat) :
    lowerMag fmt num den % 2 = num / roundStep fmt num den % 2 := by
  have hF : 2 ∣ roundExp fmt (num / den) * 2 ^ fracBits fmt :=
    Dvd.dvd.mul_left (dvd_pow_self 2 (by cases fmt <;> simp [fracBits])) _
  rw [lowerMag]
  omega

/-- The remainder decides: up beyond half a step, down below it, and at exactly half to the even one of the two. -/
theorem nearestMag_cases (fmt : Fmt) (num den : Nat) :
    (roundStep fmt num den ≤ 2 * (num % roundStep fmt num den) ∧
      (2 * (num % roundStep fmt num den) = roundStep fmt num den → lowerMag fmt num den % 2 = 1) ∧
      nearestMag fmt num den = lowerMag fmt num den + 1) ∨
    (2 * (num % roundStep fmt num den) ≤ roundStep fmt num den ∧
      (2 * (num % roundStep fmt num den) = roundStep fmt num den → lowerMag fmt num den % 2 = 0) ∧
      nearestMag fmt num den = lowerMag fmt num den) := by
  rw [lowerMag_mod_two, nearestMag, divNearestEven, lowerMag]
  split_ifs <;> omega

theorem beats_nearestMag (hden : 0 < den) (m' : Nat) : Beats fmt num den (nearestMag fmt num den) m' := by
  have hlo := roundingError_lowerMag fmt num den
  have hhi := roundingError_lowerMag_succ fmt num hden
  have hlt : num % roundStep fmt num den < roundStep fmt num den :=
    Nat.mod_lt _ (Nat.mul_pos hden (Nat.two_pow_pos _))
  refine beats_of_bracket hden (magUnits_lowerMag_le fmt num den) (le_magUnits_lowerMag_succ fmt num hden) ?_ ?_ m' <;>
    rcases nearestMag_cases fmt num den with ⟨hr, htie, h⟩ | ⟨hr, htie, h⟩ <;>
    simp only [Beats, h, hlo, hhi] <;> omega

/-- Settles O42: the nearest of all magnitudes is the nearest of the format's as well; where it lies beyond infinity,
every magnitude of the format is below the exact value, and infinity is the nearest. -/
theorem roundingIsToNearestEven : Obligations.RoundingIsToNearestEven := by
  intro fmt num den hden
  rw [roundMag_eq_min]
  refine ⟨Nat.min_le_right _ _, fun m' hm' => ?_⟩
  rcases le_or_gt (nearestMag fmt num den) (infMag fmt) with hle | hgt
  · rw [Nat.min_eq_left hle]
    exact beats_nearestMag hden m'
  · rw [Nat.min_eq_right hgt.le]
    have hlo : infMag fmt ≤ lowerMag fmt num den := by
      rcases nearestMag_cases fmt num den with ⟨-, -, h⟩ | ⟨-, -, h⟩ <;> omega
    have hinf : magUnits fmt (infMag fmt) * den ≤ num :=
      (Nat.mul_le_mul_right den ((magUnits_strictMono fmt).monotone hlo)).trans (magUnits_lowerMag_le fmt num den)
    rcases Nat.eq_or_lt_of_le hm' with rfl | hlt
    · exact ⟨le_rfl, fun _ hne => absurd rfl hne⟩
    · exact beats_of_lt (roundingError_lt_of_below hden hlt hinf)

end Sys2Proof.Arithmetic
end

