-- ==== Sys2Proof/Proofs/Arithmetic.lean ====
section
/-! PROOFS. ADD, SUB, MUL and DIV (spec 41_arithmetic.md R140 to R146): how they issue, and what `fadd`, `fsub`, `fmul`
and `fdiv` give for finite operands, zeros, infinities and NaNs. -/

namespace Sys2Proof.Arithmetic

open Sys2Proof.Machine
open Sys2Proof.Safety
open Sys2Proof.Laws

/-! ### Issue (R105, R107, R108) -/

theorem firstUnknown_eq_none_iff {nregs : Nat} {fields : List (RegField × RegIdx)} :
    firstUnknown nregs fields = none ↔ ∀ f ∈ fields, f.2.toNat < nregs := by
  simp [firstUnknown, List.find?_eq_none]

/-- With a free station and declared registers an instruction issues, whichever of the six it is. -/
theorem exec_of_firstFree {i : Instr} {s : State} {t : Nat} (hfree : FirstFree s i.op.unit t)
    (hregs : ∀ f ∈ usedFields i, f.2.toNat < s.cfg.nregs.toNat) :
    exec i s = .next (issuedState i (operandJ s.regs i) (operandK s.regs i) t s) := by
  rw [exec_eq_issueInto, issueInto, (EngineCycle.allocate_eq_some_iff ..).mpr hfree]
  simp only [firstUnknown_eq_none_iff.mpr hregs]
  rfl

/-- Settles O25: the four instructions use the same three fields, and their sources are their operands. -/
theorem arithmeticIssues : Obligations.ArithmeticIssues := by
  intro s t rd rs1 rs2 hrd hrs1 hrs2
  have hregs : ∀ f ∈ fieldsR rd rs1 rs2, f.2.toNat < s.cfg.nregs.toNat := by simp [fieldsR, hrd, hrs1, hrs2]
  exact ⟨fun hfree => ⟨exec_of_firstFree (i := .add rd rs1 rs2) hfree hregs,
      exec_of_firstFree (i := .sub rd rs1 rs2) hfree hregs⟩,
    fun hfree => ⟨exec_of_firstFree (i := .mul rd rs1 rs2) hfree hregs,
      exec_of_firstFree (i := .div rd rs1 rs2) hfree hregs⟩⟩

/-! ### Patterns by sign and magnitude -/

variable {fmt : Fmt}

theorem infMag_succ_lt (fmt : Fmt) : infMag fmt + 1 < 2 ^ (fmt.flen - 1) := by
  cases fmt <;> decide

theorem magOf_packFp (neg : Bool) {m : Nat} (h : m < 2 ^ (fmt.flen - 1)) : magOf fmt (packFp fmt neg m) = m := by
  rw [magOf, packFp, BitVec.toNat_ofNat]
  cases fmt <;> cases neg <;> simp [Fmt.flen] at h ⊢ <;> omega

theorem isNeg_packFp (neg : Bool) {m : Nat} (h : m < 2 ^ (fmt.flen - 1)) : isNeg fmt (packFp fmt neg m) = neg := by
  rw [isNeg, packFp, BitVec.toNat_ofNat, Nat.testBit_eq_decide_div_mod_eq]
  cases fmt <;> cases neg <;> simp [Fmt.flen] at h ⊢ <;> omega

theorem magOf_lt (fmt : Fmt) (w : Word) : magOf fmt w < 2 ^ (fmt.flen - 1) := Nat.mod_lt _ (Nat.two_pow_pos _)

theorem isNaN_packFp (neg : Bool) {m : Nat} (h : m ≤ infMag fmt) : isNaN fmt (packFp fmt neg m) = false := by
  have hinf := infMag_succ_lt fmt
  rw [isNaN, magOf_packFp neg (by omega)]
  simpa using h

@[simp] theorem magOf_negFp (w : Word) : magOf fmt (negFp fmt w) = magOf fmt w := magOf_packFp _ (magOf_lt fmt w)

@[simp] theorem isNeg_negFp (w : Word) : isNeg fmt (negFp fmt w) = !isNeg fmt w := isNeg_packFp _ (magOf_lt fmt w)

@[simp] theorem isNaN_negFp (w : Word) : isNaN fmt (negFp fmt w) = isNaN fmt w := by simp [isNaN]

@[simp] theorem isInf_negFp (w : Word) : isInf fmt (negFp fmt w) = isInf fmt w := by simp [isInf]

theorem finiteFp_negFp {w : Word} (h : FiniteFp fmt w) : FiniteFp fmt (negFp fmt w) := by
  rw [FiniteFp, magOf_negFp]
  exact h

@[simp] theorem valueUnits_negFp (w : Word) : valueUnits fmt (negFp fmt w) = -valueUnits fmt w := by
  cases h : isNeg fmt w <;> simp [valueUnits, h]

@[simp] theorem natAbs_valueUnits (w : Word) : (valueUnits fmt w).natAbs = magUnits fmt (magOf fmt w) := by
  cases h : isNeg fmt w <;> simp [valueUnits, h]

/-! ### A pattern is finite, an infinity or a NaN -/

theorem isNaN_of_finite {w : Word} (h : FiniteFp fmt w) : isNaN fmt w = false := by
  simpa [isNaN] using Nat.le_of_lt h

theorem isInf_of_finite {w : Word} (h : FiniteFp fmt w) : isInf fmt w = false := by
  simpa [isInf] using Nat.ne_of_lt h

theorem isZero_of_isInf {w : Word} (h : isInf fmt w = true) : isZero fmt w = false := by
  have hinf : infMag fmt ≠ 0 := by cases fmt <;> decide
  simp_all [isInf, isZero]

theorem isZero_eq_false_of_value {w : Word} (h : valueUnits fmt w ≠ 0) : isZero fmt w = false := by
  rw [← Int.natAbs_ne_zero, natAbs_valueUnits] at h
  simpa [isZero, magUnits_eq_zero_iff] using h

/-! ### An operation that is defined gives its result -/

theorem fadd_of_some {a b r : Word} (h : ieeeAdd fmt a b = some r) : fadd fmt a b = r := by
  rw [fadd, h, Option.getD_some]

theorem fsub_of_some {a b r : Word} (h : ieeeSub fmt a b = some r) : fsub fmt a b = r := by
  rw [fsub, h, Option.getD_some]

theorem fmul_of_some {a b r : Word} (h : ieeeMul fmt a b = some r) : fmul fmt a b = r := by
  rw [fmul, h, Option.getD_some]

theorem fdiv_of_some {a b r : Word} (h : ieeeDiv fmt a b = some r) : fdiv fmt a b = r := by
  rw [fdiv, h, Option.getD_some]

/-! ### Finite operands (R140, R143 to R146) -/

section Finite

variable {a b : Word} (ha : FiniteFp fmt a) (hb : FiniteFp fmt b)

include ha hb

theorem ieeeAdd_of_finite : ieeeAdd fmt a b =
    if valueUnits fmt a + valueUnits fmt b = 0 then some (packFp fmt (isNeg fmt a && isNeg fmt b) 0)
    else some (packFp fmt (decide (valueUnits fmt a + valueUnits fmt b < 0))
      (roundMag fmt (valueUnits fmt a + valueUnits fmt b).natAbs 1)) := by
  simp [ieeeAdd, isNaN_of_finite, isInf_of_finite, ha, hb]

theorem ieeeSub_of_finite : ieeeSub fmt a b =
    if valueUnits fmt a - valueUnits fmt b = 0 then some (packFp fmt (isNeg fmt a && !isNeg fmt b) 0)
    else some (packFp fmt (decide (valueUnits fmt a - valueUnits fmt b < 0))
      (roundMag fmt (valueUnits fmt a - valueUnits fmt b).natAbs 1)) := by
  simpa [ieeeSub, ← Int.sub_eq_add_neg] using ieeeAdd_of_finite ha (finiteFp_negFp hb)

theorem fadd_of_zero_sum (hz : valueUnits fmt a + valueUnits fmt b = 0) :
    fadd fmt a b = packFp fmt (isNeg fmt a && isNeg fmt b) 0 :=
  fadd_of_some ((ieeeAdd_of_finite ha hb).trans (if_pos hz))

theorem fsub_of_zero_difference (hz : valueUnits fmt a - valueUnits fmt b = 0) :
    fsub fmt a b = packFp fmt (isNeg fmt a && !isNeg fmt b) 0 :=
  fsub_of_some ((ieeeSub_of_finite ha hb).trans (if_pos hz))

theorem fmul_of_finite : fmul fmt a b = packFp fmt (isNeg fmt a != isNeg fmt b)
    (roundMag fmt ((valueUnits fmt a).natAbs * (valueUnits fmt b).natAbs) (2 ^ oneExp fmt)) :=
  fmul_of_some (by simp [ieeeMul, isNaN_of_finite, isInf_of_finite, ha, hb])

theorem fdiv_of_finite (hz : valueUnits fmt b ≠ 0) : fdiv fmt a b = packFp fmt (isNeg fmt a != isNeg fmt b)
    (roundMag fmt ((valueUnits fmt a).natAbs * 2 ^ oneExp fmt) (valueUnits fmt b).natAbs) :=
  fdiv_of_some (by simp [ieeeDiv, isNaN_of_finite, isInf_of_finite, isZero_eq_false_of_value hz, ha, hb])

end Finite

theorem roundsTo_roundMag (fmt : Fmt) (neg : Bool) (num : Nat) {den : Nat} (hden : 0 < den) :
    RoundsTo fmt neg num den (packFp fmt neg (roundMag fmt num den)) :=
  ⟨_, roundingIsToNearestEven fmt num den hden, rfl⟩

/-- Settles O43: of finite operands only an exact zero sum is not rounded. -/
theorem sumIsExactThenRounded : Obligations.SumIsExactThenRounded := by
  intro fmt a b ha hb hz
  rw [fadd_of_some ((ieeeAdd_of_finite ha hb).trans (if_neg hz))]
  exact roundsTo_roundMag fmt _ _ one_pos

/-- Settles O44: a difference is the sum with the second operand's sign flipped. -/
theorem differenceIsExactThenRounded : Obligations.DifferenceIsExactThenRounded := by
  intro fmt a b ha hb hz
  rw [fsub_of_some ((ieeeSub_of_finite ha hb).trans (if_neg hz))]
  exact roundsTo_roundMag fmt _ _ one_pos

/-- Settles O45: a product of units is scaled by the units in 1.0. -/
theorem productIsExactThenRounded : Obligations.ProductIsExactThenRounded := by
  intro fmt a b ha hb
  rw [fmul_of_finite ha hb]
  exact roundsTo_roundMag fmt _ _ (Nat.two_pow_pos _)

/-- Settles O46: the divisor's units are not zero. -/
theorem quotientIsExactThenRounded : Obligations.QuotientIsExactThenRounded := by
  intro fmt a b ha hb hz
  rw [fdiv_of_finite ha hb hz]
  exact roundsTo_roundMag fmt _ _ (Int.natAbs_pos.mpr hz)

/-- Settles O47: `x - x` is an exact zero difference of equal signs. -/
theorem zeroSumsAndTheirSign : Obligations.ZeroSumsAndTheirSign := by
  intro fmt a b ha hb
  refine ⟨fadd_of_zero_sum ha hb, fsub_of_zero_difference ha hb, ?_⟩
  simpa using fsub_of_zero_difference ha ha (Int.sub_self _)

/-! ### Infinities and zero divisors (R140, R143 to R146) -/

section Infinite

variable {a b : Word} (ha : isNaN fmt a = false) (hb : isNaN fmt b = false)

include ha hb

/-- An infinity stays under addition unless the other operand is the opposite infinity. -/
theorem ieeeAdd_of_isInf_left (hi : isInf fmt a = true) (h : isInf fmt b = true → isNeg fmt a = isNeg fmt b) :
    ieeeAdd fmt a b = some (packFp fmt (isNeg fmt a) (infMag fmt)) := by
  cases hj : isInf fmt b <;> simp_all [ieeeAdd]

theorem ieeeAdd_of_isInf_right (hi : isInf fmt a = false) (hj : isInf fmt b = true) :
    ieeeAdd fmt a b = some (packFp fmt (isNeg fmt b) (infMag fmt)) := by
  simp [ieeeAdd, ha, hb, hi, hj]

theorem ieeeSub_of_isInf_left (hi : isInf fmt a = true) (h : isInf fmt b = true → isNeg fmt a ≠ isNeg fmt b) :
    ieeeSub fmt a b = some (packFp fmt (isNeg fmt a) (infMag fmt)) :=
  ieeeAdd_of_isInf_left ha ((isNaN_negFp b).trans hb) hi (by simpa [Bool.eq_not_iff] using h)

theorem ieeeSub_of_isInf_right (hi : isInf fmt a = false) (hj : isInf fmt b = true) :
    ieeeSub fmt a b = some (packFp fmt (!isNeg fmt b) (infMag fmt)) := by
  rw [ieeeSub, ieeeAdd_of_isInf_right ha ((isNaN_negFp b).trans hb) hi ((isInf_negFp b).trans hj), isNeg_negFp]

theorem ieeeMul_of_isInf (hi : isInf fmt a = true ∨ isInf fmt b = true) (hza : isZero fmt a = false)
    (hzb : isZero fmt b = false) :
    ieeeMul fmt a b = some (packFp fmt (isNeg fmt a != isNeg fmt b) (infMag fmt)) := by
  rcases hi with hi | hi <;> simp [ieeeMul, ha, hb, hi, hza, hzb]

theorem ieeeDiv_of_isInf_left (hi : isInf fmt a = true) (hj : isInf fmt b = false) :
    ieeeDiv fmt a b = some (packFp fmt (isNeg fmt a != isNeg fmt b) (infMag fmt)) := by
  simp [ieeeDiv, ha, hb, hi, hj]

theorem ieeeDiv_of_isInf_right (hi : isInf fmt a = false) (hj : isInf fmt b = true) :
    ieeeDiv fmt a b = some (packFp fmt (isNeg fmt a != isNeg fmt b) 0) := by
  simp [ieeeDiv, ha, hb, hi, hj]

theorem ieeeDiv_of_isZero_right (hi : isInf fmt a = false) (hza : isZero fmt a = false) (hzb : isZero fmt b = true) :
    ieeeDiv fmt a b = some (packFp fmt (isNeg fmt a != isNeg fmt b) (infMag fmt)) := by
  have hj : isInf fmt b = false := by
    cases h : isInf fmt b
    · rfl
    · cases (isZero_of_isInf h).symm.trans hzb
  simp [ieeeDiv, ha, hb, hi, hj, hza, hzb]

end Infinite

/-- Settles O48: one lemma per case of each operation; for a product, an infinity is no zero. -/
theorem infinitiesAndZeroDivisors : Obligations.InfinitiesAndZeroDivisors := by
  intro fmt a b ha hb
  exact ⟨fun hi hj => fadd_of_some (ieeeAdd_of_isInf_left ha hb hi (by simp [hj])),
    fun hi hj => fadd_of_some (ieeeAdd_of_isInf_right ha hb hi hj),
    fun hi _ hs => fadd_of_some (ieeeAdd_of_isInf_left ha hb hi fun _ => hs),
    fun hi hj => fsub_of_some (ieeeSub_of_isInf_left ha hb hi (by simp [hj])),
    fun hi hj => fsub_of_some (ieeeSub_of_isInf_right ha hb hi hj),
    fun hi _ hs => fsub_of_some (ieeeSub_of_isInf_left ha hb hi fun _ => hs),
    fun hi hz => fmul_of_some (ieeeMul_of_isInf ha hb (.inl hi) (isZero_of_isInf hi) hz),
    fun hz hj => fmul_of_some (ieeeMul_of_isInf ha hb (.inr hj) hz (isZero_of_isInf hj)),
    fun hi hza hzb => fdiv_of_some (ieeeDiv_of_isZero_right ha hb hi hza hzb),
    fun hi hj => fdiv_of_some (ieeeDiv_of_isInf_left ha hb hi hj),
    fun hi hj => fdiv_of_some (ieeeDiv_of_isInf_right ha hb hi hj)⟩

/-! ### NaNs (R141) -/

theorem isNaNPattern_nanResult (fmt : Fmt) (op : Opcode) (a b : Word) :
    isNaNPattern fmt (nanResult fmt op a b) = true := by
  unfold nanResult
  split
  · assumption
  · cases fmt <;> decide

theorem isNaN_nanResult (fmt : Fmt) (op : Opcode) (a b : Word) : isNaN fmt (nanResult fmt op a b) = true :=
  (Bool.and_eq_true_iff.mp (isNaNPattern_nanResult fmt op a b)).2

/-- An operation that is no NaN where it is defined is a NaN exactly where it is not, and is `nan_result` there. -/
theorem isNaN_getD_nanResult {o : Option Word} (ho : ∀ r, o = some r → isNaN fmt r = false) (op : Opcode)
    (a b : Word) :
    (isNaN fmt (o.getD (nanResult fmt op a b)) = true ↔ o = none) ∧
    (isNaN fmt (o.getD (nanResult fmt op a b)) = true → o.getD (nanResult fmt op a b) = nanResult fmt op a b) := by
  cases o with
  | none => simp [isNaN_nanResult]
  | some r => simp [ho r rfl]

theorem roundMag_le_infMag (fmt : Fmt) (num den : Nat) : roundMag fmt num den ≤ infMag fmt := Nat.min_le_right _ _

theorem isNaN_of_ieeeAdd {a b r : Word} (h : ieeeAdd fmt a b = some r) : isNaN fmt r = false := by
  simp only [ieeeAdd] at h
  split_ifs at h <;> cases h <;> exact isNaN_packFp _ (by simp [roundMag_le_infMag])

theorem isNaN_of_ieeeMul {a b r : Word} (h : ieeeMul fmt a b = some r) : isNaN fmt r = false := by
  simp only [ieeeMul] at h
  split_ifs at h <;> cases h <;> exact isNaN_packFp _ (by simp [roundMag_le_infMag])

theorem isNaN_of_ieeeDiv {a b r : Word} (h : ieeeDiv fmt a b = some r) : isNaN fmt r = false := by
  simp only [ieeeDiv] at h
  split_ifs at h <;> cases h <;> exact isNaN_packFp _ (by simp [roundMag_le_infMag])

theorem ieeeAdd_eq_none_iff (a b : Word) : ieeeAdd fmt a b = none ↔ isNaN fmt a = true ∨ isNaN fmt b = true ∨
    (isInf fmt a = true ∧ isInf fmt b = true ∧ isNeg fmt a ≠ isNeg fmt b) := by
  simp only [ieeeAdd]
  split_ifs <;> grind

theorem ieeeSub_eq_none_iff (a b : Word) : ieeeSub fmt a b = none ↔ isNaN fmt a = true ∨ isNaN fmt b = true ∨
    (isInf fmt a = true ∧ isInf fmt b = true ∧ isNeg fmt a = isNeg fmt b) := by
  simpa [ieeeSub, Bool.eq_not_iff] using ieeeAdd_eq_none_iff (fmt := fmt) a (negFp fmt b)

theorem ieeeMul_eq_none_iff (a b : Word) : ieeeMul fmt a b = none ↔ isNaN fmt a = true ∨ isNaN fmt b = true ∨
    (isInf fmt a = true ∧ isZero fmt b = true) ∨ (isZero fmt a = true ∧ isInf fmt b = true) := by
  have ha := isZero_of_isInf (fmt := fmt) (w := a)
  have hb := isZero_of_isInf (fmt := fmt) (w := b)
  simp only [ieeeMul]
  split_ifs <;> grind

theorem ieeeDiv_eq_none_iff (a b : Word) : ieeeDiv fmt a b = none ↔ isNaN fmt a = true ∨ isNaN fmt b = true ∨
    (isZero fmt a = true ∧ isZero fmt b = true) ∨ (isInf fmt a = true ∧ isInf fmt b = true) := by
  have ha := isZero_of_isInf (fmt := fmt) (w := a)
  have hb := isZero_of_isInf (fmt := fmt) (w := b)
  simp only [ieeeDiv]
  split_ifs <;> grind

/-- Settles O49: an operation is undefined exactly in IEEE 754's cases, and what it answers elsewhere is no NaN. -/
theorem naNResultsAreNanResult : Obligations.NaNResultsAreNanResult := by
  intro fmt a b
  obtain ⟨hadd, hadd'⟩ := isNaN_getD_nanResult (fun _ => isNaN_of_ieeeAdd (fmt := fmt) (a := a) (b := b)) .add a b
  obtain ⟨hsub, hsub'⟩ :=
    isNaN_getD_nanResult (fun _ => isNaN_of_ieeeAdd (fmt := fmt) (a := a) (b := negFp fmt b)) .sub a b
  obtain ⟨hmul, hmul'⟩ := isNaN_getD_nanResult (fun _ => isNaN_of_ieeeMul (fmt := fmt) (a := a) (b := b)) .mul a b
  obtain ⟨hdiv, hdiv'⟩ := isNaN_getD_nanResult (fun _ => isNaN_of_ieeeDiv (fmt := fmt) (a := a) (b := b)) .div a b
  exact ⟨hadd.trans (ieeeAdd_eq_none_iff a b), hadd', hsub.trans (ieeeSub_eq_none_iff a b), hsub',
    hmul.trans (ieeeMul_eq_none_iff a b), hmul', hdiv.trans (ieeeDiv_eq_none_iff a b), hdiv',
    fun op => isNaNPattern_nanResult fmt op a b⟩

end Sys2Proof.Arithmetic
end

/-! PROOFS. LOAD and STORE (spec 42_load_store.md R160, R161): how they issue. -/

namespace Sys2Proof.LoadStore

open Sys2Proof.Arithmetic (exec_of_firstFree)

/-- Settles O26: the destination is the only field, and the operands are the immediate and the empty slot (R160). -/
theorem loadIssues : Obligations.LoadIssues := by
  intro s t rd imm hfree hrd
  have hregs : ∀ f ∈ Machine.fieldsI rd, f.2.toNat < s.cfg.nregs.toNat := by simp [Machine.fieldsI, hrd]
  exact exec_of_firstFree (i := .load rd imm) hfree hregs

/-- Settles O27: the fields are the destination and the source, and the operands are what the source's capture gives
before the destination is renamed, and the empty slot (R161). -/
theorem storeIssues : Obligations.StoreIssues := by
  intro s t rd rs1 hfree hrd hrs1
  have hregs : ∀ f ∈ Machine.fieldsS rd rs1, f.2.toNat < s.cfg.nregs.toNat := by simp [Machine.fieldsS, hrd, hrs1]
  exact exec_of_firstFree (i := .store rd rs1) hfree hregs

end Sys2Proof.LoadStore

/-! PROOFS. Fatal errors (spec 60_exceptions.md R171, R173, R174, R178): what pre-run validation records, and that a
coherent running engine raises `UnknownRegisterError` at most. -/

namespace Sys2Proof.Exceptions

open Sys2Proof.Config
open Sys2Proof.Machine
open Sys2Proof.Safety
open Sys2Proof.Laws
open Sys2Proof.EngineState
open Sys2Proof.EngineCycle

/-! ### The first failing configuration register (R173, R201) -/

/-- In a list of checks with rising numbers, the first that fails is the one with the lowest number. -/
theorem find?_failing_eq_some_iff {checks : List (Nat × Bool)} (hrise : checks.Pairwise fun a b => a.1 < b.1)
    (r : Nat) (b : Bool) :
    checks.find? (fun c => !c.2) = some (r, b) ↔
      b = false ∧ (r, false) ∈ checks ∧ ∀ q, q < r → (q, false) ∉ checks := by
  induction checks with
  | nil => simp
  | cons c checks ih =>
    obtain ⟨m, ok⟩ := c
    obtain ⟨hhead, htail⟩ := List.pairwise_cons.mp hrise
    cases ok with
    | true => simpa using ih htail
    | false =>
      have hlow : ∀ q, (q, false) ∈ (m, false) :: checks → m ≤ q := by
        rintro q (_ | ⟨_, hq⟩)
        · exact le_rfl
        · exact (hhead _ hq).le
      constructor
      · rintro ⟨⟩
        exact ⟨rfl, List.mem_cons_self, fun q hq hmem => (hlow q hmem).not_gt hq⟩
      · rintro ⟨rfl, hmem, hfirst⟩
        obtain rfl : m = r := (hlow r hmem).eq_of_not_lt fun hlt => hfirst m hlt List.mem_cons_self
        rfl

theorem outOfRange_iff_mem (cfg : Params) (r : Nat) : OutOfRange cfg r ↔ (r, false) ∈ configChecks cfg := by
  simp only [OutOfRange, configChecks, List.mem_cons, List.not_mem_nil, or_false, Prod.mk.injEq, false_eq_decide_iff,
    not_and_or, not_le, Nat.lt_one_iff]

theorem configChecks_rising (cfg : Params) : (configChecks cfg).Pairwise fun a b => a.1 < b.1 := by
  simp [configChecks]

theorem find?_configChecks_eq_none_iff (cfg : Params) :
    (configChecks cfg).find? (fun c => !c.2) = none ↔ ∀ r, ¬ OutOfRange cfg r := by
  simp [outOfRange_iff_mem]

/-- The single ranges come first, in ascending number; the sum of the stations is looked at when they all hold. -/
theorem firstConfigError_eq_some_iff (cfg : Params) (register : Nat) :
    firstConfigError cfg = some register ↔
      (OutOfRange cfg register ∧ ∀ r, r < register → ¬ OutOfRange cfg r) ∨
      ((∀ r, ¬ OutOfRange cfg r) ∧ register = 0x1B ∧ 256 < stationCount cfg) := by
  unfold firstConfigError
  cases hfind : (configChecks cfg).find? (fun c => !c.2) with
  | none =>
    have hnone := (find?_configChecks_eq_none_iff cfg).mp hfind
    simp [hnone, and_comm, eq_comm]
  | some c =>
    obtain ⟨m, ok⟩ := c
    obtain ⟨-, hm, hlow⟩ := (find?_failing_eq_some_iff (configChecks_rising cfg) m ok).mp hfind
    simp only [← outOfRange_iff_mem] at hm hlow
    have hsome : ¬ ∀ r, ¬ OutOfRange cfg r := fun h => h m hm
    simp only [Option.some.injEq, hsome, false_and, or_false]
    constructor
    · rintro rfl
      exact ⟨hm, hlow⟩
    · rintro ⟨hr, hfirst⟩
      exact le_antisymm (not_lt.mp fun h => hlow _ h hr) (not_lt.mp fun h => hfirst _ h hm)

/-! ### The lowest-numbered illegal record (R171) -/

/-- What validation records of record `n`, if it is illegal (R171). -/
def illegalAt (cfg : Params) (prog : ProgStore) (n : Nat) : Option (Nat × IllegalReason) :=
  match decode cfg.fmt (progRead prog n) with
  | .invalid why => some (n, why)
  | .instr _ => none

theorem firstIllegal_eq_findSome? (cfg : Params) (prog : ProgStore) :
    firstIllegal cfg prog = (List.range cfg.progLen.toNat).findSome? (illegalAt cfg prog) := rfl

theorem illegalAt_eq_some_iff (cfg : Params) (prog : ProgStore) (m n : Nat) (why : IllegalReason) :
    illegalAt cfg prog m = some (n, why) ↔ m = n ∧ decode cfg.fmt (progRead prog n) = .invalid why := by
  unfold illegalAt
  constructor
  · intro h
    split at h <;> cases h
    exact ⟨rfl, by assumption⟩
  · rintro ⟨rfl, h⟩
    rw [h]

theorem illegalAt_eq_none_iff (cfg : Params) (prog : ProgStore) (n : Nat) :
    illegalAt cfg prog n = none ↔ ∃ i, decode cfg.fmt (progRead prog n) = .instr i := by
  unfold illegalAt
  cases decode cfg.fmt (progRead prog n) <;> simp

/-- A search of `0..n-1` ends at the lowest index that answers. -/
theorem findSome?_range_eq_some_iff {α : Type} (f : Nat → Option α) (n : Nat) (b : α) :
    (List.range n).findSome? f = some b ↔ ∃ k, k < n ∧ f k = some b ∧ ∀ m, m < k → f m = none := by
  induction n with
  | zero => simp
  | succ n ih =>
    rw [List.range_succ, List.findSome?_append, Option.or_eq_some_iff, ih, List.findSome?_eq_none_iff]
    constructor
    · rintro (⟨k, hk, hfk, hlow⟩ | ⟨hnone, hn⟩)
      · exact ⟨k, hk.trans (Nat.lt_succ_self n), hfk, hlow⟩
      · exact ⟨n, Nat.lt_succ_self n, by simpa using hn, fun m hm => hnone m (List.mem_range.mpr hm)⟩
    · rintro ⟨k, hk, hfk, hlow⟩
      rcases Nat.lt_succ_iff_lt_or_eq.mp hk with hlt | rfl
      · exact .inl ⟨k, hlt, hfk, hlow⟩
      · exact .inr ⟨fun m hm => hlow m (List.mem_range.mp hm), by simp [hfk]⟩

theorem firstIllegal_eq_some_iff (cfg : Params) (prog : ProgStore) (n : Nat) (why : IllegalReason) :
    firstIllegal cfg prog = some (n, why) ↔
      n < cfg.progLen.toNat ∧ decode cfg.fmt (progRead prog n) = .invalid why ∧
      ∀ m, m < n → ∃ i, decode cfg.fmt (progRead prog m) = .instr i := by
  rw [firstIllegal_eq_findSome?, findSome?_range_eq_some_iff]
  simp only [illegalAt_eq_some_iff, illegalAt_eq_none_iff]
  constructor
  · rintro ⟨k, hk, ⟨rfl, hwhy⟩, hlow⟩
    exact ⟨hk, hwhy, hlow⟩
  · rintro ⟨hn, hwhy, hlow⟩
    exact ⟨n, hn, ⟨rfl, hwhy⟩, hlow⟩

theorem firstIllegal_eq_none_iff (cfg : Params) (prog : ProgStore) :
    firstIllegal cfg prog = none ↔ LegalProgram cfg prog := by
  simp [firstIllegal_eq_findSome?, illegalAt_eq_none_iff, LegalProgram]

/-! ### What validation records (R178) -/

/-- Validation looks at the configuration, then at the program, and last at the program's length. -/
theorem validate_cases (cfg : Params) (prog : ProgStore) :
    (∃ r, firstConfigError cfg = some r ∧ validate cfg prog = .fault (.configError r)) ∨
    (∃ n why, firstConfigError cfg = none ∧ firstIllegal cfg prog = some (n, why) ∧
      validate cfg prog = .fault (.invalidInstruction n why)) ∨
    (firstConfigError cfg = none ∧ firstIllegal cfg prog = none ∧
      validate cfg prog = if cfg.progLen.toNat = 0 then .done else .run) := by
  unfold validate
  cases firstConfigError cfg with
  | some r => exact .inl ⟨r, rfl, rfl⟩
  | none =>
    cases firstIllegal cfg prog with
    | some e => exact .inr (.inl ⟨e.1, e.2, rfl, rfl, rfl⟩)
    | none => exact .inr (.inr ⟨rfl, rfl, rfl⟩)

theorem validate_ne_fault {cfg : Params} {prog : ProgStore} {e : EngineError}
    (h : validate cfg prog = if cfg.progLen.toNat = 0 then .done else .run) : validate cfg prog ≠ .fault e := by
  rw [h]
  split <;> simp

theorem validate_eq_configError_iff (cfg : Params) (prog : ProgStore) (register : Nat) :
    validate cfg prog = .fault (.configError register) ↔ firstConfigError cfg = some register := by
  rcases validate_cases cfg prog with ⟨r, hc, hv⟩ | ⟨n, why, hc, -, hv⟩ | ⟨hc, -, hv⟩
  · simp [hc, hv]
  · simp [hc, hv]
  · simp [hc, validate_ne_fault hv]

theorem validate_eq_invalidInstruction_iff (cfg : Params) (prog : ProgStore) (n : Nat) (why : IllegalReason) :
    validate cfg prog = .fault (.invalidInstruction n why) ↔
      firstConfigError cfg = none ∧ firstIllegal cfg prog = some (n, why) := by
  rcases validate_cases cfg prog with ⟨r, hc, hv⟩ | ⟨n', why', hc, hp, hv⟩ | ⟨hc, hp, hv⟩
  · simp [hc, hv]
  · simp [hc, hp, hv]
  · simp [hp, validate_ne_fault hv]

/-- Settles O9: validation records the first configuration error, whatever the program is. -/
theorem firstFailingConfigurationRegister : Obligations.FirstFailingConfigurationRegister := by
  intro cfg prog register
  rw [validate_eq_configError_iff, firstConfigError_eq_some_iff]
  rfl

/-- Settles O8: without a configuration error validation records the first illegal record. -/
theorem lowestIllegalRecordIsRecorded : Obligations.LowestIllegalRecordIsRecorded := by
  intro cfg prog n why
  rw [validate_eq_invalidInstruction_iff, firstConfigError_eq_none_iff, firstIllegal_eq_some_iff]

theorem legalProgram_of_validate {cfg : Params} {prog : ProgStore} (h : validate cfg prog = .run) :
    LegalProgram cfg prog := by
  rw [← firstIllegal_eq_none_iff]
  rcases validate_cases cfg prog with ⟨r, -, hv⟩ | ⟨n, why, -, -, hv⟩ | ⟨-, hp, -⟩
  · cases hv.symm.trans h
  · cases hv.symm.trans h
  · exact hp

/-! ### What a coherent running engine can raise (R130, R174) -/

theorem exists_resolved {x : Slot} (hf : Filled x) (hp : x.isPending = false) : ∃ v, x = .resolved v := by
  cases x with
  | empty => exact absurd rfl hf
  | resolved v => exact ⟨v, rfl⟩
  | pending t => cases hp

/-- A ready station has the operands that its opcode reads (R115, R125). -/
theorem exists_computeStation_of_ready {i : Instr} {st : Station} (hop : st.op = some i.op) (hs : SlotsShaped i st)
    (hr : st.ready = true) (fmt : Fmt) : ∃ v, computeStation fmt st = some v := by
  obtain ⟨-, hjp, hkp⟩ := (ready_iff st).mp hr
  cases i with
  | load rd imm =>
    obtain ⟨hj, -⟩ := hs
    simp [computeStation, hop, Instr.op, hj, Slot.value]
  | store rd rs1 =>
    obtain ⟨hj, -⟩ := hs
    obtain ⟨a, hj⟩ := exists_resolved hj hjp
    simp [computeStation, hop, Instr.op, hj, Slot.value]
  | add rd rs1 rs2 | sub rd rs1 rs2 | mul rd rs1 rs2 | div rd rs1 rs2 =>
    obtain ⟨hj, hk⟩ := hs
    obtain ⟨a, hj⟩ := exists_resolved hj hjp
    obtain ⟨b, hk⟩ := exists_resolved hk hkp
    simp [computeStation, hop, Instr.op, hj, hk, Slot.value]

/-- The latched winner has counted up to a latency of at least one cycle, so it is ready and has a result. -/
theorem exists_writeBack {s : State} (hco : Coherent s) : ∃ s1, writeBack s = some s1 := by
  rcases writeBack_cases s with ⟨-, hw⟩ | ⟨w, st, v, -, -, -, hw⟩ | ⟨w, hq, hno, -⟩
  · exact ⟨_, hw⟩
  · exact ⟨_, hw⟩
  · obtain ⟨n, i, hin, hfull⟩ := winner_of_coherent hco hq
    obtain ⟨hlt, -, -⟩ := (arbitrate_eq_some ..).mp (hco.latch.symm.trans hq)
    have hpos : (stationAt s w).elapsed ≠ 0#8 := fun h0 => by
      have hlat := hin.lat_pos
      rw [← hfull, h0] at hlat
      exact absurd hlat (by decide)
    obtain ⟨v, hv⟩ := exists_computeStation_of_ready hin.op hin.shaped (hin.counts hpos) s.cfg.fmt
    have hnone := hno (stationAt s w) (by simp [stationAt, hlt])
    cases hnone.symm.trans hv

/-- With a legal program, phase 2 raises nothing or an `UnknownRegisterError` (R111). -/
theorem issuePhase_run {s t : State} (hprog : LegalProgram s.cfg s.prog) (h : issuePhase s = .next t) :
    t.run = s.run ∨ ∃ n f r, t.run = .fault (.unknownRegister n f r) := by
  rcases issuePhase_cases s with ⟨-, h2⟩ | ⟨i, -, -, h2⟩ | ⟨why, hlt, hf, -⟩
  · cases h2.symm.trans h
    exact .inl rfl
  · rcases exec_cases i s with ⟨-, hx⟩ | ⟨u, f, r, -, -, hx⟩ | ⟨u, -, -, hx⟩ <;> cases (h2.trans hx).symm.trans h
    · exact .inl rfl
    · exact .inr ⟨_, f, r, rfl⟩
    · exact .inl rfl
  · obtain ⟨i, hi⟩ := hprog s.cursor hlt
    cases hi.symm.trans hf

/-- A step of a coherent running engine goes on, ends the run, or raises an `UnknownRegisterError`. -/
theorem step_run_of_coherent {s t : State} (hco : Coherent s) (hrst : s.pins.rst = false) (hrun : s.run = .run)
    (hs : step s = .next t) :
    t.run = .run ∨ t.run = .done ∨ ∃ n f r, t.run = .fault (.unknownRegister n f r) := by
  rw [step_of_running hrst hrun] at hs
  rcases cycle_cases s with ⟨hw, -⟩ | ⟨s1, s2, hw, hi, hc⟩
  · obtain ⟨s1, hw1⟩ := exists_writeBack hco
    cases hw.symm.trans hw1
  cases hc.symm.trans hs
  obtain ⟨hcfg, hprog, -⟩ := Memory.sameLoad_writeBack hw
  have hlegal : LegalProgram s1.cfg s1.prog := by
    rw [hcfg, hprog]
    exact legalProgram_of_validate (hco.validated hrun)
  rcases issuePhase_run hlegal hi with h2 | ⟨n, f, r, h2⟩
  · have hrun2 : s2.run = .run := h2.trans ((writeBack_run hw).trans hrun)
    rw [finishCycle_of_run hrun2, advancePhase_run, executePhase_run, hrun2]
    split
    · exact .inr (.inl rfl)
    · exact .inl rfl
  · rw [finishCycle_of_fault h2]
    exact .inr (.inr ⟨n, f, r, rfl⟩)

/-- Settles O53: the one fatal error of a coherent running engine is an `UnknownRegisterError`. -/
theorem noInternalErrorFromCoherentStates : Obligations.NoInternalErrorFromCoherentStates := by
  intro s t hco hrst hrun hs
  rcases step_run_of_coherent hco hrst hrun hs with h | h | ⟨n, f, r, h⟩ <;> simp [h]

end Sys2Proof.Exceptions

/-! PROOFS. Reset (spec 70_reset_and_hazards.md R201): which loads pre-run validation passes. -/

namespace Sys2Proof.ResetAndHazards

open Sys2Proof.Config
open Sys2Proof.Machine
open Sys2Proof.Safety
open Sys2Proof.EngineCycle (firstConfigError_eq_none_iff validate_of_empty)
open Sys2Proof.Exceptions

theorem validate_eq_run_iff (cfg : Params) (prog : ProgStore) :
    validate cfg prog = .run ↔ LegalConfig cfg ∧ LegalProgram cfg prog ∧ cfg.progLen.toNat ≠ 0 := by
  rw [← firstConfigError_eq_none_iff, ← firstIllegal_eq_none_iff]
  rcases validate_cases cfg prog with ⟨r, hc, hv⟩ | ⟨n, why, hc, hp, hv⟩ | ⟨hc, hp, hv⟩
  · simp [hc, hv]
  · simp [hp, hv]
  · simp [hc, hp, hv]

/-- An empty program has no illegal record, so DONE asks nothing of the program store. -/
theorem validate_eq_done_iff (cfg : Params) (prog : ProgStore) :
    validate cfg prog = .done ↔ LegalConfig cfg ∧ cfg.progLen.toNat = 0 := by
  refine ⟨fun h => ?_, fun ⟨hc, hn⟩ => validate_of_empty prog hc hn⟩
  rcases validate_cases cfg prog with ⟨r, -, hv⟩ | ⟨n, why, -, -, hv⟩ | ⟨hc, -, hv⟩
  · cases hv.symm.trans h
  · cases hv.symm.trans h
  · exact ⟨(firstConfigError_eq_none_iff cfg).mp hc, by simpa using hv.symm.trans h⟩

/-- A configuration error hides every instruction error (R178). -/
theorem exists_validate_eq_configError_iff (cfg : Params) (prog : ProgStore) :
    (∃ register, validate cfg prog = .fault (.configError register)) ↔ ¬ LegalConfig cfg := by
  simp only [validate_eq_configError_iff, ← Option.ne_none_iff_exists']
  exact not_congr (firstConfigError_eq_none_iff cfg)

/-- Settles O7: RUN, DONE and ConfigError each have their exact condition on the load. -/
theorem validationPassesExactlyLegalLoads : Obligations.ValidationPassesExactlyLegalLoads := by
  intro cfg prog
  exact ⟨validate_eq_run_iff cfg prog, validate_eq_done_iff cfg prog, exists_validate_eq_configError_iff cfg prog⟩

end Sys2Proof.ResetAndHazards

/-! PROOFS. The records that the spec writes out (spec 95_test_vectors.md L2-ENC): a legal one is the record of its
instruction; of the illegal ones, one has an opcode that no instruction has and one a nonzero reserved field. -/

namespace Sys2Proof.WrittenRecords

open Sys2Proof.Encoding

/-- The round trip of R90, for a record given as a number. -/
theorem decode_of_encode_eq {fmt : Fmt} {w : Record} {i : Instr} (hw : encode i = w) (hwf : i.wf fmt = true) :
    decode fmt w = .instr i :=
  hw ▸ decodeOfEncodeIsTheInstruction fmt i hwf

/-- Settles O5: the seven legal records are those of their instructions. Opcode 7 of ENC15 is no instruction's, so its
nonzero immediate is not read (R86). The immediate of ENC17 has bit 32 set, which a LOAD of binary32 reserves (R83). -/
theorem writtenRecordsDecode : Obligations.WrittenRecordsDecode := by
  have enc15 : 6 ≤ (opField 0x000000010000000000000007#96).toNat := by decide
  have enc17_op : opField 0x000000014000000000000104#96 = Opcode.load.code := by decide
  have enc17_imm : immFits .binary32 (immField 0x000000014000000000000104#96) ≠ true := by decide
  refine ⟨?add, ?sub, ?mul, ?div, ?load64, ?store, ?load32, decode_of_six_le enc15,
    decode_of_not_reservedZero enc17_op fun ⟨_, _, himm⟩ => enc17_imm himm⟩
  case add | sub | mul | div | load64 | store | load32 => exact decode_of_encode_eq (by decide) (by decide)

end Sys2Proof.WrittenRecords
